-- ==== Sys2Proof/Word.lean ====
section
/-! DEFINITION. The stream word, and the three small containers the registers come in: one value for each lane, for each
sub-output, for each discontinuity source (00_scope.md R13). -/

namespace Sys2Proof

/-- A word of the command or response stream, and a binary32 bit pattern (00_scope.md R13; 20_memory.md R67). -/
abbrev Word := BitVec 32

/-- The sub-output index `s` of R13: `a` is 0, `b` is 1. -/
inductive Sub where
  | a
  | b
deriving DecidableEq, Repr

/-- The source index `src` of R13: the main source and the two sub-outputs. -/
inductive Source where
  | m
  | a
  | b
deriving DecidableEq, Repr

/-- One value for each of the lanes 0 to 3. -/
structure Lanes (α : Type) where
  l0 : α
  l1 : α
  l2 : α
  l3 : α
deriving DecidableEq, Repr

/-- One value for each of the sub-outputs A and B. -/
structure Subs (α : Type) where
  a : α
  b : α
deriving DecidableEq, Repr

/-- One value for each of the sources M, A and B. -/
structure Sources (α : Type) where
  m : α
  a : α
  b : α
deriving DecidableEq, Repr

namespace Lanes

def get {α : Type} (v : Lanes α) : Fin 4 → α
  | 0 => v.l0
  | 1 => v.l1
  | 2 => v.l2
  | 3 => v.l3

def ofFn {α : Type} (f : Fin 4 → α) : Lanes α := ⟨f 0, f 1, f 2, f 3⟩

def map {α β : Type} (f : α → β) (v : Lanes α) : Lanes β := ⟨f v.l0, f v.l1, f v.l2, f v.l3⟩

/-- The same value in every lane. -/
def all {α : Type} (x : α) : Lanes α := ⟨x, x, x, x⟩

def toList {α : Type} (v : Lanes α) : List α := [v.l0, v.l1, v.l2, v.l3]

end Lanes

namespace Subs

def get {α : Type} (v : Subs α) : Sub → α
  | .a => v.a
  | .b => v.b

def set {α : Type} (v : Subs α) (k : Sub) (x : α) : Subs α :=
  match k with
  | .a => ⟨x, v.b⟩
  | .b => ⟨v.a, x⟩

def ofFn {α : Type} (f : Sub → α) : Subs α := ⟨f .a, f .b⟩

/-- The same value for both sub-outputs. -/
def all {α : Type} (x : α) : Subs α := ⟨x, x⟩

end Subs

namespace Sources

def get {α : Type} (v : Sources α) : Source → α
  | .m => v.m
  | .a => v.a
  | .b => v.b

def set {α : Type} (v : Sources α) (src : Source) (x : α) : Sources α :=
  match src with
  | .m => ⟨x, v.a, v.b⟩
  | .a => ⟨v.m, x, v.b⟩
  | .b => ⟨v.m, v.a, x⟩

/-- The same value for the three sources. -/
def all {α : Type} (x : α) : Sources α := ⟨x, x, x⟩

end Sources

/-- The kernel buffer a sub-output owns: A for sub 0, B for sub 1 (43_subharmonic_divider.md R183). -/
def Sub.source : Sub → Source
  | .a => .a
  | .b => .b

end Sys2Proof
end

