-- ==== Sys2Proof/Syntax.lean ====
section
/-! DEFINITION. The nine commands of 30_encoding.md R88, one constructor for each row of the opcode table, and the
causes of rejection of 60_exceptions.md R261. -/

namespace Sys2Proof

/-- A command with its operands. Masks are bits, pitches and times are binary32 bit patterns; the channel count and the
divisors are integers (R99), whose field widths `Instr.wf` checks. -/
inductive Instr where
  /-- NOP, R89. -/
  | nop
  /-- SET_WAVEFORM, R90: bit i of a mask belongs to lane i, 1 = saw. -/
  | setWaveform (mainMask subMask : BitVec 4)
  /-- SETUP_SUB, R91 and R92: the active channel count, the pitches, the divisors of sub A and of sub B. -/
  | setupSub (nn : Nat) (pitch : Lanes Word) (dA dB : Lanes Nat)
  /-- SET_PW, R93: the pulse widths. -/
  | setPw (w : Lanes Word)
  /-- COMPUTE_OFFSET, R94: the sample time. -/
  | computeOffset (t : Word)
  /-- PROCESS, R95: the sample time and the four sync values. -/
  | process (t : Word) (y : Lanes Word)
  /-- READ_MAIN, R96. -/
  | readMain
  /-- READ_SUB, R97: the sub index. -/
  | readSub (k : Sub)
  /-- READ_STATUS, R98. -/
  | readStatus
deriving DecidableEq, Repr

/-- Why a command is rejected: the causes 1 to 7 of R261 (cause 0 is "executed" and no rejection). -/
inductive Cause where
  | illegalOpcode
  | badLength
  | reservedNonzero
  | cfgChannels
  | cfgDivisor
  | cfgPulseWidth
  | cfgSampleTime
deriving DecidableEq, Repr

end Sys2Proof
end

