-- ==== Sys2Proof/WellFormed.lean ====
section
/-! DEFINITION. When a command's operands fit the fields of its encoding (30_encoding.md R91, R92, R99). A count above 4
or a divisor outside 1..16 is well-formed here as long as its field can hold it: such a command decodes and is then
rejected by its value check (R225, R226). -/

namespace Sys2Proof

/-- The channel count fits the three bits of `IMM[2:0]` (R91). -/
abbrev countFits (nn : Nat) : Prop := nn < 8

/-- Each divisor fits its eight-bit field (R92). -/
abbrev divisorsFit (d : Lanes Nat) : Prop := d.l0 < 256 ∧ d.l1 < 256 ∧ d.l2 < 256 ∧ d.l3 < 256

/-- The command has an encoding. Every operand that is not named here is held in a type of exactly its field's width. -/
abbrev Instr.wf : Instr → Prop
  | .nop => True
  | .setWaveform _ _ => True
  | .setupSub nn _ dA dB => countFits nn ∧ divisorsFit dA ∧ divisorsFit dB
  | .setPw _ => True
  | .computeOffset _ => True
  | .process _ _ => True
  | .readMain => True
  | .readSub _ => True
  | .readStatus => True

end Sys2Proof
end

