-- ==== Sys2Proof/Decode.lean ====
section
/-! DEFINITION. The command stream's framing and the decoder (30_encoding.md R80 to R85, R88 to R101), the encoder, and
the words of a row of the opcode table. The decoder is total: a command it does not accept is rejected with its cause. -/

namespace Sys2Proof

/-! ## The header (R81) -/

def hdrOpc (h : Word) : BitVec 8 := h.extractLsb' 24 8

def hdrNW (h : Word) : Nat := (h.extractLsb' 16 8).toNat

def hdrRsv (h : Word) : BitVec 8 := h.extractLsb' 8 8

def hdrImm (h : Word) : BitVec 8 := h.extractLsb' 0 8

def mkHeader (opc nw imm : BitVec 8) : Word := opc ++ nw ++ (0#8) ++ imm

/-! ## The opcode map (R88) -/

/-- The nine legal opcodes. -/
inductive Opcode where
  | nop
  | setWaveform
  | setupSub
  | setPw
  | computeOffset
  | process
  | readMain
  | readSub
  | readStatus
deriving DecidableEq, Repr

/-- The opcode byte of R88. -/
def opcodeByte : Opcode → BitVec 8
  | .nop => 0x00#8
  | .setWaveform => 0x01#8
  | .setupSub => 0x02#8
  | .setPw => 0x03#8
  | .computeOffset => 0x04#8
  | .process => 0x05#8
  | .readMain => 0x06#8
  | .readSub => 0x07#8
  | .readStatus => 0x08#8

def allOpcodes : List Opcode :=
  [.nop, .setWaveform, .setupSub, .setPw, .computeOffset, .process, .readMain, .readSub, .readStatus]

/-- The opcode with this byte; none for 0x09 to 0xFF (R100). -/
def opcodeOf (b : BitVec 8) : Option Opcode := allOpcodes.find? fun o => opcodeByte o == b

/-- The number of operand words of each command (R88). -/
def operandWords : Opcode → Nat
  | .nop => 0
  | .setWaveform => 0
  | .setupSub => 6
  | .setPw => 4
  | .computeOffset => 1
  | .process => 5
  | .readMain => 0
  | .readSub => 0
  | .readStatus => 0

/-- The `IMM` bits the command does not use, which must be zero (R85). -/
def unusedImm : Opcode → BitVec 8
  | .nop => 0xFF#8
  | .setWaveform => 0x00#8
  | .setupSub => 0xF8#8
  | .setPw => 0xFF#8
  | .computeOffset => 0xFF#8
  | .process => 0xFF#8
  | .readMain => 0xFF#8
  | .readSub => 0xFE#8
  | .readStatus => 0xFF#8

/-- The columns "header match" and "header mask" of R88, as the table prints them. -/
def headerMatch : Opcode → Word
  | .nop => 0x00000000#32
  | .setWaveform => 0x01000000#32
  | .setupSub => 0x02060000#32
  | .setPw => 0x03040000#32
  | .computeOffset => 0x04010000#32
  | .process => 0x05050000#32
  | .readMain => 0x06000000#32
  | .readSub => 0x07000000#32
  | .readStatus => 0x08000000#32

def headerMask : Opcode → Word
  | .nop => 0xFFFFFFFF#32
  | .setWaveform => 0xFFFFFF00#32
  | .setupSub => 0xFFFFFFF8#32
  | .setPw => 0xFFFFFFFF#32
  | .computeOffset => 0xFFFFFFFF#32
  | .process => 0xFFFFFFFF#32
  | .readMain => 0xFFFFFFFF#32
  | .readSub => 0xFFFFFFFE#32
  | .readStatus => 0xFFFFFFFF#32

/-! ## Framing (R80, R82) -/

/-- The first command of a stream: its header, its `NW` operand words whatever the opcode, and the words after it. None
when the stream ends before the last of them. -/
def frameCommand : List Word → Option (Word × List Word × List Word)
  | [] => none
  | h :: rest =>
    if rest.length < hdrNW h then none
    else some (h, rest.take (hdrNW h), rest.drop (hdrNW h))

/-! ## Operand assembly (R90 to R99) -/

/-- The four eight-bit fields of a divisor word, lane i at bits 8i+7:8i, zero-extended (R92, R99). -/
def divisorFields (w : Word) : Lanes Nat :=
  Lanes.ofFn fun i => (w.extractLsb' (8 * i.val) 8).toNat

/-- The sub index `IMM[0]` (R97). -/
def subOfBit (b : Bool) : Sub := if b then .b else .a

/-- A list of exactly four words, lane 0 first. -/
def lanesOf : List Word → Option (Lanes Word)
  | [w0, w1, w2, w3] => some ⟨w0, w1, w2, w3⟩
  | _ => none

/-- The operands of SETUP_SUB from its six words (R92). -/
def assembleSetup (nn : Nat) : List Word → Option Instr
  | [p0, p1, p2, p3, da, db] => some (.setupSub nn ⟨p0, p1, p2, p3⟩ (divisorFields da) (divisorFields db))
  | _ => none

/-- The operand of COMPUTE_OFFSET from its word (R94). -/
def assembleOffset : List Word → Option Instr
  | [t] => some (.computeOffset t)
  | _ => none

/-- The operands of PROCESS from its five words (R95). -/
def assembleProcess : List Word → Option Instr
  | t :: ys => (lanesOf ys).map (.process t)
  | [] => none

/-- The command of a legal header and its operand words; none when the words are not as many as its row has. -/
def assemble (o : Opcode) (imm : BitVec 8) (ops : List Word) : Option Instr :=
  match o with
  | .nop => if ops = [] then some .nop else none
  | .setWaveform => if ops = [] then some (.setWaveform (imm.extractLsb' 0 4) (imm.extractLsb' 4 4)) else none
  | .setupSub => assembleSetup (imm.extractLsb' 0 3).toNat ops
  | .setPw => (lanesOf ops).map .setPw
  | .computeOffset => assembleOffset ops
  | .process => assembleProcess ops
  | .readMain => if ops = [] then some .readMain else none
  | .readSub => if ops = [] then some (.readSub (subOfBit (imm.getLsbD 0))) else none
  | .readStatus => if ops = [] then some .readStatus else none

/-- The decode checks (1) to (3) of R83, in their order, then the operands. The last arm is reached only by a list of
operand words that is not the one the header announces, which framing never gives: it is a wrong count too. -/
def decodeCommand (h : Word) (ops : List Word) : Except Cause Instr :=
  match opcodeOf (hdrOpc h) with
  | none => .error .illegalOpcode
  | some o =>
    if hdrNW h ≠ operandWords o then .error .badLength
    else if hdrRsv h ≠ 0#8 ∨ hdrImm h &&& unusedImm o ≠ 0#8 then .error .reservedNonzero
    else
      match assemble o (hdrImm h) ops with
      | some i => .ok i
      | none => .error .badLength

/-- Decode the first command of a stream: none while the stream ends inside it, else what it is, or its cause, and the
words after it. -/
def decode (ws : List Word) : Option (Except Cause Instr × List Word) :=
  match frameCommand ws with
  | none => none
  | some (h, ops, rest) => some (decodeCommand h ops, rest)

/-! ## The encoder -/

def Instr.opcode : Instr → Opcode
  | .nop => .nop
  | .setWaveform _ _ => .setWaveform
  | .setupSub _ _ _ _ => .setupSub
  | .setPw _ => .setPw
  | .computeOffset _ => .computeOffset
  | .process _ _ => .process
  | .readMain => .readMain
  | .readSub _ => .readSub
  | .readStatus => .readStatus

/-- A divisor word: lane 3 in the top byte, lane 0 in the lowest (R92). -/
def divisorWord (d : Lanes Nat) : Word :=
  BitVec.ofNat 8 d.l3 ++ BitVec.ofNat 8 d.l2 ++ BitVec.ofNat 8 d.l1 ++ BitVec.ofNat 8 d.l0

/-- The immediate byte of a command's header. -/
def Instr.immByte : Instr → BitVec 8
  | .setWaveform mainMask subMask => subMask ++ mainMask
  | .setupSub nn _ _ _ => (0#5) ++ BitVec.ofNat 3 nn
  | .readSub k => if k = .b then 1#8 else 0#8
  | .nop => 0#8
  | .setPw _ => 0#8
  | .computeOffset _ => 0#8
  | .process _ _ => 0#8
  | .readMain => 0#8
  | .readStatus => 0#8

/-- The operand words of a command, in stream order (R92 to R95). -/
def Instr.operands : Instr → List Word
  | .setupSub _ pitch dA dB => pitch.toList ++ [divisorWord dA, divisorWord dB]
  | .setPw w => w.toList
  | .computeOffset t => [t]
  | .process t y => t :: y.toList
  | .nop => []
  | .setWaveform _ _ => []
  | .readMain => []
  | .readSub _ => []
  | .readStatus => []

def Instr.header (i : Instr) : Word :=
  mkHeader (opcodeByte i.opcode) (BitVec.ofNat 8 (operandWords i.opcode)) i.immByte

/-- The words of a command. -/
def encode (i : Instr) : List Word := i.header :: i.operands

/-! ## The words of a row of the opcode table -/

/-- Word `k` of an instruction whose low `nbits` bits are `w` and whose other bits are 0. -/
def tableWord (nbits w k : Nat) : Word := BitVec.ofNat 32 (w % 2 ^ nbits / 2 ^ (32 * k))

/-- The header and as many operand words as it announces. -/
def tableWords (nbits w : Nat) : List Word :=
  let h := tableWord nbits w 0
  h :: (List.range (hdrNW h)).map fun k => tableWord nbits w (k + 1)

/-- The command the decoder reads from an instruction whose bits are `w`, bit 0 the least significant bit of its first
word. -/
def decodeTableWord (nbits w : Nat) : Option Instr :=
  match decode (tableWords nbits w) with
  | some (.ok i, _) => some i
  | _ => none

end Sys2Proof
end

