-- ==== Sys2Proof/Machine/State.lean ====
section
/-! DEFINITION. The state of one engine (10_state.md), its reset value (R45; 70_reset_and_hazards.md R290) and the reasons
a step can stop. Plain data. -/

namespace Sys2Proof.Machine

/-- The registers of one lane (10_state.md R21 to R34, R37). Real values are binary32 bit patterns. -/
structure Lane where
  /-- R21: the main phase. -/
  phase : Word
  /-- R22: the phases of the subs. -/
  subPhase : Subs Word
  /-- R23: the main frequency in Hz. -/
  freq : Word
  /-- R24: the frequencies of the subs. -/
  subFreq : Subs Word
  /-- R25: the divisors, integers in [1, 16] in every reachable state (log 10). -/
  div : Subs Nat
  /-- R26: the sub-harmonic counters, integers in [1, div] in every reachable state (log 10). -/
  cnt : Subs Nat
  /-- R27: the pulse width, shared by the main output and both subs. -/
  pw : Word
  /-- R28: the main waveform, true = saw. -/
  mainIsSaw : Bool
  /-- R29: the waveform of both subs, true = saw. -/
  subIsSaw : Bool
  /-- R30: the DC-offset compensation of the main output. -/
  dcMain : Word
  /-- R31: the DC-offset compensation of the subs. -/
  dcSub : Subs Word
  /-- R32: the latest main output sample. -/
  outMain : Word
  /-- R33: the latest output samples of the subs. -/
  outSub : Subs Word
  /-- R37: the factor of every jump height; no command writes it (log 17). -/
  syncDir : Word
  /-- R34: the ring-buffer cells of the three sources (log 11). -/
  buf : Sources (List Word)
deriving DecidableEq, Repr

/-- The stored part of the STATUS word of R41; `statusWord` computes the whole (log 13). -/
structure Status where
  /-- Bit 0, ERR_ILLEGAL, sticky. -/
  errIllegal : Bool
  /-- Bit 1, ERR_CFG, sticky. -/
  errCfg : Bool
  /-- Bit 2, ERR_SEQ, sticky. -/
  errSeq : Bool
  /-- Bit 3, STALE (R42). -/
  stale : Bool
  /-- Bits 15:8, LAST_CAUSE. -/
  lastCause : BitVec 8
deriving DecidableEq, Repr

/-- The state of one engine. -/
structure State where
  /-- The per-lane registers (R20; log 14). -/
  lanes : Lanes Lane
  /-- R35: the position of each ring buffer, shared by its lanes (log 10). -/
  pos : Sources Nat
  /-- R40: the active channel count, an integer in [0, 4] in every reachable state (log 10). -/
  n : Nat
  /-- R41, R42. -/
  status : Status
  /-- The framing state: the words of the command being received, header first; empty is "waiting for a header word"
  (30_encoding.md R82; 70_reset_and_hazards.md R290; log 2). -/
  frame : List Word
  /-- The words on the command stream that have not been read (60_exceptions.md R280 a; log 1). -/
  cmd : List Word
  /-- The response words produced, in order (60_exceptions.md R280 b; log 18). -/
  rsp : List Word
  /-- The MODEL's own: the number of the next block of NaN draws (log 3). -/
  draws : Nat
deriving DecidableEq, Repr

/-- Faults: none. Nothing stops this machine (60_exceptions.md R281; 93_implementation_defined.md lists no `stuck`), so
the type has no constructor (log 19). A rejected command is a next state, not a fault (R266). -/
inductive Fault where
deriving DecidableEq, Repr

/-- Refusals. -/
inductive Refusal where
  /-- Raised by `exec` alone, for an instruction that has no meaning yet; safe: nothing is claimed of it. Every
  instruction of this model has its meaning, so nothing raises it. -/
  | notModelled (mnemonic : String)
deriving DecidableEq, Repr

/-- What a step answers. -/
abbrev Result := Host.Outcome State Fault Refusal

/-- A lane after reset, its rings of `l` cells (10_state.md R45). -/
def Lane.resetOf (l : Nat) : Lane where
  phase := 0x00000000#32
  subPhase := Subs.all 0x00000000#32
  freq := 0x00000000#32
  subFreq := Subs.all 0x00000000#32
  div := Subs.all 1
  cnt := Subs.all 1
  pw := 0x3F000000#32
  mainIsSaw := true
  subIsSaw := true
  dcMain := 0x00000000#32
  dcSub := Subs.all 0x00000000#32
  outMain := 0x00000000#32
  outSub := Subs.all 0x00000000#32
  syncDir := 0x3F800000#32
  buf := Sources.all (List.replicate l 0x00000000#32)

/-- The STATUS word 0x00000000 (R45). -/
def Status.cleared : Status := ⟨false, false, false, false, 0#8⟩

/-- The state after reset of an engine with rings of `l` cells (10_state.md R45; 70_reset_and_hazards.md R290). -/
def State.resetOf (l : Nat) : State where
  lanes := Lanes.all (Lane.resetOf l)
  pos := Sources.all 0
  n := 0
  status := Status.cleared
  frame := []
  cmd := []
  rsp := []
  draws := 0

/-- The state after reset: the rings have `L = 32` cells (00_scope.md R10). -/
def State.reset : State := State.resetOf 32

/-- The registers of lane i: `(s.lane i).phase` is the `phase[i]` of the spec (00_scope.md R14). -/
def State.lane (s : State) (i : Fin 4) : Lane := s.lanes.get i

end Sys2Proof.Machine
end

