-- ==== Sys2Proof/Machine/Flags.lean ====
section
/-! DEFINITION. The cause codes (60_exceptions.md R261), the STATUS word and its bits (10_state.md R41; R268, R270), the
error line (R272) and the response's status word (30_encoding.md R87). -/

namespace Sys2Proof.Machine

/-- The 8-bit code of R261. -/
def causeCode : Cause → BitVec 8
  | .illegalOpcode => 1#8
  | .badLength => 2#8
  | .reservedNonzero => 3#8
  | .cfgChannels => 4#8
  | .cfgDivisor => 5#8
  | .cfgPulseWidth => 6#8
  | .cfgSampleTime => 7#8

/-- The class of R261: true for ERR_CFG, false for ERR_ILLEGAL. -/
def causeIsCfg : Cause → Bool
  | .illegalOpcode => false
  | .badLength => false
  | .reservedNonzero => false
  | .cfgChannels => true
  | .cfgDivisor => true
  | .cfgPulseWidth => true
  | .cfgSampleTime => true

/-- The record a rejection leaves in STATUS (R266): its class bit, sticky, and the latest cause. -/
def Status.rejected (st : Status) (c : Cause) : Status :=
  { st with
    errIllegal := st.errIllegal || !causeIsCfg c
    errCfg := st.errCfg || causeIsCfg c
    lastCause := causeCode c }

/-- After a successful setter (R41 bit 3). -/
def Status.setStale (st : Status) : Status := { st with stale := true }

/-- After a successful COMPUTE_OFFSET (R41 bit 3). -/
def Status.clearStale (st : Status) : Status := { st with stale := false }

/-- At the start of PROCESS: ERR_SEQ is set when STALE is (R237, R268). -/
def Status.recordSeq (st : Status) : Status := { st with errSeq := st.errSeq || st.stale }

/-- The STATUS word (R41), bit 31 first: reserved, LAST_CAUSE, reserved, N, STALE, ERR_SEQ, ERR_CFG, ERR_ILLEGAL. -/
def State.statusWord (s : State) : Word :=
  (0#16) ++ s.status.lastCause ++ (0#1) ++ BitVec.ofNat 3 s.n ++ BitVec.ofBool s.status.stale
    ++ BitVec.ofBool s.status.errSeq ++ BitVec.ofBool s.status.errCfg ++ BitVec.ofBool s.status.errIllegal

/-- The level output `err_o` (R272), a function of STATUS (log 16). -/
def State.errO (s : State) : Bool := s.status.errIllegal || s.status.errCfg || s.status.errSeq

/-- The status word of a response (R87): the cause in bits 7:0, the number of data words in bits 15:8. -/
def responseWord (cause : BitVec 8) (nd : Nat) : Word := (0#16) ++ BitVec.ofNat 8 nd ++ cause

end Sys2Proof.Machine
end

