-- ==== Sys2Proof/Config.lean ====
section
/-! DEFINITION. What an implementation fixes and no command changes (00_scope.md R9 to R12; 10_state.md R44), and the
values the spec leaves free. The free ones are opaque: nothing can be proved of a particular value of theirs. -/

namespace Sys2Proof

/-- The configuration record. The shared operations of the machine take any `Config`; the machine itself runs with
`Machine.device`, whose open members are the opaque constants below. -/
structure Config where
  /-- `Z`, half the kernel's length in samples (R10). -/
  z : Nat
  /-- `O`, the kernel table's points for one sample (R10). -/
  o : Nat
  /-- `KERNEL`, the band-limited step table; only the entries 0 to `N` are read (R12 a, 20_memory.md R65). -/
  kernel : Nat → Word
  /-- `P2F`, the pitch-to-frequency collaborator (R12 b). -/
  p2f : Word → Word
  /-- `FREQ_MAX` (R12 c). -/
  freqMax : Word
  /-- `DPH_MIN` (R9). -/
  dphMin : Word
  /-- `DPH_MAX` (R9). -/
  dphMax : Word
  /-- `SAW_DC` (R9). -/
  sawDc : Word
  /-- `PH_BOUND` (R9): a documented bound, read by no command (42_phase_accumulator.md R166). -/
  phBound : Word
  /-- The sign and the payload of the NaN that an arithmetic operation produces, by the number of its draw
  (40_numerics.md R113; log 3). -/
  freeNaN : List Nat → Bool × BitVec 22

/-- FREE VALUE (log 5; 92_eei_decisions.md D11). The entries of the kernel table: sign, biased exponent below 255,
fraction. Every finite binary32 value, and no other, has this form, so property P1 of 20_memory.md R66 holds by
construction and nothing else is known of the table. -/
opaque Config.kernelParts : Nat → Bool × Fin 255 × BitVec 23

/-- FREE VALUE (log 6; 92_eei_decisions.md D13). The pitch-to-frequency collaborator: any total function of its
argument (00_scope.md R12 b). -/
opaque Config.pitchToFreq : Word → Word

/-- FREE VALUE (log 3; 40_numerics.md R113; 93_implementation_defined.md I1). Sign and payload of the NaN produced at
the draw with this number. -/
opaque Config.producedNaN : List Nat → Bool × BitVec 22

end Sys2Proof
end

