-- ==== Sys2Proof/Machine/Float.lean ====
section
/-! DEFINITION. Binary32 arithmetic on bit patterns (40_numerics.md R110 to R118), exact integers rounded once at the end.
Every finite value is an integer multiple of 2^-149; `magnitude` is that multiple. An operation whose result is a NaN
answers its argument `q`, the bit pattern its caller drew (R113; log 3). -/

namespace Sys2Proof.Machine

/-! ## Fields and classes (R110, R111) -/

def signBit (x : Word) : Bool := x.getLsbD 31

def expField (x : Word) : Nat := (x.extractLsb' 23 8).toNat

def fracField (x : Word) : Nat := (x.extractLsb' 0 23).toNat

def isNaN (x : Word) : Bool := expField x == 255 && fracField x != 0

def isInf (x : Word) : Bool := expField x == 255 && fracField x == 0

/-- Neither a NaN nor an infinity (R115). -/
def isFinite (x : Word) : Bool := expField x != 255

/-- A quiet NaN: exponent field all ones and the top fraction bit set (R113; log 4). -/
def quietNaN (sign : Bool) (payload : BitVec 22) : Word :=
  BitVec.ofBool sign ++ (255#8) ++ (1#1) ++ payload

/-- The finite value with these fields. -/
def finiteOf (sign : Bool) (e : Fin 255) (frac : BitVec 23) : Word :=
  BitVec.ofBool sign ++ BitVec.ofNat 8 e.val ++ frac

/-- The magnitude of a finite value in units of 2^-149: the fraction alone for a subnormal, else the 24-bit significand
scaled by the exponent. -/
def magnitude (x : Word) : Nat :=
  if expField x = 0 then fracField x else (2 ^ 23 + fracField x) <<< (expField x - 1)

/-- A finite value in units of 2^-149. -/
def value (x : Word) : Int := if signBit x then -(magnitude x : Int) else magnitude x

def isZero (x : Word) : Bool := isFinite x && magnitude x == 0

/-! ## Constants -/

def posZero : Word := 0x00000000#32
def negZero : Word := 0x80000000#32
def one : Word := 0x3F800000#32
def negOne : Word := 0xBF800000#32
def two : Word := 0x40000000#32
def negTwo : Word := 0xC0000000#32
def half : Word := 0x3F000000#32

/-- The infinity or the zero of a sign, and a value with its sign changed. -/
def infOf (sign : Bool) : Word := if sign then 0xFF800000#32 else 0x7F800000#32

def zeroOf (sign : Bool) : Word := if sign then negZero else posZero

def negate (x : Word) : Word := x ^^^ 0x80000000#32

/-! ## Rounding (R112: to nearest, ties to even; gradual underflow; overflow to infinity) -/

/-- The integer nearest to `num / den`, the even one of two equally near. -/
def roundQuot (num den : Nat) : Nat :=
  let q := num / den
  let r := num % den
  if den < 2 * r ∨ (2 * r = den ∧ q % 2 = 1) then q + 1 else q

/-- The exponent of the grid on which a magnitude with integer part `q` (units of 2^-149) is rounded: 24 significant
bits are kept, and never less than one unit. -/
def gridExp (q : Nat) : Nat := q.log2 - 23

/-- The bits 30:0 of the binary32 value nearest to the magnitude `num / den` (units of 2^-149). The sum of the shifted
exponent and the rounded significand carries into the exponent field when the significand rounds up to 2^24, which also
gives infinity when the largest exponent overflows. -/
def packMagnitude (num den : Nat) : Nat :=
  let q := num / den
  if 277 ≤ q.log2 then 0x7F800000
  else (gridExp q) <<< 23 + roundQuot num (den <<< gridExp q)

def pack (sign : Bool) (num den : Nat) : Word :=
  BitVec.ofNat 32 ((if sign then 2 ^ 31 else 0) + packMagnitude num den)

/-! ## The four operations (R112, R113). They keep no flags and never fail (R114). -/

def fadd (q a b : Word) : Word :=
  if isNaN a || isNaN b then q
  else if isInf a then (if isInf b && signBit a != signBit b then q else a)
  else if isInf b then b
  else if value a + value b = 0 then zeroOf (signBit a && signBit b)
  else pack (decide (value a + value b < 0)) (value a + value b).natAbs 1

def fsub (q a b : Word) : Word :=
  if isNaN b then q else fadd q a (negate b)

def fmul (q a b : Word) : Word :=
  if isNaN a || isNaN b then q
  else if isInf a || isInf b then
    (if isZero a || isZero b then q else infOf (signBit a != signBit b))
  else pack (signBit a != signBit b) (magnitude a * magnitude b) (2 ^ 149)

def fdiv (q a b : Word) : Word :=
  if isNaN a || isNaN b then q
  else if isInf a then (if isInf b then q else infOf (signBit a != signBit b))
  else if isInf b then zeroOf (signBit a != signBit b)
  else if isZero b then (if isZero a then q else infOf (signBit a != signBit b))
  else pack (signBit a != signBit b) (magnitude a * 2 ^ 149) (magnitude b)

/-! ## Comparisons (R115): false when either side is a NaN, the two zeros equal, infinities at the ends -/

/-- An integer that orders the bit patterns of all values that are no NaN as the extended reals. -/
def orderKey (x : Word) : Int :=
  if signBit x then -((x.extractLsb' 0 31).toNat : Int) else (x.extractLsb' 0 31).toNat

def comparable (a b : Word) : Bool := !isNaN a && !isNaN b

def flt (a b : Word) : Bool := comparable a b && decide (orderKey a < orderKey b)

def fle (a b : Word) : Bool := comparable a b && decide (orderKey a ≤ orderKey b)

def feq (a b : Word) : Bool := comparable a b && decide (orderKey a = orderKey b)

def fgt (a b : Word) : Bool := flt b a

def fge (a b : Word) : Bool := fle b a

/-! ## Clamp, floor and integer conversions (R116 to R118) -/

/-- R116: total, a NaN goes to the lower bound. -/
def fclamp (x lo hi : Word) : Word :=
  if isNaN x || flt x lo then lo else if fgt x hi then hi else x

/-- R117, for a finite value: the largest integral value not above it, exact. A zero keeps its sign and a value that is
not finite answers itself; neither is reached with a non-finite operand (log 9). -/
def ffloor (x : Word) : Word :=
  if isFinite x then
    (if magnitude x = 0 then x
     else if value x / 2 ^ 149 = 0 then posZero
     else pack (decide (value x / 2 ^ 149 < 0)) ((value x / 2 ^ 149).natAbs * 2 ^ 149) 1)
  else x

/-- R117: the fractional part. -/
def ffrac (q x : Word) : Word := fsub q x (ffloor x)

/-- R118, for 0 ≤ k ≤ 2^24: the value equal to k. The block converts no negative integer. -/
def itof (k : Nat) : Word := pack false (k * 2 ^ 149) 1

/-- R118, for a finite x ≥ 0: the integer floor (log 9 for the rest). -/
def ftoiFloor (x : Word) : Nat := (value x / 2 ^ 149).toNat

end Sys2Proof.Machine
end

