-- ==== Sys2Proof/Machine/Device.lean ====
section
/-! DEFINITION. The geometry a configuration gives (00_scope.md R10), the NaN it draws (40_numerics.md R113), the kernel
table's access primitive (20_memory.md R65), the constraints on a configuration (92_eei_decisions.md, "Open parameters")
and the configuration of the modelled device. -/

namespace Sys2Proof

/-- `L = 2 Z`, the length of a ring buffer. -/
def Config.ringLen (c : Config) : Nat := 2 * c.z

/-- `N = 2 Z O`, the last index of the kernel table. -/
def Config.tableLast (c : Config) : Nat := 2 * c.z * c.o

/-- The number of a NaN draw: the operation within its site, the site, the lane, and last the command's own number
`State.draws`. No two operations of a run share one, so each draw is free of every other (log 3). -/
abbrev Draw := List Nat

/-- The quiet NaN of a draw (R113). -/
def Config.nan (c : Config) (d : Draw) : Word :=
  Machine.quietNaN (c.freeNaN d).1 (c.freeNaN d).2

/-- `RomRead(k)`: an index above `N` reads the last entry (20_memory.md R65). -/
def Config.romRead (c : Config) (k : Nat) : Word := c.kernel (min k c.tableLast)

/-- The stated constraints on the open parameters: `Z, O ≥ 1`, a finite table (P1 of 20_memory.md R66), `FREQ_MAX` finite
and positive, `0 < DPH_MIN ≤ DPH_MAX < 0.5`, `SAW_DC` finite, `1 + DPH_MAX < PH_BOUND`. -/
def Config.Constraints (c : Config) : Prop :=
  1 ≤ c.z ∧ 1 ≤ c.o ∧
  (∀ k, k ≤ c.tableLast → Machine.isFinite (c.kernel k) = true) ∧
  Machine.isFinite c.freqMax = true ∧ Machine.flt Machine.posZero c.freqMax = true ∧
  Machine.flt Machine.posZero c.dphMin = true ∧ Machine.fle c.dphMin c.dphMax = true ∧
  Machine.flt c.dphMax Machine.half = true ∧
  Machine.isFinite c.sawDc = true ∧
  (∀ q, Machine.flt (Machine.fadd q Machine.one c.dphMax) c.phBound = true)

namespace Machine

/-- The modelled device: the defaults of 00_scope.md R9 to R12 (log 7), and the opaque table, collaborator and NaN bits
of Config.lean (log 3, 5, 6). -/
def device : Config where
  z := 16
  o := 16
  kernel := fun k =>
    finiteOf (Config.kernelParts k).1 (Config.kernelParts k).2.1 (Config.kernelParts k).2.2
  p2f := Config.pitchToFreq
  freqMax := 0x47C35000#32
  dphMin := 0x358637BD#32
  dphMax := 0x3EB33333#32
  sawDc := 0xC0B65604#32
  phBound := 0x3FC00000#32
  freeNaN := Config.producedNaN

end Machine

end Sys2Proof
end

