-- ==== Sys2Proof/Machine/Operands.lean ====
section
/-! DEFINITION. The value checks of the control-rate commands (45_engine_commands.md R225, R226, R231, R233;
40_numerics.md R122), and the crossing test every edge passes through (R115; 42_phase_accumulator.md R163). -/

namespace Sys2Proof.Machine

/-- R225. -/
def countLegal (nn : Nat) : Bool := decide (nn ≤ 4)

/-- R226, for one field. -/
def divisorLegal (v : Nat) : Bool := decide (1 ≤ v) && decide (v ≤ 16)

/-- R226: all eight fields, of active and inactive lanes. -/
def divisorsLegal (dA dB : Lanes Nat) : Bool :=
  dA.toList.all divisorLegal && dB.toList.all divisorLegal

/-- R231, for one lane: false for a NaN. -/
def pulseWidthLegal (w : Word) : Bool := fle posZero w && fle w one

/-- R231: all four lanes. -/
def pulseWidthsLegal (w : Lanes Word) : Bool := w.toList.all pulseWidthLegal

/-- R233: finite and above zero. -/
def sampleTimeLegal (t : Word) : Bool := isFinite t && flt posZero t

/-- The test "crossing in (0, 1]" (R115): false for a NaN and for the infinities. -/
def crossed (x : Word) : Bool := flt posZero x && fle x one

/-- Lane i is active (10_state.md R40). -/
def active (n : Nat) (i : Fin 4) : Bool := decide (i.val < n)

/-- FSAN, the sanitiser between the pitch collaborator and the frequency register (R227). -/
def fsan (c : Config) (f : Word) : Word :=
  if isNaN f || fle f posZero then posZero
  else if fgt f c.freqMax then c.freqMax
  else f

end Sys2Proof.Machine
end

