-- ==== Sys2Proof/Machine/Ops.lean ====
section
/-! DEFINITION. The named operations of the machine: the ring cells (20_memory.md R62 to R64), the response stream
(30_encoding.md R86), the rejection of a command, which is the block's only exception (60_exceptions.md R266; there is no
return from one, R267), and the reading of a command from the stream (30_encoding.md R82). -/

namespace Sys2Proof.Machine

/-! ## Ring cells -/

/-- The cell of the sample `j` steps ahead of position `pos` (20_memory.md R64). -/
def ringIndex (c : Config) (pos j : Nat) : Nat := (pos + j) % c.ringLen

/-- `BufRead` (R62), for one lane. Every call passes an index below `L`; a read past the ring answers +0.0 (log 11). -/
def bufRead (ln : Lane) (src : Source) (a : Nat) : Word := (ln.buf.get src).getD a posZero

/-- `BufWrite` (R63), for one lane: one cell. A write past the ring writes nothing (log 11). -/
def bufWrite (ln : Lane) (src : Source) (a : Nat) (v : Word) : Lane :=
  { ln with buf := ln.buf.set src ((ln.buf.get src).set a v) }

/-- The ring-buffer space of 20_memory.md R61: what takes the place of memory. -/
abbrev Memory := Lanes (Sources (List Word))

def State.memory (s : State) : Memory := s.lanes.map Lane.buf

/-- Every ring has exactly `l` cells: the one form in which the ring-buffer space is held, so that equal contents are
equal data (log 11). -/
abbrev Memory.wf (l : Nat) (m : Memory) : Prop :=
  ∀ r ∈ m.toList, r.m.length = l ∧ r.a.length = l ∧ r.b.length = l

/-! ## Responses and rejection -/

/-- One response: a status word and its data words (R86, R87). -/
def State.respond (s : State) (cause : BitVec 8) (data : List Word) : State :=
  { s with rsp := s.rsp ++ responseWord cause data.length :: data }

/-- The response `0x00000000` of a command that has executed and returns no data. -/
def State.done (s : State) : State := s.respond 0#8 []

/-- TAKING THE EXCEPTION: the rejection of a command (R266). STATUS records the class and the cause, the response is
`0x000000cc`, nothing else changes; control goes nowhere, and the next command is read as usual. -/
def State.reject (s : State) (c : Cause) : State :=
  { s with status := s.status.rejected c }.respond (causeCode c) []

/-! ## The command stream -/

/-- The words the executor sees: those of the command being received, then those still on the stream. -/
def State.stream (s : State) : List Word := s.frame ++ s.cmd

/-- A whole command has been read: the framing state is "waiting for a header word", `rest` is still on the stream. -/
def State.consumed (s : State) (rest : List Word) : State := { s with frame := [], cmd := rest }

/-- The stream ends inside a command, or is empty: its words are read and the executor waits for more (R82). -/
def State.await (s : State) : State := { s with frame := s.stream, cmd := [] }

end Sys2Proof.Machine
end

