-- ==== Sys2Proof/Machine/Kernel.lean ====
section
/-! DEFINITION. The Correction Kernel Buffer (41_kernel_buffer.md): KINTERP, KB_INSERT, KB_PROCESS. -/

namespace Sys2Proof.Machine

/-- KINTERP (R144): linear interpolation in the kernel table. -/
def kinterp (c : Config) (d : Draw) (x : Word) : Word :=
  let k := ftoiFloor x
  let xf := fsub (c.nan (0 :: d)) x (itof k)
  let y0 := c.romRead k
  let y1 := c.romRead (k + 1)
  fadd (c.nan (1 :: d)) y0 (fmul (c.nan (2 :: d)) (fsub (c.nan (3 :: d)) y1 y0) xf)

/-- What tap `j` of an insertion at offset `p` with height `h` adds to its cell (R143): `h` times the residual. -/
def kbTap (c : Config) (d : Draw) (p h : Word) (j : Nat) : Word :=
  let x := fmul (c.nan (4 :: d)) (fsub (c.nan (5 :: d)) (itof j) p) (itof c.o)
  let r := fadd (c.nan (6 :: d)) negOne (kinterp c d x)
  fmul (c.nan (7 :: d)) h r

/-- One turn of the loop of R143: tap `j` is added into cell `(pos + j) mod L`. -/
def kbInsertTap (c : Config) (d : Draw) (pos : Nat) (src : Source) (p h : Word) (ln : Lane) (j : Nat) : Lane :=
  let a := ringIndex c pos j
  bufWrite ln src a (fadd (c.nan (8 :: j :: d)) (bufRead ln src a) (kbTap c (j :: d) p h j))

/-- KB_INSERT (R143), for one lane: the taps 0 to L - 1 in order. Inside the engine the offset is always legal (R149). -/
def kbInsert (c : Config) (d : Draw) (pos : Nat) (src : Source) (p h : Word) (ln : Lane) : Lane :=
  (List.range c.ringLen).foldl (kbInsertTap c d pos src p h) ln

/-- The operand range of KB_INSERT: `-1 ≤ p ≤ 0`, false for a NaN (R142). -/
def offsetLegal (p : Word) : Bool := fle negOne p && fle p posZero

/-- KB_INSERT exposed on its own: outside its precondition it has no meaning and is refused, `none` (R149; log 12). -/
def kbInsertAlone (c : Config) (d : Draw) (pos : Nat) (src : Source) (p h : Word) (ln : Lane) : Option Lane :=
  if offsetLegal p then some (kbInsert c d pos src p h ln) else none

/-- The insertion every edge makes: at the offset of the crossing `x`, which its caller has tested (R142). -/
def insertAt (c : Config) (d : Draw) (pos : Nat) (src : Source) (x h : Word) (ln : Lane) : Lane :=
  kbInsert c (0 :: d) pos src (fsub (c.nan (1 :: d)) x one) h ln

/-- KB_PROCESS (R146): the current cell of every lane, active or not; the cells read become +0.0 and the position
advances by one. -/
def kbProcess (c : Config) (src : Source) (s : State) : Lanes Word × State :=
  let p := s.pos.get src
  (s.lanes.map fun ln => bufRead ln src p,
   { s with
     lanes := s.lanes.map fun ln => bufWrite ln src p posZero
     pos := s.pos.set src (ringIndex c p 1) })

end Sys2Proof.Machine
end

