-- ==== Sys2Proof/Machine/Wave.lean ====
section
/-! DEFINITION. The Waveform Synthesizer, the edge detection and the DC-offset compensation (44_waveform_synth.md). -/

namespace Sys2Proof.Machine

/-- WS_SAW (R200). -/
def wsSaw (c : Config) (d : Draw) (ph k : Word) : Word :=
  fadd (c.nan (0 :: d)) (fsub (c.nan (1 :: d)) (fmul (c.nan (2 :: d)) two ph) one) k

/-- WS_PULSE (R201): the comparison is strict. -/
def wsPulse (c : Config) (d : Draw) (ph k w : Word) : Word :=
  fadd (c.nan (0 :: d)) (if fgt ph w then one else negOne) k

/-- WS_OUT (R202): the selected waveform, then the compensation (90_conflicts.md C7). -/
def wsOut (c : Config) (d : Draw) (isSaw : Bool) (ph k w dc : Word) : Word :=
  fadd (c.nan (3 :: d)) (if isSaw then wsSaw c d ph k else wsPulse c d ph k w) dc

/-- The pulse crossing of WS_RISE (R204). -/
def pulseCross (c : Config) (d : Draw) (pw phi dl : Word) : Word :=
  fdiv (c.nan (0 :: d)) (fsub (c.nan (1 :: d)) (fadd (c.nan (2 :: d)) pw dl) phi) dl

/-- WS_RISE (R204): the rising edge of a pulse source, with no write for a saw source. -/
def wsRise (c : Config) (d : Draw) (pos : Nat) (src : Source) (phi dl : Word) (isSaw : Bool) (ln : Lane) : Lane :=
  if !isSaw && crossed (pulseCross c (0 :: d) ln.pw phi dl) then
    insertAt c (1 :: d) pos src (pulseCross c (0 :: d) ln.pw phi dl) (fmul (c.nan (2 :: d)) two ln.syncDir) ln
  else ln

/-- WS_FALL_MAIN (R205): the edge at a main wrap, whichever waveform the lane has. -/
def wsFallMain (c : Config) (d : Draw) (pos : Nat) (wc : Word) (ln : Lane) : Lane :=
  insertAt c (0 :: d) pos .m wc (fmul (c.nan (1 :: d)) negTwo ln.syncDir) ln

/-- The compensation of one output (R206, R207): `SAW_DC · T · f` from left to right for a saw, `2 pw - 1` for a pulse. -/
def dcOffset (c : Config) (d : Draw) (isSaw : Bool) (t f pw : Word) : Word :=
  if isSaw then fmul (c.nan (0 :: d)) (fmul (c.nan (1 :: d)) c.sawDc t) f
  else fsub (c.nan (2 :: d)) (fmul (c.nan (3 :: d)) two pw) one

end Sys2Proof.Machine
end

