-- ==== Sys2Proof/Machine/Control.lean ====
section
/-! DEFINITION. The control-rate commands and NOP (45_engine_commands.md sections 1 to 5): for each, what it does to a
lane, what it does to the engine under a configuration, and its meaning on the device. -/

namespace Sys2Proof.Machine

/-! ## NOP (R221) -/

def execNop (s : State) : Result := .next s.done

/-! ## SET_WAVEFORM (R222) -/

def setWaveform (mainMask subMask : BitVec 4) (s : State) : State :=
  { s with
    lanes := Lanes.ofFn fun i =>
      { s.lane i with mainIsSaw := mainMask.getLsbD i.val, subIsSaw := subMask.getLsbD i.val }
    status := s.status.setStale }

def execSetWaveform (mainMask subMask : BitVec 4) (s : State) : Result :=
  .next (setWaveform mainMask subMask s).done

/-! ## SETUP_SUB (R224 to R229) -/

/-- The divisors and the counters of a lane, active or not (R186, R224). -/
def setDivisors (dA dB : Nat) (ln : Lane) : Lane :=
  { ln with
    div := ⟨dA, dB⟩
    cnt := ⟨min ln.cnt.a dA, min ln.cnt.b dB⟩ }

/-- An active lane's frequencies, from the sanitised result of the collaborator (R224, R227). -/
def setFrequencies (c : Config) (d : Draw) (pitch : Word) (dA dB : Nat) (ln : Lane) : Lane :=
  let f := fsan c (c.p2f pitch)
  { ln with
    freq := f
    subFreq := ⟨fdiv (c.nan (0 :: d)) f (itof dA), fdiv (c.nan (1 :: d)) f (itof dB)⟩ }

/-- An inactive lane: frequencies, phases and outputs are +0.0 (R228). -/
def silence (ln : Lane) : Lane :=
  { ln with
    freq := posZero
    subFreq := Subs.all posZero
    phase := posZero
    subPhase := Subs.all posZero
    outMain := posZero
    outSub := Subs.all posZero }

def setupLane (c : Config) (d : Draw) (isActive : Bool) (pitch : Word) (dA dB : Nat) (ln : Lane) : Lane :=
  if isActive then setFrequencies c d pitch dA dB (setDivisors dA dB ln)
  else silence (setDivisors dA dB ln)

/-- The effect of SETUP_SUB once its checks have passed (R224). -/
def setupState (c : Config) (nn : Nat) (pitch : Lanes Word) (dA dB : Lanes Nat) (s : State) : State :=
  { s with
    lanes := Lanes.ofFn fun i =>
      setupLane c [i.val, s.draws] (active nn i) (pitch.get i) (dA.get i) (dB.get i) (s.lane i)
    n := nn
    status := s.status.setStale
    draws := s.draws + 1 }

/-- SETUP_SUB with its checks, the count before the divisors (R225, R226, R264). -/
def setupSub (c : Config) (nn : Nat) (pitch : Lanes Word) (dA dB : Lanes Nat) (s : State) : State :=
  if !countLegal nn then s.reject .cfgChannels
  else if !divisorsLegal dA dB then s.reject .cfgDivisor
  else (setupState c nn pitch dA dB s).done

def execSetupSub (nn : Nat) (pitch : Lanes Word) (dA dB : Lanes Nat) (s : State) : Result :=
  .next (setupSub device nn pitch dA dB s)

/-! ## SET_PW (R230, R231) -/

/-- The pulse widths are stored bit for bit. -/
def setPulseWidths (w : Lanes Word) (s : State) : State :=
  { s with
    lanes := Lanes.ofFn fun i => { s.lane i with pw := w.get i }
    status := s.status.setStale }

def execSetPw (w : Lanes Word) (s : State) : Result :=
  if pulseWidthsLegal w then .next (setPulseWidths w s).done
  else .next (s.reject .cfgPulseWidth)

/-! ## COMPUTE_OFFSET (R232, R233) -/

/-- The compensations of a lane, active or not (R206 to R208). -/
def offsetLane (c : Config) (d : Draw) (t : Word) (ln : Lane) : Lane :=
  { ln with
    dcMain := dcOffset c (0 :: d) ln.mainIsSaw t ln.freq ln.pw
    dcSub := ⟨dcOffset c (1 :: d) ln.subIsSaw t ln.subFreq.a ln.pw,
              dcOffset c (2 :: d) ln.subIsSaw t ln.subFreq.b ln.pw⟩ }

def offsetState (c : Config) (t : Word) (s : State) : State :=
  { s with
    lanes := Lanes.ofFn fun i => offsetLane c [i.val, s.draws] t (s.lane i)
    status := s.status.clearStale
    draws := s.draws + 1 }

def computeOffset (c : Config) (t : Word) (s : State) : State :=
  if sampleTimeLegal t then (offsetState c t s).done else s.reject .cfgSampleTime

def execComputeOffset (t : Word) (s : State) : Result := .next (computeOffset device t s)

end Sys2Proof.Machine
end

