-- ==== Sys2Proof/Machine/Phase.lean ====
section
/-! DEFINITION. The Phase Accumulator (42_phase_accumulator.md). -/

namespace Sys2Proof.Machine

/-- The increment of PA_ADVANCE (R160), "deltaPhase": clamped, so finite whatever the frequency and the time are. -/
def increment (c : Config) (d : Draw) (f t : Word) : Word :=
  fclamp (fmul (c.nan (0 :: d)) f t) c.dphMin c.dphMax

/-- PA_ADVANCE (R160): the increment and the unwrapped phase after the sample. -/
def paAdvance (c : Config) (d : Draw) (ph f t : Word) : Word × Word :=
  let dl := increment c d f t
  (dl, fadd (c.nan (1 :: d)) ph dl)

/-- PA_CROSS1 (R162): the crossing of 1, measured from the previous sample instant. -/
def paCross1 (c : Config) (d : Draw) (phi dl : Word) : Word :=
  fdiv (c.nan (0 :: d)) (fsub (c.nan (1 :: d)) one (fsub (c.nan (2 :: d)) phi dl)) dl

/-- PA_REDUCE (R164): reaching 1 counts as exceeding it (90_conflicts.md C2). -/
def paReduce (c : Config) (d : Draw) (phi : Word) : Word :=
  if fge phi one then fsub (c.nan d) phi one else phi

end Sys2Proof.Machine
end

