-- ==== Sys2Proof/Machine/Divider.lean ====
section
/-! DEFINITION. The Sub-harmonic Divider (43_subharmonic_divider.md): the tick on a main wrap. SD_ADVANCE (R182) is
`paAdvance` on the sub's phase and frequency; the counter update of SETUP_SUB (R186) is in Control.lean. -/

namespace Sys2Proof.Machine

/-- The sub-phase of a resync (R183, R187): the fractional part of the reduced main phase, over the divisor. -/
def resync (c : Config) (d : Draw) (ph : Word) (dv : Nat) : Word :=
  fdiv (c.nan (0 :: d)) (ffrac (c.nan (1 :: d)) ph) (itof dv)

/-- SD_TICK (R183): the lane after the tick, and the sub-phase that is to be reduced and stored. The counter is at least
1 in every reachable state (R181); the Nat subtraction reads a counter of 0 as expired (log 10). -/
def sdTick (c : Config) (d : Draw) (pos : Nat) (k : Sub) (wc ph sigma : Word) (ln : Lane) : Lane × Word :=
  let left := ln.cnt.get k - 1
  if left = 0 then
    (insertAt c (0 :: d) pos k.source wc (fmul (c.nan (1 :: d)) negTwo ln.syncDir)
        { ln with cnt := ln.cnt.set k (ln.div.get k) },
     resync c (2 :: d) ph (ln.div.get k))
  else
    ({ ln with cnt := ln.cnt.set k left }, sigma)

end Sys2Proof.Machine
end

