-- ==== Sys2Proof/Machine/Process.lean ====
section
/-! DEFINITION. PROCESS (45_engine_commands.md R235 to R242): one sample. The steps are those of R240, in its order. -/

namespace Sys2Proof.Machine

/-- Step 5 for one sub: its rising edge on the advanced phase, its tick when the main phase wrapped, its reduction. -/
def processSub (c : Config) (d : Draw) (pos : Nat) (k : Sub) (wrapped : Bool) (wc ph dl sigma : Word) (ln : Lane) :
    Lane :=
  let ln1 := wsRise c (0 :: d) pos k.source sigma dl ln.subIsSaw ln
  let r := if wrapped then sdTick c (1 :: d) pos k wc ph sigma ln1 else (ln1, sigma)
  { r.1 with subPhase := r.1.subPhase.set k (paReduce c (2 :: d) r.2) }

/-- Steps 2 to 4: the main rising edge, the wrap edge, the reduced main phase. -/
def processMain (c : Config) (d : Draw) (pos : Nat) (dl phi : Word) (ln : Lane) : Lane :=
  let ln1 := wsRise c (0 :: d) pos .m phi dl ln.mainIsSaw ln
  let wc := paCross1 c (1 :: d) phi dl
  let ln2 := if crossed wc then wsFallMain c (2 :: d) pos wc ln1 else ln1
  { ln2 with phase := paReduce c (3 :: d) phi }

/-- Steps 1 to 5 for an active lane. All three phases are advanced before anything is stored. -/
def processLane (c : Config) (d : Draw) (pos : Sources Nat) (t : Word) (ln : Lane) : Lane :=
  let main := paAdvance c (0 :: d) ln.phase ln.freq t
  let subA := paAdvance c (1 :: d) ln.subPhase.a ln.subFreq.a t
  let subB := paAdvance c (2 :: d) ln.subPhase.b ln.subFreq.b t
  let wc := paCross1 c (1 :: 3 :: d) main.2 main.1
  let ln1 := processMain c (3 :: d) pos.m main.1 main.2 ln
  let ln2 := processSub c (4 :: d) pos.a .a (crossed wc) wc ln1.phase subA.1 subA.2 ln1
  processSub c (5 :: d) pos.b .b (crossed wc) wc ln1.phase subB.1 subB.2 ln2

/-- Steps 1 to 5: the active lanes only (R241). -/
def advanceLanes (c : Config) (t : Word) (s : State) : State :=
  { s with
    lanes := Lanes.ofFn fun i =>
      if active s.n i then processLane c [i.val, s.draws] s.pos t (s.lane i) else s.lane i }

/-- Step 7 for one lane: the three samples, or +0.0 for an inactive lane (R202, R241). -/
def outputLane (c : Config) (d : Draw) (isActive : Bool) (kM kA kB : Word) (ln : Lane) : Lane :=
  if isActive then
    { ln with
      outMain := wsOut c (6 :: d) ln.mainIsSaw ln.phase kM ln.pw ln.dcMain
      outSub := ⟨wsOut c (7 :: d) ln.subIsSaw ln.subPhase.a kA ln.pw ln.dcSub.a,
                 wsOut c (8 :: d) ln.subIsSaw ln.subPhase.b kB ln.pw ln.dcSub.b⟩ }
  else { ln with outMain := posZero, outSub := Subs.all posZero }

def writeOutputs (c : Config) (kM kA kB : Lanes Word) (s : State) : State :=
  { s with
    lanes := Lanes.ofFn fun i =>
      outputLane c [i.val, s.draws] (active s.n i) (kM.get i) (kA.get i) (kB.get i) (s.lane i) }

/-- Steps 6 and 7: each buffer is read out once, all lanes, then the outputs. -/
def readOut (c : Config) (s : State) : State :=
  let m := kbProcess c .m s
  let a := kbProcess c .a m.2
  let b := kbProcess c .b a.2
  writeOutputs c m.1 a.1 b.1 b.2

/-- The effect of PROCESS (R240). -/
def processState (c : Config) (t : Word) (s : State) : State :=
  let s1 := readOut c (advanceLanes c t { s with status := s.status.recordSeq })
  { s1 with draws := s.draws + 1 }

/-- PROCESS on the device. The four sync values are read and ignored (R236). -/
def execProcess (t : Word) (_y : Lanes Word) (s : State) : Result := .next (processState device t s).done

end Sys2Proof.Machine
end

