-- ==== Sys2Proof/Machine/Read.lean ====
section
/-! DEFINITION. The read commands (45_engine_commands.md section 7). They write no state but the response stream. -/

namespace Sys2Proof.Machine

/-- The four main output samples, lane 0 first. -/
def mainSamples (s : State) : List Word := (s.lanes.map fun ln => ln.outMain).toList

/-- The four output samples of a sub, lane 0 first. -/
def subSamples (k : Sub) (s : State) : List Word := (s.lanes.map fun ln => ln.outSub.get k).toList

/-- READ_MAIN (R245). -/
def execReadMain (s : State) : Result := .next (s.respond 0#8 (mainSamples s))

/-- READ_SUB (R246). -/
def execReadSub (k : Sub) (s : State) : Result := .next (s.respond 0#8 (subSamples k s))

/-- READ_STATUS (R247): reading clears nothing. -/
def execReadStatus (s : State) : Result := .next (s.respond 0#8 [s.statusWord])

end Sys2Proof.Machine
end

