-- ==== Sys2Proof/Machine/Dispatch.lean ====
section
/-! DEFINITION. The meaning of each command. -/

namespace Sys2Proof.Machine

def exec (i : Instr) (s : State) : Host.Outcome State Fault Refusal :=
  match i with
  | .nop => Sys2Proof.Machine.execNop s
  | .setWaveform mainMask subMask => Sys2Proof.Machine.execSetWaveform mainMask subMask s
  | .setupSub nn pitch dA dB => Sys2Proof.Machine.execSetupSub nn pitch dA dB s
  | .setPw w => Sys2Proof.Machine.execSetPw w s
  | .computeOffset t => Sys2Proof.Machine.execComputeOffset t s
  | .process t y => Sys2Proof.Machine.execProcess t y s
  | .readMain => Sys2Proof.Machine.execReadMain s
  | .readSub k => Sys2Proof.Machine.execReadSub k s
  | .readStatus => Sys2Proof.Machine.execReadStatus s

end Sys2Proof.Machine
end

