-- ==== Sys2Proof/Machine/Step.lean ====
section
/-! DEFINITION. One step: the next command of the stream (30_encoding.md R82, R83; 20_memory.md R72). -/

namespace Sys2Proof.Machine

/-- One command is one step. A stream that ends inside a command, or is empty, leaves the executor waiting; a command that
fails a decode check is rejected; any other is executed. -/
def step (s : State) : Host.Outcome State Fault Refusal :=
  match decode s.stream with
  | none => .next s.await
  | some (.error c, rest) => .next ((s.consumed rest).reject c)
  | some (.ok i, rest) => exec i (s.consumed rest)

/-- `s` with the words of one command put before the rest of its stream, at a command boundary (log 1). -/
def State.withFetchWord (s : State) (nbits w : Nat) : State :=
  { s with frame := [], cmd := tableWords nbits w ++ s.cmd }

end Sys2Proof.Machine
end

