-- ==== Sys2Proof/Safety.lean ====
section
/-! DEFINITION. What holds between commands (10_state.md R46) and what a run that keeps the rule of use is
(70_reset_and_hazards.md R300), in the terms the statements use. -/

namespace Sys2Proof.Machine

/-- A phase between commands: in [0, 1), so no NaN (R21, R22). -/
def unitPhase (x : Word) : Bool := fle posZero x && flt x one

/-- Finite and not negative (R46 d). -/
def finiteNonneg (x : Word) : Bool := isFinite x && fle posZero x

/-- R46 (b): the counters and divisors. -/
def Lane.CountersOk (ln : Lane) : Prop :=
  ∀ k, 1 ≤ ln.cnt.get k ∧ ln.cnt.get k ≤ ln.div.get k ∧ ln.div.get k ≤ 16

/-- R23 and R46 (d): the frequencies, the main one at most `FREQ_MAX`. -/
def Lane.FrequenciesOk (ln : Lane) : Prop :=
  finiteNonneg ln.freq = true ∧ fle ln.freq device.freqMax = true ∧ ∀ k, finiteNonneg (ln.subFreq.get k) = true

/-- R46 (e): the phases. -/
def Lane.PhasesOk (ln : Lane) : Prop :=
  unitPhase ln.phase = true ∧ ∀ k, unitPhase (ln.subPhase.get k) = true

/-- R46 (d), (e), (f) for a lane that is not active: frequencies, phases and outputs are +0.0. -/
def Lane.Silent (ln : Lane) : Prop :=
  ln.freq = posZero ∧ ln.phase = posZero ∧ ln.outMain = posZero ∧
  ∀ k, ln.subFreq.get k = posZero ∧ ln.subPhase.get k = posZero ∧ ln.outSub.get k = posZero

/-- The invariants between commands: those of R46, the form of the ring-buffer space (R34), the framing state
(30_encoding.md R82) and the range of LAST_CAUSE (10_state.md R41, 60_exceptions.md R261). -/
structure State.Inv (s : State) : Prop where
  /-- R46 (a). -/
  count : s.n ≤ 4
  /-- R46 (b). -/
  counters : ∀ i, (s.lane i).CountersOk
  /-- R46 (c). -/
  pulseWidths : ∀ i, pulseWidthLegal (s.lane i).pw = true
  /-- R46 (d). -/
  frequencies : ∀ i, (s.lane i).FrequenciesOk
  /-- R46 (e). -/
  phases : ∀ i, (s.lane i).PhasesOk
  /-- R46 (d), (e), (f). -/
  inactive : ∀ i : Fin 4, s.n ≤ i.val → (s.lane i).Silent
  /-- R46 (g). -/
  positions : s.pos.a = s.pos.m ∧ s.pos.b = s.pos.m ∧ s.pos.m < 32
  /-- R46 (h). -/
  sync : ∀ i, (s.lane i).syncDir = one
  /-- R34: every ring has `L` cells. -/
  rings : s.memory.wf 32
  /-- R82: the words of the command being received are not yet a whole command. -/
  framing : frameCommand s.frame = none
  /-- R41, R261: LAST_CAUSE is a code of the table, and 0 exactly when nothing has been rejected. -/
  causes : s.status.lastCause.toNat ≤ 7 ∧
    (s.status.lastCause = 0#8 ↔ s.status.errIllegal = false ∧ s.status.errCfg = false)

/-- The next command of the stream is a PROCESS that will execute. -/
def nextIsProcess (s : State) : Bool :=
  match decode s.stream with
  | some (.ok (.process _ _), _) => true
  | _ => false

/-- The rule of use (R300): the compensation is up to date whenever a PROCESS starts. -/
def State.RuleOfUse (s : State) : Prop := nextIsProcess s = true → s.status.stale = false

/-- `t` is reached from `s` by steps, each from a state that keeps the rule of use. -/
inductive SafeRun : State → State → Prop where
  | refl (s : State) : SafeRun s s
  | step {s t u : State} (rule : s.RuleOfUse) (next : step s = .next t) (rest : SafeRun t u) : SafeRun s u

/-- The same number: the same bits, or two NaNs, whose bits are free (40_numerics.md R113). -/
def sameNumber (x y : Word) : Prop := x = y ∨ (isNaN x = true ∧ isNaN y = true)

end Sys2Proof.Machine
end

