-- ==== Sys2Proof/Certificates/Slice0/Obligations.lean ====
section
/-! DEFINITION. The statements for the provers. A state `s` ranges over every state, reached or not, unless a premise says
otherwise; `device` is the modelled configuration, its kernel table, its pitch collaborator and its NaN bits opaque, so a
statement holds for each of them. Cited rules are those of spec/. -/

open Sys2Proof Sys2Proof.Machine

/-! ## Reset -/

/-- R45: the table of reset values, every row of it, for the default geometry of R10 (log 7). -/
def Obligations.ResetStateHoldsTheResetValues : Prop :=
  (∀ i : Fin 4,
    (State.reset.lane i).phase = 0x00000000#32 ∧
    (∀ k, (State.reset.lane i).subPhase.get k = 0x00000000#32) ∧
    (State.reset.lane i).freq = 0x00000000#32 ∧
    (∀ k, (State.reset.lane i).subFreq.get k = 0x00000000#32) ∧
    (∀ k, (State.reset.lane i).div.get k = 1) ∧
    (∀ k, (State.reset.lane i).cnt.get k = 1) ∧
    (State.reset.lane i).pw = 0x3F000000#32 ∧
    (State.reset.lane i).mainIsSaw = true ∧
    (State.reset.lane i).subIsSaw = true ∧
    (State.reset.lane i).dcMain = 0x00000000#32 ∧
    (∀ k, (State.reset.lane i).dcSub.get k = 0x00000000#32) ∧
    (State.reset.lane i).outMain = 0x00000000#32 ∧
    (∀ k, (State.reset.lane i).outSub.get k = 0x00000000#32) ∧
    (State.reset.lane i).syncDir = 0x3F800000#32 ∧
    (∀ src, (State.reset.lane i).buf.get src = List.replicate 32 0x00000000#32)) ∧
  (∀ src, State.reset.pos.get src = 0) ∧
  State.reset.n = 0 ∧
  State.reset.statusWord = 0x00000000#32

/-- The invariants of R46 hold at reset, with the framing state of R290, an empty response stream and `err_o` low. -/
def Obligations.ResetMeetsTheInvariants : Prop :=
  State.reset.Inv ∧ State.reset.frame = [] ∧ State.reset.rsp = [] ∧ State.reset.errO = false

/-! ## Steps and invariants -/

/-- R46, for every state and whatever the stream holds: an accepted command, a rejected one and a wait keep all the
invariants. -/
def Obligations.EveryStepKeepsTheInvariants : Prop :=
  ∀ s t : State, s.Inv → step s = .next t → t.Inv

/-- The ring-buffer space keeps its one form, from every state that has it (R34). -/
def Obligations.EveryStepKeepsTheRingForm : Prop :=
  ∀ s t : State, s.memory.wf 32 → step s = .next t → t.memory.wf 32

/-- R281: the block never halts itself; no step and no command ends in a fault or a refusal. -/
def Obligations.NothingStopsTheMachine : Prop :=
  (∀ s : State, ∃ t, step s = .next t) ∧ ∀ (i : Instr) (s : State), ∃ t, exec i s = .next t

/-- A whole command whose words decode to `i` is run as `i`, after its words have been taken off the stream and the
framing state has become "waiting for a header word". That the stream stands in the state is the model's form (log 1, 2). -/
def Obligations.StepRunsTheDecodedCommand : Prop :=
  ∀ (s : State) (i : Instr) (rest : List Word), i.wf → s.frame ++ s.cmd = encode i ++ rest →
    step s = exec i { s with frame := [], cmd := rest }

/-- R82: framing looks at the count field alone. A whole command, whatever it is, is taken off the stream with exactly its
`NW` words; a stream that ends inside a command has no effect but that its words are read. That the words of an unfinished
command move whole into `frame`, and that an empty stream steps to the same state, is the model's form (log 2, with log 1). -/
def Obligations.FramingFollowsTheCountAlone : Prop :=
  (∀ (s : State) (h : Word) (ops rest : List Word), s.frame ++ s.cmd = h :: (ops ++ rest) → ops.length = hdrNW h →
    ∃ t, step s = .next t ∧ t.frame = [] ∧ t.cmd = rest) ∧
  (∀ s : State, (s.frame ++ s.cmd = [] ∨ ∃ h tail, s.frame ++ s.cmd = h :: tail ∧ tail.length < hdrNW h) →
    step s = .next { s with frame := s.frame ++ s.cmd, cmd := [] })

/-- A whole command that fails a decode check: ERR_ILLEGAL is set, LAST_CAUSE and the response hold the cause, its words
are consumed, and nothing else changes (R82, R266). -/
def Obligations.StepRejectsAMalformedCommand : Prop :=
  ∀ (s : State) (h : Word) (ops rest : List Word) (c : Cause), s.frame ++ s.cmd = h :: (ops ++ rest) →
    ops.length = hdrNW h → decodeCommand h ops = .error c →
    (c = .illegalOpcode ∨ c = .badLength ∨ c = .reservedNonzero) ∧
    step s = .next { s with
      frame := []
      cmd := rest
      status := { s.status with errIllegal := true, lastCause := causeCode c }
      rsp := s.rsp ++ [(causeCode c).setWidth 32] }

/-! ## Encoding -/

/-- Decode and encode agree: every well-formed command, every operand at every value its field admits, in front of any
words. -/
def Obligations.DecodeOfEncodeIsTheCommand : Prop :=
  ∀ (i : Instr) (rest : List Word), i.wf → decode (encode i ++ rest) = some (.ok i, rest)

/-- The other direction: the words of an accepted command are its one encoding, and its operands fit their fields. -/
def Obligations.AcceptedWordsAreTheEncoding : Prop :=
  ∀ (ws rest : List Word) (i : Instr), decode ws = some (.ok i, rest) → i.wf ∧ ws = encode i ++ rest

/-- R88: a header with its announced words is accepted exactly when `header & mask == match` for a row of the opcode map,
the row is the command's, and no header selects two rows. -/
def Obligations.AHeaderSelectsItsRow : Prop :=
  (∀ (h : Word) (ops : List Word), ops.length = hdrNW h →
    ((∃ i, decodeCommand h ops = .ok i) ↔ ∃ o, h &&& headerMask o = headerMatch o)) ∧
  (∀ (h : Word) (ops : List Word) (i : Instr), decodeCommand h ops = .ok i →
    h &&& headerMask i.opcode = headerMatch i.opcode) ∧
  (∀ (h : Word) (o o' : Opcode), h &&& headerMask o = headerMatch o → h &&& headerMask o' = headerMatch o' → o = o')

/-- R83 (1) to (3): which cause a malformed command has, the first failing check winning. -/
def Obligations.DecodeChecksRunInOrder : Prop :=
  ∀ (h : Word) (ops : List Word), ops.length = hdrNW h →
    (decodeCommand h ops = .error .illegalOpcode ↔ 8 < (hdrOpc h).toNat) ∧
    ∀ o, opcodeByte o = hdrOpc h →
      (decodeCommand h ops = .error .badLength ↔ hdrNW h ≠ operandWords o) ∧
      (decodeCommand h ops = .error .reservedNonzero ↔
        hdrNW h = operandWords o ∧ (hdrRsv h ≠ 0#8 ∨ hdrImm h &&& unusedImm o ≠ 0#8))

/-- Words of the spec's own examples decode to the commands they stand for (R89 to R98, R229 e, R230, R232). -/
def Obligations.ExampleWordsDecode : Prop :=
  decode [0x00000000#32] = some (.ok .nop, []) ∧
  decode [0x010000F3#32] = some (.ok (.setWaveform 0x3#4 0xF#4), []) ∧
  decode [0x02060001#32, 0#32, 0#32, 0#32, 0#32, 0x01010102#32, 0x01010103#32]
    = some (.ok (.setupSub 1 ⟨0#32, 0#32, 0#32, 0#32⟩ ⟨2, 1, 1, 1⟩ ⟨3, 1, 1, 1⟩), []) ∧
  decode [0x03040000#32, 0x3F000000#32, 0x3E800000#32, 0x3F000000#32, 0x3F000000#32]
    = some (.ok (.setPw ⟨0x3F000000#32, 0x3E800000#32, 0x3F000000#32, 0x3F000000#32⟩), []) ∧
  decode [0x04010000#32, 0x3A800000#32] = some (.ok (.computeOffset 0x3A800000#32), []) ∧
  decode [0x05050000#32, 0x3A800000#32, 0#32, 0#32, 0#32, 0#32]
    = some (.ok (.process 0x3A800000#32 ⟨0#32, 0#32, 0#32, 0#32⟩), []) ∧
  decode [0x06000000#32] = some (.ok .readMain, []) ∧
  decode [0x07000001#32] = some (.ok (.readSub .b), []) ∧
  decode [0x08000000#32] = some (.ok .readStatus, [])

/-! ## Responses, rejection and STATUS -/

/-- R86, R87: a command produces exactly one response, appended to the stream: a status word with a cause 0 to 7 and the
number of its data words, which is 4 for an executed READ_MAIN or READ_SUB, 1 for an executed READ_STATUS, else 0. -/
def Obligations.EachCommandGivesOneResponse : Prop :=
  ∀ (i : Instr) (s : State), ∃ (t : State) (cause : BitVec 8) (data : List Word),
    exec i s = .next t ∧
    t.rsp = s.rsp ++ (BitVec.ofNat 32 (cause.toNat + 256 * data.length)) :: data ∧
    cause.toNat ≤ 7 ∧
    data.length =
      match i with
      | .readMain => 4
      | .readSub _ => 4
      | .readStatus => 1
      | _ => 0

/-- R266: rejecting a command sets its class bit, records its cause and answers `0x000000cc`; nothing else changes. The
codes and the classes are those of R261. -/
def Obligations.RejectionRecordsTheCauseAlone : Prop :=
  ∀ (s : State) (c : Cause) (code : Nat) (cfg : Bool),
    (c, code, cfg) ∈ [(Cause.illegalOpcode, 1, false), (.badLength, 2, false), (.reservedNonzero, 3, false),
      (.cfgChannels, 4, true), (.cfgDivisor, 5, true), (.cfgPulseWidth, 6, true), (.cfgSampleTime, 7, true)] →
    s.reject c = { s with
      status := { s.status with
        errIllegal := s.status.errIllegal || !cfg
        errCfg := s.status.errCfg || cfg
        lastCause := BitVec.ofNat 8 code }
      rsp := s.rsp ++ [BitVec.ofNat 32 code] }

/-- R270: no step clears a sticky bit, and none brings LAST_CAUSE back to 0. -/
def Obligations.StickyBitsAreClearedOnlyByReset : Prop :=
  ∀ s t : State, step s = .next t →
    (s.status.errIllegal = true → t.status.errIllegal = true) ∧
    (s.status.errCfg = true → t.status.errCfg = true) ∧
    (s.status.errSeq = true → t.status.errSeq = true) ∧
    (s.status.lastCause ≠ 0#8 → t.status.lastCause ≠ 0#8)

/-- R267: a command that executes, one whose response has cause 0, changes neither LAST_CAUSE nor the two error bits of
rejections. -/
def Obligations.ExecutedCommandsKeepTheErrorRecord : Prop :=
  ∀ (i : Instr) (s t : State) (w : Word) (data : List Word), exec i s = .next t → t.rsp = s.rsp ++ w :: data →
    w.extractLsb' 0 8 = 0#8 →
    t.status.lastCause = s.status.lastCause ∧ t.status.errIllegal = s.status.errIllegal ∧
      t.status.errCfg = s.status.errCfg

/-- R41 bit 3, R300: STALE is set by a setter that passes its checks, cleared by a COMPUTE_OFFSET that passes its check,
and left as it is by everything else. -/
def Obligations.StaleFollowsSettersAndOffsets : Prop :=
  ∀ (i : Instr) (s t : State), exec i s = .next t →
    t.status.stale =
      match i with
      | .setWaveform _ _ => true
      | .setupSub nn _ dA dB =>
        s.status.stale || (decide (nn ≤ 4) &&
          decide (∀ j, (1 ≤ dA.get j ∧ dA.get j ≤ 16) ∧ 1 ≤ dB.get j ∧ dB.get j ≤ 16))
      | .setPw w => s.status.stale || decide (∀ j, fle posZero (w.get j) = true ∧ fle (w.get j) one = true)
      | .computeOffset t => s.status.stale && !(isFinite t && flt posZero t)
      | _ => s.status.stale

/-- R237, R268: ERR_SEQ is set by a PROCESS that starts while STALE is 1, and by nothing else. -/
def Obligations.SequenceErrorOnlyFromStaleProcess : Prop :=
  ∀ (i : Instr) (s t : State), exec i s = .next t →
    t.status.errSeq =
      match i with
      | .process _ _ => s.status.errSeq || s.status.stale
      | _ => s.status.errSeq

/-- R300 over a whole run: a host that never lets a PROCESS start with STALE = 1 never sees ERR_SEQ. -/
def Obligations.TheRuleOfUseKeepsSequenceErrorClear : Prop :=
  ∀ s t : State, SafeRun s t → s.status.errSeq = false → t.status.errSeq = false

/-- R41 and R272: every field of the STATUS word is where the table puts it, the reserved bits read 0, and `err_o` is the
OR of the three sticky bits. -/
def Obligations.StatusWordLayout : Prop :=
  ∀ s : State,
    s.statusWord.getLsbD 0 = s.status.errIllegal ∧
    s.statusWord.getLsbD 1 = s.status.errCfg ∧
    s.statusWord.getLsbD 2 = s.status.errSeq ∧
    s.statusWord.getLsbD 3 = s.status.stale ∧
    (s.n ≤ 4 → (s.statusWord.extractLsb' 4 3).toNat = s.n) ∧
    s.statusWord.getLsbD 7 = false ∧
    s.statusWord.extractLsb' 8 8 = s.status.lastCause ∧
    s.statusWord.extractLsb' 16 16 = 0#16 ∧
    s.errO = (s.statusWord.getLsbD 0 || s.statusWord.getLsbD 1 || s.statusWord.getLsbD 2)

/-! ## NOP and the setters -/

/-- R221: NOP answers `0x00000000` and changes nothing else. -/
def Obligations.NopOnlyAnswers : Prop :=
  ∀ s : State, exec .nop s = .next { s with rsp := s.rsp ++ [0x00000000#32] }

/-- R222: both masks of all four lanes, STALE, the response; nothing else changes. -/
def Obligations.SetWaveformWritesTheMasks : Prop :=
  ∀ (mainMask subMask : BitVec 4) (s : State), ∃ lanes : Lanes Lane,
    exec (.setWaveform mainMask subMask) s = .next { s with
      lanes := lanes
      status := { s.status with stale := true }
      rsp := s.rsp ++ [0x00000000#32] } ∧
    ∀ i : Fin 4, lanes.get i =
      { s.lane i with mainIsSaw := mainMask.getLsbD i.val, subIsSaw := subMask.getLsbD i.val }

/-- R224 with R186, R227, R228: a legal SETUP_SUB, for every lane: divisors and counters; for an active lane the sanitised
frequency and its quotients, phases and rings untouched; for an inactive lane frequencies, phases and outputs +0.0. The
quotients hold for any NaN pattern `q`: none is a NaN. The counter `draws` is the model's own (log 3). -/
def Obligations.SetupSubConfiguresTheLanes : Prop :=
  ∀ (nn : Nat) (pitch : Lanes Word) (dA dB : Lanes Nat) (s : State), nn ≤ 4 →
    (∀ i, (1 ≤ dA.get i ∧ dA.get i ≤ 16) ∧ 1 ≤ dB.get i ∧ dB.get i ≤ 16) →
    ∃ lanes : Lanes Lane,
      exec (.setupSub nn pitch dA dB) s = .next { s with
        lanes := lanes
        n := nn
        status := { s.status with stale := true }
        draws := s.draws + 1
        rsp := s.rsp ++ [0x00000000#32] } ∧
      ∀ i : Fin 4,
        (i.val < nn → ∀ q : Word, lanes.get i =
          { s.lane i with
            div := ⟨dA.get i, dB.get i⟩
            cnt := ⟨min (s.lane i).cnt.a (dA.get i), min (s.lane i).cnt.b (dB.get i)⟩
            freq := fsan device (device.p2f (pitch.get i))
            subFreq := ⟨fdiv q (fsan device (device.p2f (pitch.get i))) (itof (dA.get i)),
              fdiv q (fsan device (device.p2f (pitch.get i))) (itof (dB.get i))⟩ }) ∧
        (nn ≤ i.val → lanes.get i =
          { s.lane i with
            div := ⟨dA.get i, dB.get i⟩
            cnt := ⟨min (s.lane i).cnt.a (dA.get i), min (s.lane i).cnt.b (dB.get i)⟩
            freq := posZero
            subFreq := ⟨posZero, posZero⟩
            phase := posZero
            subPhase := ⟨posZero, posZero⟩
            outMain := posZero
            outSub := ⟨posZero, posZero⟩ })

/-- R225: a count of 5, 6 or 7 (and any above 4) rejects SETUP_SUB with cause 4, whatever the divisors are. -/
def Obligations.SetupSubRejectsABadCount : Prop :=
  ∀ (nn : Nat) (pitch : Lanes Word) (dA dB : Lanes Nat) (s : State), 4 < nn →
    exec (.setupSub nn pitch dA dB) s = .next { s with
      status := { s.status with errCfg := true, lastCause := 4#8 }
      rsp := s.rsp ++ [0x00000004#32] }

/-- R226: one divisor outside [1, 16], on an active or an inactive lane, of sub A or of sub B, rejects the whole command
with cause 5. -/
def Obligations.SetupSubRejectsABadDivisor : Prop :=
  ∀ (nn : Nat) (pitch : Lanes Word) (dA dB : Lanes Nat) (s : State), nn ≤ 4 →
    (∃ i, dA.get i < 1 ∨ 16 < dA.get i ∨ dB.get i < 1 ∨ 16 < dB.get i) →
    exec (.setupSub nn pitch dA dB) s = .next { s with
      status := { s.status with errCfg := true, lastCause := 5#8 }
      rsp := s.rsp ++ [0x00000005#32] }

/-- R227: the sanitiser's three cases, and that a stored frequency is finite, in [+0.0, FREQ_MAX] and never a negative
zero, whatever the collaborator answers. -/
def Obligations.SanitisedFrequencyIsInRange : Prop :=
  ∀ f : Word,
    (isNaN f = true ∨ fle f posZero = true → fsan device f = 0x00000000#32) ∧
    (flt 0x47C35000#32 f = true → fsan device f = 0x47C35000#32) ∧
    (flt posZero f = true → fle f 0x47C35000#32 = true → fsan device f = f) ∧
    isFinite (fsan device f) = true ∧ signBit (fsan device f) = false ∧
    fle posZero (fsan device f) = true ∧ fle (fsan device f) 0x47C35000#32 = true

/-- R230: legal pulse widths are stored bit for bit in all four lanes; STALE, the response; nothing else changes. -/
def Obligations.SetPwStoresTheWidths : Prop :=
  ∀ (w : Lanes Word) (s : State), (∀ i, fle posZero (w.get i) = true ∧ fle (w.get i) one = true) →
    ∃ lanes : Lanes Lane,
      exec (.setPw w) s = .next { s with
        lanes := lanes
        status := { s.status with stale := true }
        rsp := s.rsp ++ [0x00000000#32] } ∧
      ∀ i : Fin 4, lanes.get i = { s.lane i with pw := w.get i }

/-- R231: one width that is not in [0, 1], a NaN included, on any lane, rejects SET_PW with cause 6 and writes no lane. -/
def Obligations.SetPwRejectsABadWidth : Prop :=
  ∀ (w : Lanes Word) (s : State), (∃ i, ¬ (fle posZero (w.get i) = true ∧ fle (w.get i) one = true)) →
    exec (.setPw w) s = .next { s with
      status := { s.status with errCfg := true, lastCause := 6#8 }
      rsp := s.rsp ++ [0x00000006#32] }

/-! ## COMPUTE_OFFSET -/

/-- R232, R206, R207: a legal COMPUTE_OFFSET writes the compensations of every lane, active or not, and clears STALE. `q`
and `q'` are the NaN patterns drawn, if an operation has no other result; the counter `draws` is the model's own (log 3). -/
def Obligations.ComputeOffsetWritesTheCompensations : Prop :=
  ∀ (t : Word) (s : State), isFinite t = true → flt posZero t = true →
    ∃ lanes : Lanes Lane,
      exec (.computeOffset t) s = .next { s with
        lanes := lanes
        status := { s.status with stale := false }
        draws := s.draws + 1
        rsp := s.rsp ++ [0x00000000#32] } ∧
      ∀ i : Fin 4, ∃ dcMain dcSubA dcSubB : Word,
        lanes.get i = { s.lane i with dcMain := dcMain, dcSub := ⟨dcSubA, dcSubB⟩ } ∧
        ((s.lane i).mainIsSaw = true → ∃ q q', isNaN q = true ∧ isNaN q' = true ∧
          dcMain = fmul q (fmul q' 0xC0B65604#32 t) (s.lane i).freq) ∧
        ((s.lane i).mainIsSaw = false → ∃ q q', isNaN q = true ∧ isNaN q' = true ∧
          dcMain = fsub q (fmul q' two (s.lane i).pw) one) ∧
        ((s.lane i).subIsSaw = true → ∃ q q', isNaN q = true ∧ isNaN q' = true ∧
          dcSubA = fmul q (fmul q' 0xC0B65604#32 t) (s.lane i).subFreq.a) ∧
        ((s.lane i).subIsSaw = true → ∃ q q', isNaN q = true ∧ isNaN q' = true ∧
          dcSubB = fmul q (fmul q' 0xC0B65604#32 t) (s.lane i).subFreq.b) ∧
        ((s.lane i).subIsSaw = false → ∃ q q', isNaN q = true ∧ isNaN q' = true ∧
          dcSubA = fsub q (fmul q' two (s.lane i).pw) one) ∧
        ((s.lane i).subIsSaw = false → ∃ q q', isNaN q = true ∧ isNaN q' = true ∧
          dcSubB = fsub q (fmul q' two (s.lane i).pw) one)

/-- R233: a sample time that is a NaN, an infinity, a zero or negative rejects COMPUTE_OFFSET with cause 7; no compensation
is written and STALE keeps its value. -/
def Obligations.ComputeOffsetRejectsABadTime : Prop :=
  ∀ (t : Word) (s : State),
    isNaN t = true ∨ isInf t = true ∨ isZero t = true ∨ flt t posZero = true →
    exec (.computeOffset t) s = .next { s with
      status := { s.status with errCfg := true, lastCause := 7#8 }
      rsp := s.rsp ++ [0x00000007#32] }

/-- R208: COMPUTE_OFFSET twice with no parameter change gives the same compensations, up to the free bits of a NaN
(R113). -/
def Obligations.ComputeOffsetTwiceIsOnce : Prop :=
  ∀ (tm : Word) (s t u : State), exec (.computeOffset tm) s = .next t → exec (.computeOffset tm) t = .next u →
    ∀ i : Fin 4, sameNumber (t.lane i).dcMain (u.lane i).dcMain ∧
      ∀ k, sameNumber ((t.lane i).dcSub.get k) ((u.lane i).dcSub.get k)

/-! ## PROCESS -/

/-- R235, R237, R240: PROCESS always completes. The positions advance by one modulo 32, ERR_SEQ records a set STALE, the
response is `0x00000000`; the channel count, the stream, STALE, LAST_CAUSE and the other error bits stay, and of a lane
only phases, counters, outputs and ring cells may change. The counter `draws` is the model's own (log 3). -/
def Obligations.ProcessCompletesAndFrames : Prop :=
  ∀ (t : Word) (y : Lanes Word) (s : State), ∃ lanes : Lanes Lane,
    exec (.process t y) s = .next { s with
      lanes := lanes
      pos := ⟨(s.pos.m + 1) % 32, (s.pos.a + 1) % 32, (s.pos.b + 1) % 32⟩
      status := { s.status with errSeq := s.status.errSeq || s.status.stale }
      draws := s.draws + 1
      rsp := s.rsp ++ [0x00000000#32] } ∧
    ∀ i : Fin 4, lanes.get i =
      { s.lane i with
        phase := (lanes.get i).phase
        subPhase := (lanes.get i).subPhase
        cnt := (lanes.get i).cnt
        outMain := (lanes.get i).outMain
        outSub := (lanes.get i).outSub
        buf := (lanes.get i).buf }

/-- R241: an inactive lane is not advanced; its current cell in each ring is zeroed and its outputs are +0.0. -/
def Obligations.ProcessOnlyDrainsInactiveLanes : Prop :=
  ∀ (t : Word) (y : Lanes Word) (s : State), ∃ u : State, exec (.process t y) s = .next u ∧
    ∀ i : Fin 4, s.n ≤ i.val → u.lane i =
      { s.lane i with
        outMain := 0x00000000#32
        outSub := ⟨0x00000000#32, 0x00000000#32⟩
        buf := ⟨(s.lane i).buf.m.set s.pos.m 0x00000000#32, (s.lane i).buf.a.set s.pos.a 0x00000000#32,
          (s.lane i).buf.b.set s.pos.b 0x00000000#32⟩ }

/-- R240 steps 1 to 4, 6 and 7 for the main source of an active lane: the stored phase is the reduced advanced phase, the
main ring has received the rising edge and then the wrap edge and has lost its current cell, and the output is made of the
stored phase, the cell that was read and the compensation. The lists of numbers name the command's NaN draws, the model's
own (log 3). -/
def Obligations.ProcessMainSourceOfAnActiveLane : Prop :=
  ∀ (t : Word) (y : Lanes Word) (s : State), ∃ u : State, exec (.process t y) s = .next u ∧
    ∀ i : Fin 4, i.val < s.n →
      let ln := s.lane i
      let d : Draw := [i.val, s.draws]
      let adv := paAdvance device (0 :: d) ln.phase ln.freq t
      let wc := paCross1 device (1 :: 3 :: d) adv.2 adv.1
      let risen := wsRise device (0 :: 3 :: d) s.pos.m .m adv.2 adv.1 ln.mainIsSaw ln
      let fallen := if crossed wc then wsFallMain device (2 :: 3 :: d) s.pos.m wc risen else risen
      (u.lane i).phase = paReduce device (3 :: 3 :: d) adv.2 ∧
      (u.lane i).buf.m = fallen.buf.m.set s.pos.m posZero ∧
      (u.lane i).outMain =
        wsOut device (6 :: d) ln.mainIsSaw (u.lane i).phase (fallen.buf.m.getD s.pos.m posZero) ln.pw ln.dcMain

/-- R240 steps 1, 5, 6 and 7 for a sub of an active lane, with R183 and R184: the counter follows the detected main wrap,
an expiry reloads it, replaces the advanced sub-phase by the resync value and inserts the edge after the rising one; the
stored sub-phase is the reduced one. The premise on the counter is R181; the lists of numbers name NaN draws (log 3). -/
def Obligations.ProcessSubSourceOfAnActiveLane : Prop :=
  ∀ (t : Word) (y : Lanes Word) (s : State), ∃ u : State, exec (.process t y) s = .next u ∧
    ∀ (i : Fin 4) (k : Sub), i.val < s.n → 1 ≤ (s.lane i).cnt.get k →
      let ln := s.lane i
      let d : Draw := [i.val, s.draws]
      let e : Draw := (if k = .a then 4 else 5) :: d
      let main := paAdvance device (0 :: d) ln.phase ln.freq t
      let wc := paCross1 device (1 :: 3 :: d) main.2 main.1
      let adv := paAdvance device ((if k = .a then 1 else 2) :: d) (ln.subPhase.get k) (ln.subFreq.get k) t
      let src := k.source
      let risen := wsRise device (0 :: e) (s.pos.get src) src adv.2 adv.1 ln.subIsSaw ln
      let expired : Bool := crossed wc && decide (ln.cnt.get k = 1)
      let edged :=
        if expired then
          insertAt device (0 :: 1 :: e) (s.pos.get src) src wc (fmul (device.nan (1 :: 1 :: e)) negTwo ln.syncDir) risen
        else risen
      let sigma := if expired then resync device (2 :: 1 :: e) (u.lane i).phase (ln.div.get k) else adv.2
      (u.lane i).cnt.get k =
        (if expired then ln.div.get k else if crossed wc then ln.cnt.get k - 1 else ln.cnt.get k) ∧
      (u.lane i).subPhase.get k = paReduce device (2 :: e) sigma ∧
      (u.lane i).buf.get src = (edged.buf.get src).set (s.pos.get src) posZero ∧
      (u.lane i).outSub.get k =
        wsOut device ((if k = .a then 7 else 8) :: d) ln.subIsSaw ((u.lane i).subPhase.get k)
          ((edged.buf.get src).getD (s.pos.get src) posZero) ln.pw (ln.dcSub.get k)

/-- R236: the sync operands have no effect, whatever their bits are, and the sync direction stays as it is. -/
def Obligations.ProcessIgnoresTheSyncValues : Prop :=
  ∀ (t : Word) (y y' : Lanes Word) (s : State), exec (.process t y) s = exec (.process t y') s ∧
    ∃ u, exec (.process t y) s = .next u ∧ ∀ i, (u.lane i).syncDir = (s.lane i).syncDir

/-- R20: lanes are independent. Two states that agree on one lane, on the shared scalars and on the number of the next
NaN draws (log 3) agree on that lane after any command. -/
def Obligations.LanesAreIndependent : Prop :=
  ∀ (i : Instr) (s s' t t' : State) (j : Fin 4), s.lane j = s'.lane j → s.n = s'.n → s.pos = s'.pos →
    s.draws = s'.draws → exec i s = .next t → exec i s' = .next t' → t.lane j = t'.lane j

/-- R35, R36: each position advances by one modulo 32 in a PROCESS and in no other command; equal positions stay equal. -/
def Obligations.PositionsAdvanceOnceForEachProcess : Prop :=
  (∀ (i : Instr) (s t : State), exec i s = .next t → ∀ src,
    t.pos.get src =
      match i with
      | .process _ _ => (s.pos.get src + 1) % 32
      | _ => s.pos.get src) ∧
  (∀ s t : State, s.pos.m = s.pos.a → s.pos.a = s.pos.b → step s = .next t → t.pos.m = t.pos.a ∧ t.pos.a = t.pos.b)

/-- R293, for every state that has no active lane, a clear STATUS and zero outputs, as after reset: PROCESS and the read
commands leave it so, and the reads answer zeros. -/
def Obligations.AnUnconfiguredBlockIsSilent : Prop :=
  let quiet := fun s : State => s.n = 0 ∧ s.status = Status.cleared ∧
    ∀ i : Fin 4, (s.lane i).outMain = posZero ∧ ∀ k, (s.lane i).outSub.get k = posZero
  ∀ s : State, quiet s →
    (∀ t y, ∃ u, exec (.process t y) s = .next u ∧ quiet u ∧ u.rsp = s.rsp ++ [0x00000000#32] ∧
      u.pos = ⟨(s.pos.m + 1) % 32, (s.pos.a + 1) % 32, (s.pos.b + 1) % 32⟩) ∧
    exec .readMain s = .next { s with rsp := s.rsp ++ [0x00000400#32, 0#32, 0#32, 0#32, 0#32] } ∧
    (∀ k, exec (.readSub k) s = .next { s with rsp := s.rsp ++ [0x00000400#32, 0#32, 0#32, 0#32, 0#32] }) ∧
    exec .readStatus s = .next { s with rsp := s.rsp ++ [0x00000100#32, 0#32] }

/-- R304: after 32 PROCESS commands as an inactive lane, whatever their operands, a lane's cells are all +0.0. -/
def Obligations.AnInactiveLaneDrains : Prop :=
  ∀ (s : State) (i : Fin 4) (ops : List Word), s.n ≤ i.val → s.memory.wf 32 →
    s.pos.m < 32 → s.pos.a < 32 → s.pos.b < 32 → ops.length = 32 →
    ∀ src, ((ops.foldl (fun u t => processState device t u) s).lane i).buf.get src = List.replicate 32 posZero

/-! ## Read commands -/

/-- R245: READ_MAIN answers the four main samples and writes no state. -/
def Obligations.ReadMainAnswersTheSamples : Prop :=
  ∀ s : State, exec .readMain s = .next { s with
    rsp := s.rsp ++ [0x00000400#32, (s.lane 0).outMain, (s.lane 1).outMain, (s.lane 2).outMain, (s.lane 3).outMain] }

/-- R246: READ_SUB answers the four samples of its sub and writes no state. -/
def Obligations.ReadSubAnswersTheSamples : Prop :=
  ∀ (k : Sub) (s : State), exec (.readSub k) s = .next { s with
    rsp := s.rsp ++ [0x00000400#32, (s.lane 0).outSub.get k, (s.lane 1).outSub.get k, (s.lane 2).outSub.get k,
      (s.lane 3).outSub.get k] }

/-- R247: READ_STATUS answers the STATUS word and writes no state; no sticky bit is cleared. -/
def Obligations.ReadStatusAnswersTheWord : Prop :=
  ∀ s : State, exec .readStatus s = .next { s with rsp := s.rsp ++ [0x00000100#32, s.statusWord] }

/-! ## Kernel buffers -/

/-- R143, R141: an insertion adds tap j into cell (pos + j) mod L, once for each tap, and touches nothing else of the
lane. Any configuration, any offset and height; the lists of numbers name NaN draws (log 3). -/
def Obligations.InsertionAddsEachTapToItsCell : Prop :=
  ∀ (c : Config) (d : Draw) (pos : Nat) (src : Source) (p h : Word) (ln : Lane),
    (ln.buf.get src).length = c.ringLen →
    let after := kbInsert c d pos src p h ln
    (∀ j, j < c.ringLen → bufRead after src ((pos + j) % c.ringLen) =
      fadd (c.nan (8 :: j :: d)) (bufRead ln src ((pos + j) % c.ringLen)) (kbTap c (j :: d) p h j)) ∧
    (after.buf.get src).length = c.ringLen ∧
    (∀ other, other ≠ src → after.buf.get other = ln.buf.get other) ∧
    after = { ln with buf := after.buf }

/-- R146, R148: KB_PROCESS plays out the cells in order, each exactly once: the (j+1)-th call reads what cell
(pos + j) mod L held, and after L calls with no insertion every cell of the instance is +0.0. -/
def Obligations.ReadOutEmptiesARingInLCalls : Prop :=
  ∀ (c : Config) (src : Source) (s : State), (∀ i, ((s.lane i).buf.get src).length = c.ringLen) →
    s.pos.get src < c.ringLen →
    let after := fun m => (List.range m).foldl (fun u _ => (kbProcess c src u).2) s
    (∀ j, j < c.ringLen → ∀ i, (kbProcess c src (after j)).1.get i =
      bufRead (s.lane i) src ((s.pos.get src + j) % c.ringLen)) ∧
    (∀ i, ((after c.ringLen).lane i).buf.get src = List.replicate c.ringLen posZero) ∧
    (after c.ringLen).pos.get src = s.pos.get src

/-- R149: the guard of every call site makes the precondition of KB_INSERT hold, and every call site inserts only behind
its guard. In order: a crossing in (0, 1] gives an offset in [-1, 0]; KB_INSERT on its own refuses any other offset (log
12); WS_RISE inserts exactly when its source is no saw and its pulse crossing is in (0, 1]; the wrap edge exactly when the
wrap crossing is; a sub's falling edge exactly when the wrap crossing is and its counter expires (one of 0 reads as expiring,
log 10); and the rings of a whole lane are those of the three call sites, the subs' with the main wrap's crossing. Each
insertion is one that `kbInsertAlone` accepts. The lists of numbers name NaN draws (log 3). -/
def Obligations.EveryInsertionOffsetIsLegal : Prop :=
  (∀ q x : Word, crossed x = true → fle negOne (fsub q x one) = true ∧ fle (fsub q x one) posZero = true) ∧
  (∀ (c : Config) (d : Draw) (pos : Nat) (src : Source) (p h : Word) (ln : Lane),
    kbInsertAlone c d pos src p h ln = none ↔ ¬ (fle negOne p = true ∧ fle p posZero = true)) ∧
  (∀ (c : Config) (d : Draw) (pos : Nat) (src : Source) (phi dl : Word) (isSaw : Bool) (ln : Lane),
    let pc := pulseCross c (0 :: d) ln.pw phi dl
    let after := wsRise c d pos src phi dl isSaw ln
    if isSaw = false ∧ crossed pc = true then
      kbInsertAlone c (0 :: 1 :: d) pos src (fsub (c.nan (1 :: 1 :: d)) pc one) (fmul (c.nan (2 :: d)) two ln.syncDir) ln
        = some after
    else after = ln) ∧
  (∀ (c : Config) (d : Draw) (pos : Nat) (dl phi : Word) (ln : Lane),
    let wc := paCross1 c (1 :: d) phi dl
    let risen := wsRise c (0 :: d) pos .m phi dl ln.mainIsSaw ln
    let after := processMain c d pos dl phi ln
    if crossed wc = true then
      ∃ u, kbInsertAlone c (0 :: 0 :: 2 :: d) pos .m (fsub (c.nan (1 :: 0 :: 2 :: d)) wc one)
        (fmul (c.nan (1 :: 2 :: d)) negTwo ln.syncDir) risen = some u ∧ after = { u with phase := after.phase }
    else after = { risen with phase := after.phase }) ∧
  (∀ (c : Config) (d : Draw) (pos : Nat) (k : Sub) (wc ph dl sigma : Word) (ln : Lane),
    let risen := wsRise c (0 :: d) pos k.source sigma dl ln.subIsSaw ln
    let after := processSub c d pos k (crossed wc) wc ph dl sigma ln
    if crossed wc = true ∧ ln.cnt.get k ≤ 1 then
      ∃ u, kbInsertAlone c (0 :: 0 :: 1 :: d) pos k.source (fsub (c.nan (1 :: 0 :: 1 :: d)) wc one)
        (fmul (c.nan (1 :: 1 :: d)) negTwo ln.syncDir) risen = some u ∧ after.buf = u.buf
    else after.buf = risen.buf) ∧
  (∀ (c : Config) (d : Draw) (pos : Sources Nat) (t : Word) (ln : Lane),
    let main := paAdvance c (0 :: d) ln.phase ln.freq t
    let subA := paAdvance c (1 :: d) ln.subPhase.a ln.subFreq.a t
    let subB := paAdvance c (2 :: d) ln.subPhase.b ln.subFreq.b t
    let wc := paCross1 c (1 :: 3 :: d) main.2 main.1
    let ph := (processLane c d pos t ln).phase
    (processLane c d pos t ln).buf =
      ⟨(processMain c (3 :: d) pos.m main.1 main.2 ln).buf.m,
       (processSub c (4 :: d) pos.a .a (crossed wc) wc ph subA.1 subA.2 ln).buf.a,
       (processSub c (5 :: d) pos.b .b (crossed wc) wc ph subB.1 subB.2 ln).buf.b⟩)

/-! ## Phase accumulator and divider -/

/-- R160: the increment is in [DPH_MIN, DPH_MAX] whatever the frequency and the time are, NaN included. The bounds
are the defaults of R9 (log 7). -/
def Obligations.IncrementIsAlwaysClamped : Prop :=
  ∀ (d : Draw) (f t : Word),
    fle 0x358637BD#32 (increment device d f t) = true ∧ fle (increment device d f t) 0x3EB33333#32 = true

/-- R165, R166: from a phase in [0, 1) the unwrapped phase stays below PH_BOUND = 1.5 and the stored phase is in [0, 1),
whatever the frequency and the time are. -/
def Obligations.StoredPhaseStaysBelowOne : Prop :=
  ∀ (d d' : Draw) (ph f t : Word), fle posZero ph = true → flt ph one = true →
    let unwrapped := (paAdvance device d ph f t).2
    let stored := paReduce device d' unwrapped
    flt unwrapped 0x3FC00000#32 = true ∧ fle posZero stored = true ∧ flt stored one = true

/-- R164, R117: for a phase in [+0, 2) the reduction is the fractional part, and the fractional part is the identity
below 1. The NaN draws of the two sides may differ (log 3). -/
def Obligations.ReductionIsTheFractionalPart : Prop :=
  ∀ (c : Config) (d : Draw) (q phi : Word), signBit phi = false → flt phi two = true →
    paReduce c d phi = ffrac q phi ∧ (flt phi one = true → ffrac q phi = phi)

/-- R189: with a constant divisor D the counter expires on every D-th tick and on no other: from a fresh reload, the
first D - 1 ticks only count down and the D-th reloads. The crossings, phases and draws of the ticks may differ. -/
def Obligations.CounterExpiresOnEveryDthTick : Prop :=
  ∀ (c : Config) (pos : Nat) (k : Sub) (d : Nat → Draw) (wc ph sigma : Nat → Word) (ln : Lane),
    1 ≤ ln.div.get k → ln.cnt.get k = ln.div.get k →
    let tick := fun (l : Lane) (m : Nat) => (sdTick c (d m) pos k (wc m) (ph m) (sigma m) l).1
    let after := fun m => (List.range m).foldl tick ln
    (∀ m, m < ln.div.get k → (after m).cnt.get k = ln.div.get k - m ∧ (after m).buf = ln.buf) ∧
    (after (ln.div.get k)).cnt.get k = ln.div.get k

/-! ## Waveforms -/

/-- R126 (e), R205: with `syncDir = +1.0` the jump heights are exactly +2.0 and -2.0. -/
def Obligations.JumpHeightsAreExactlyTwo : Prop :=
  ∀ q : Word, fmul q 0x40000000#32 0x3F800000#32 = 0x40000000#32 ∧ fmul q 0xC0000000#32 0x3F800000#32 = 0xC0000000#32

/-- R200: the naive saw is in [-1, +1] for a stored phase. -/
def Obligations.NaiveSawIsBounded : Prop :=
  ∀ q q' ph : Word, fle posZero ph = true → fle ph one = true →
    fle negOne (fsub q (fmul q' two ph) one) = true ∧ fle (fsub q (fmul q' two ph) one) one = true

/-- R201, R209 (b), (d): the pulse with no correction is +1 strictly above the pulse width and -1 elsewhere, at equality
too, and -1 for every stored phase when the width is 1. -/
def Obligations.PulseSwitchesStrictlyAboveItsWidth : Prop :=
  ∀ (c : Config) (d : Draw) (ph w : Word),
    (flt w ph = true → wsPulse c d ph posZero w = 0x3F800000#32) ∧
    (flt w ph = false → wsPulse c d ph posZero w = 0xBF800000#32) ∧
    (flt ph one = true → wsPulse c d ph posZero one = 0xBF800000#32)

/-- R209 (a): a pulse width of zero, of either sign, never makes a rising edge. -/
def Obligations.ZeroPulseWidthNeverRises : Prop :=
  ∀ (d d' : Draw) (w ph f t : Word), isZero w = true → fle posZero ph = true → flt ph one = true →
    let adv := paAdvance device d ph f t
    crossed (pulseCross device d' w adv.2 adv.1) = false

/-! ## Arithmetic -/

/-- R112, for finite operands and a finite result: no binary32 value is nearer to the exact sum, product or quotient than
the result, and when another is equally near, the result's last bit is 0. `v` is the exact result in units of 2^-149, as a
fraction with denominator `den`. -/
def Obligations.ArithmeticRoundsToNearestEven : Prop :=
  let nearest := fun (v : Int) (den : Nat) (r : Word) =>
    ∀ x : Word, isFinite x = true →
      |v - value r * den| ≤ |v - value x * den| ∧
      (|v - value r * den| = |v - value x * den| → value x ≠ value r → r.getLsbD 0 = false)
  ∀ q a b : Word, isFinite a = true → isFinite b = true →
    (isFinite (fadd q a b) = true → nearest (value a + value b) 1 (fadd q a b)) ∧
    (isFinite (fmul q a b) = true → nearest (value a * value b) (2 ^ 149) (fmul q a b)) ∧
    (value b ≠ 0 → isFinite (fdiv q a b) = true →
      nearest (value a * 2 ^ 149 * (value b).sign) (value b).natAbs (fdiv q a b))

/-- R112 beyond rounding, and R113, for every pair of words. In order: where a finite result ends and which infinity
follows it; the signs, of results that underflow to zero too; the zeros; subtraction as the addition of the negated operand;
infinite operands; the operations that give a NaN, which answer the drawn pattern `q` (log 3), and that no others do.
`v / den` is the exact result in units of 2^-149. -/
def Obligations.ArithmeticOverflowsAndSpecialValues : Prop :=
  let overflows := fun (v : Int) (den : Nat) (r : Word) =>
    (isFinite r = false ↔ ((2 ^ 25 - 1) * 2 ^ 252 * den : Int) ≤ |v|) ∧ (isFinite r = false → r = infOf (decide (v < 0)))
  let opposite := fun a b : Word => isInf a = true ∧ isInf b = true ∧ signBit a ≠ signBit b
  let zeroTimesInf := fun a b : Word => (isZero a = true ∧ isInf b = true) ∨ (isInf a = true ∧ isZero b = true)
  let zeroOrInfTwice := fun a b : Word => (isZero a = true ∧ isZero b = true) ∨ (isInf a = true ∧ isInf b = true)
  (∀ q a b : Word, isFinite a = true → isFinite b = true →
    overflows (value a + value b) 1 (fadd q a b) ∧
    overflows (value a * value b) (2 ^ 149) (fmul q a b) ∧
    (value b ≠ 0 → overflows (value a * 2 ^ 149 * (value b).sign) (value b).natAbs (fdiv q a b)) ∧
    (value a + value b ≠ 0 → signBit (fadd q a b) = decide (value a + value b < 0)) ∧
    signBit (fmul q a b) = (signBit a != signBit b) ∧
    (isZero b = false → signBit (fdiv q a b) = (signBit a != signBit b)) ∧
    (value a + value b = 0 → fadd q a b = zeroOf (signBit a && signBit b)) ∧
    fsub q a a = posZero ∧
    (isZero a = true ∨ isZero b = true → fmul q a b = zeroOf (signBit a != signBit b)) ∧
    (isZero a = true → isZero b = false → fdiv q a b = zeroOf (signBit a != signBit b)) ∧
    (isZero a = false → isZero b = true → fdiv q a b = infOf (signBit a != signBit b))) ∧
  (∀ q a b : Word, isNaN b = false → fsub q a b = fadd q a (negate b)) ∧
  (∀ x : Word, isInf x = true ↔ x = infOf (signBit x)) ∧
  (∀ neg, negate (infOf neg) = infOf (!neg)) ∧
  (∀ (q : Word) (neg : Bool),
    fadd q (infOf neg) (infOf neg) = infOf neg ∧ fadd q (infOf neg) (infOf (!neg)) = q ∧
    fsub q (infOf neg) (infOf neg) = q ∧ fsub q (infOf neg) (infOf (!neg)) = infOf neg ∧
    (∀ a, isFinite a = true →
      fadd q a (infOf neg) = infOf neg ∧ fadd q (infOf neg) a = infOf neg ∧
      fsub q a (infOf neg) = infOf (!neg) ∧ fsub q (infOf neg) a = infOf neg ∧
      fdiv q a (infOf neg) = zeroOf (signBit a != neg) ∧ fdiv q (infOf neg) a = infOf (neg != signBit a)) ∧
    (∀ a, isNaN a = false → isZero a = false →
      fmul q a (infOf neg) = infOf (signBit a != neg) ∧ fmul q (infOf neg) a = infOf (neg != signBit a))) ∧
  (∀ q a b : Word, isNaN a = true ∨ isNaN b = true →
    fadd q a b = q ∧ fsub q a b = q ∧ fmul q a b = q ∧ fdiv q a b = q) ∧
  (∀ q a b : Word, isNaN a = false → isNaN b = false →
    (opposite a b → fadd q a b = q) ∧ (¬ opposite a b → isNaN (fadd q a b) = false) ∧
    (opposite a (negate b) → fsub q a b = q) ∧ (¬ opposite a (negate b) → isNaN (fsub q a b) = false) ∧
    (zeroTimesInf a b → fmul q a b = q) ∧ (¬ zeroTimesInf a b → isNaN (fmul q a b) = false) ∧
    (zeroOrInfTwice a b → fdiv q a b = q) ∧ (¬ zeroOrInfTwice a b → isNaN (fdiv q a b) = false))

/-- R115: all five comparisons are false with a NaN; the zeros are equal; finite values compare as their numbers; every
value that is no NaN, the infinities themselves included, compares with the two infinities, on either side, as with the ends
of the extended reals; the range test of a crossing; `isFinite`. -/
def Obligations.ComparisonsAreThoseOfTheExtendedReals : Prop :=
  (∀ a b : Word, isNaN a = true ∨ isNaN b = true →
    flt a b = false ∧ fle a b = false ∧ fgt a b = false ∧ fge a b = false ∧ feq a b = false) ∧
  feq negZero posZero = true ∧
  (∀ a b : Word, isFinite a = true → isFinite b = true →
    (flt a b = true ↔ value a < value b) ∧ (fle a b = true ↔ value a ≤ value b) ∧
    (fgt a b = true ↔ value b < value a) ∧ (fge a b = true ↔ value b ≤ value a) ∧
    (feq a b = true ↔ value a = value b)) ∧
  (∀ a : Word, isNaN a = false →
    let top := infOf false
    (flt a top = true ↔ a ≠ top) ∧ fle a top = true ∧ fgt a top = false ∧ (fge a top = true ↔ a = top) ∧
    (feq a top = true ↔ a = top) ∧
    flt top a = false ∧ (fle top a = true ↔ a = top) ∧ (fgt top a = true ↔ a ≠ top) ∧ fge top a = true ∧
    (feq top a = true ↔ a = top)) ∧
  (∀ a : Word, isNaN a = false →
    let bottom := infOf true
    flt a bottom = false ∧ (fle a bottom = true ↔ a = bottom) ∧ (fgt a bottom = true ↔ a ≠ bottom) ∧
    fge a bottom = true ∧ (feq a bottom = true ↔ a = bottom) ∧
    (flt bottom a = true ↔ a ≠ bottom) ∧ fle bottom a = true ∧ fgt bottom a = false ∧
    (fge bottom a = true ↔ a = bottom) ∧ (feq bottom a = true ↔ a = bottom)) ∧
  (∀ neg, isInf (infOf neg) = true ∧ isNaN (infOf neg) = false) ∧
  (∀ x : Word, (isNaN x = true ∨ isInf x = true → crossed x = false) ∧
    (isFinite x = true → (crossed x = true ↔ 0 < value x ∧ value x ≤ value one)) ∧
    (isFinite x = true ↔ isNaN x = false ∧ isInf x = false))

/-- R116: the clamp's cases and range, for finite bounds in order: total, never a NaN, the infinities at the ends. -/
def Obligations.ClampIsTotalAndInRange : Prop :=
  ∀ lo hi : Word, isFinite lo = true → isFinite hi = true → fle lo hi = true →
    (∀ x : Word,
      (isNaN x = true ∨ flt x lo = true → fclamp x lo hi = lo) ∧
      (flt hi x = true → fclamp x lo hi = hi) ∧
      (fle lo x = true → fle x hi = true → fclamp x lo hi = x) ∧
      isNaN (fclamp x lo hi) = false ∧ fle lo (fclamp x lo hi) = true ∧ fle (fclamp x lo hi) hi = true) ∧
    fclamp (infOf false) lo hi = hi ∧ fclamp (infOf true) lo hi = lo

/-- R118: the integers the block converts (divisors, tap indices, `O`) convert exactly, and back. -/
def Obligations.IntegerConversionIsExact : Prop :=
  ∀ k : Nat, k ≤ 2 ^ 24 → isFinite (itof k) = true ∧ value (itof k) = k * 2 ^ 149 ∧ ftoiFloor (itof k) = k
end

