-- ==== Sys2Proof/Laws/Decode.lean ====
section
/-! SUPPORT. The fields of a header and of a divisor word, said once, and framing. -/

namespace Sys2Proof

/-! ## The header fields of a header put together from its fields -/

@[simp] theorem hdrOpc_mkHeader (opc nw imm : BitVec 8) : hdrOpc (mkHeader opc nw imm) = opc := by
  apply BitVec.eq_of_getLsbD_eq
  intro i hi
  simp only [hdrOpc, mkHeader, BitVec.getLsbD_extractLsb', BitVec.getLsbD_append]
  interval_cases i <;> simp

@[simp] theorem hdrNW_mkHeader (opc nw imm : BitVec 8) : hdrNW (mkHeader opc nw imm) = nw.toNat := by
  have : (mkHeader opc nw imm).extractLsb' 16 8 = nw := by
    apply BitVec.eq_of_getLsbD_eq
    intro i hi
    simp only [mkHeader, BitVec.getLsbD_extractLsb', BitVec.getLsbD_append]
    interval_cases i <;> simp
  rw [hdrNW, this]

@[simp] theorem hdrRsv_mkHeader (opc nw imm : BitVec 8) : hdrRsv (mkHeader opc nw imm) = 0#8 := by
  apply BitVec.eq_of_getLsbD_eq
  intro i hi
  simp only [hdrRsv, mkHeader, BitVec.getLsbD_extractLsb', BitVec.getLsbD_append]
  interval_cases i <;> simp

@[simp] theorem hdrImm_mkHeader (opc nw imm : BitVec 8) : hdrImm (mkHeader opc nw imm) = imm := by
  apply BitVec.eq_of_getLsbD_eq
  intro i hi
  simp only [hdrImm, mkHeader, BitVec.getLsbD_extractLsb', BitVec.getLsbD_append]
  interval_cases i <;> simp

/-- A header whose reserved byte is zero is put together from its other fields. -/
theorem mkHeader_fields {h : Word} (hr : hdrRsv h = 0#8) :
    mkHeader (hdrOpc h) (BitVec.ofNat 8 (hdrNW h)) (hdrImm h) = h := by
  apply BitVec.eq_of_getLsbD_eq
  intro i hi
  have hz : ∀ j, j < 8 → h.getLsbD (8 + j) = false := by
    intro j hj
    have := congrArg (fun b : BitVec 8 => b.getLsbD j) hr
    simpa [hdrRsv, BitVec.getLsbD_extractLsb', hj] using this
  have hn : BitVec.ofNat 8 (hdrNW h) = h.extractLsb' 16 8 := by
    apply BitVec.eq_of_toNat_eq
    simp only [hdrNW, BitVec.toNat_ofNat]
    exact Nat.mod_eq_of_lt (h.extractLsb' 16 8).isLt
  rw [hn]
  simp only [mkHeader, hdrOpc, hdrImm, BitVec.getLsbD_append, BitVec.getLsbD_extractLsb']
  have := hz 0; have := hz 1; have := hz 2; have := hz 3
  have := hz 4; have := hz 5; have := hz 6; have := hz 7
  interval_cases i <;> simp_all

theorem hdrNW_lt (h : Word) : hdrNW h < 256 := (h.extractLsb' 16 8).isLt

/-! ## Divisor words -/

theorem divisorFields_divisorWord {d : Lanes Nat} (h : divisorsFit d) : divisorFields (divisorWord d) = d := by
  obtain ⟨h0, h1, h2, h3⟩ := h
  have key : ∀ (i : Nat) (b : BitVec 8) (n : Nat), n < 256 → b = BitVec.ofNat 8 n →
      (divisorWord d).extractLsb' (8 * i) 8 = b → ((divisorWord d).extractLsb' (8 * i) 8).toNat = n := by
    intro i b n hn hb he
    rw [he, hb, BitVec.toNat_ofNat, Nat.mod_eq_of_lt hn]
  apply congr (congr (congr (congrArg Lanes.mk ?_) ?_) ?_) ?_
  · refine key 0 _ _ h0 rfl ?_
    apply BitVec.eq_of_getLsbD_eq
    intro i hi
    simp only [divisorWord, BitVec.getLsbD_extractLsb', BitVec.getLsbD_append]
    interval_cases i <;> simp
  · refine key 1 _ _ h1 rfl ?_
    apply BitVec.eq_of_getLsbD_eq
    intro i hi
    simp only [divisorWord, BitVec.getLsbD_extractLsb', BitVec.getLsbD_append]
    interval_cases i <;> simp
  · refine key 2 _ _ h2 rfl ?_
    apply BitVec.eq_of_getLsbD_eq
    intro i hi
    simp only [divisorWord, BitVec.getLsbD_extractLsb', BitVec.getLsbD_append]
    interval_cases i <;> simp
  · refine key 3 _ _ h3 rfl ?_
    apply BitVec.eq_of_getLsbD_eq
    intro i hi
    simp only [divisorWord, BitVec.getLsbD_extractLsb', BitVec.getLsbD_append]
    interval_cases i <;> simp

theorem divisorWord_divisorFields (w : Word) : divisorWord (divisorFields w) = w := by
  have hb : ∀ k, BitVec.ofNat 8 (w.extractLsb' k 8).toNat = w.extractLsb' k 8 := by
    intro k
    apply BitVec.eq_of_toNat_eq
    rw [BitVec.toNat_ofNat, Nat.mod_eq_of_lt (w.extractLsb' k 8).isLt]
  apply BitVec.eq_of_getLsbD_eq
  intro i hi
  simp only [divisorWord, divisorFields, Lanes.ofFn, hb, BitVec.getLsbD_append, BitVec.getLsbD_extractLsb']
  interval_cases i <;> simp

theorem divisorFields_fit (w : Word) : divisorsFit (divisorFields w) :=
  ⟨BitVec.isLt _, BitVec.isLt _, BitVec.isLt _, BitVec.isLt _⟩

/-! ## Opcodes and framing -/

@[simp] theorem opcodeOf_opcodeByte (o : Opcode) : opcodeOf (opcodeByte o) = some o := by
  cases o <;> decide

theorem opcodeByte_of_opcodeOf {b : BitVec 8} {o : Opcode} (h : opcodeOf b = some o) : opcodeByte o = b := by
  have := List.find?_some h
  simpa using this

theorem opcodeOf_eq_none_iff (b : BitVec 8) : opcodeOf b = none ↔ 8 < b.toNat := by
  revert b
  decide

/-- The framing of a stream that begins with a whole command. -/
theorem frameCommand_append {h : Word} {ops rest : List Word} (hl : ops.length = hdrNW h) :
    frameCommand (h :: (ops ++ rest)) = some (h, ops, rest) := by
  simp [frameCommand, ← hl]

/-- What framing answers, said once. -/
theorem frameCommand_eq_some {ws : List Word} {h : Word} {ops rest : List Word}
    (hf : frameCommand ws = some (h, ops, rest)) : ws = h :: (ops ++ rest) ∧ ops.length = hdrNW h := by
  cases ws with
  | nil => simp [frameCommand] at hf
  | cons w ws =>
    simp only [frameCommand] at hf
    split at hf
    · cases hf
    · rename_i hlt
      simp only [Option.some.injEq, Prod.mk.injEq] at hf
      obtain ⟨rfl, rfl, rfl⟩ := hf
      exact ⟨by simp, by simp; omega⟩

theorem frameCommand_eq_none {ws : List Word} :
    frameCommand ws = none ↔ ws = [] ∨ ∃ h tail, ws = h :: tail ∧ tail.length < hdrNW h := by
  cases ws with
  | nil => simp [frameCommand]
  | cons h tail =>
    simp only [frameCommand]
    by_cases hl : tail.length < hdrNW h <;> simp [hl]

/-! ## The decode checks -/

/-- With as many operand words as the row has, the operands assemble. -/
theorem assemble_isSome {o : Opcode} {imm : BitVec 8} {ops : List Word} (h : ops.length = operandWords o) :
    ∃ i, assemble o imm ops = some i := by
  cases o <;> simp only [operandWords] at h
  all_goals
    rcases ops with _ | ⟨a, _ | ⟨b, _ | ⟨c, _ | ⟨d, _ | ⟨e, _ | ⟨f, _ | ⟨g, l⟩⟩⟩⟩⟩⟩⟩ <;>
      first | (simp at h; done) | exact ⟨_, rfl⟩

/-- What the decode checks answer for a whole command, said once: which check fails first, or the command. -/
theorem decodeCommand_cases (h : Word) (ops : List Word) (hl : ops.length = hdrNW h) :
    (opcodeOf (hdrOpc h) = none ∧ decodeCommand h ops = .error .illegalOpcode) ∨
    ∃ o, opcodeOf (hdrOpc h) = some o ∧
      ((hdrNW h ≠ operandWords o ∧ decodeCommand h ops = .error .badLength) ∨
       (hdrNW h = operandWords o ∧ (hdrRsv h ≠ 0#8 ∨ hdrImm h &&& unusedImm o ≠ 0#8) ∧
          decodeCommand h ops = .error .reservedNonzero) ∨
       (hdrNW h = operandWords o ∧ hdrRsv h = 0#8 ∧ hdrImm h &&& unusedImm o = 0#8 ∧
          ∃ i, assemble o (hdrImm h) ops = some i ∧ decodeCommand h ops = .ok i)) := by
  unfold decodeCommand
  cases ho : opcodeOf (hdrOpc h) with
  | none => simp
  | some o =>
    right
    refine ⟨o, rfl, ?_⟩
    by_cases h1 : hdrNW h = operandWords o
    · by_cases h2 : hdrRsv h ≠ 0#8 ∨ hdrImm h &&& unusedImm o ≠ 0#8
      · exact .inr (.inl ⟨h1, h2, by simp [h1, h2]⟩)
      · obtain ⟨i, hi⟩ := assemble_isSome (imm := hdrImm h) (hl.trans h1)
        push Not at h2
        exact .inr (.inr ⟨h1, h2.1, h2.2, i, hi, by simp [h1, h2, hi]⟩)
    · exact .inl ⟨h1, by simp [h1]⟩

end Sys2Proof
end

