-- ==== Sys2Proof/Laws/Float.lean ====
section
/-! SUPPORT. What binary32 arithmetic does, said once: every operation on finite operands rounds an exact quotient of
integers (`roundKey`), rounding is monotone and leaves a representable value as it is, and comparisons compare
`orderKey`. -/

namespace Sys2Proof.Machine

/-! ## Bits -/

/-- Exponent and fraction fields as one number: the bit pattern without its sign. -/
def low31 (x : Word) : Nat := (x.extractLsb' 0 31).toNat

/-- The magnitude (units of 2^-149) of the finite value whose unsigned bit pattern is `b`. -/
def magOfBits (b : Nat) : Nat :=
  if b / 2 ^ 23 = 0 then b % 2 ^ 23 else (2 ^ 23 + b % 2 ^ 23) * 2 ^ (b / 2 ^ 23 - 1)

theorem low31_eq (x : Word) : low31 x = x.toNat % 2 ^ 31 := by
  simp [low31, BitVec.extractLsb'_toNat]

theorem expField_eq (x : Word) : expField x = low31 x / 2 ^ 23 := by
  rw [low31_eq]
  simp only [expField, BitVec.extractLsb'_toNat, Nat.shiftRight_eq_div_pow]
  omega

theorem fracField_eq (x : Word) : fracField x = low31 x % 2 ^ 23 := by
  rw [low31_eq]
  simp only [fracField, BitVec.extractLsb'_toNat, Nat.shiftRight_eq_div_pow]
  omega

theorem low31_lt (x : Word) : low31 x < 2 ^ 31 := by
  rw [low31_eq]; omega

theorem signBit_eq (x : Word) : signBit x = decide (2 ^ 31 ≤ x.toNat) := by
  have := x.isLt
  simp only [signBit, BitVec.getLsbD, Nat.testBit_eq_decide_div_mod_eq]
  rw [decide_eq_decide]
  omega

theorem word_ext {x y : Word} (hs : signBit x = signBit y) (hl : low31 x = low31 y) : x = y := by
  apply BitVec.eq_of_toNat_eq
  have hx := x.isLt; have hy := y.isLt
  rw [signBit_eq, signBit_eq, decide_eq_decide] at hs
  rw [low31_eq, low31_eq] at hl
  omega

theorem isNaN_iff (x : Word) : isNaN x = true ↔ 0x7F800000 < low31 x := by
  have := low31_lt x
  simp only [isNaN, expField_eq, fracField_eq, Bool.and_eq_true, beq_iff_eq, bne_iff_ne]
  omega

theorem isInf_iff (x : Word) : isInf x = true ↔ low31 x = 0x7F800000 := by
  have := low31_lt x
  simp only [isInf, expField_eq, fracField_eq, Bool.and_eq_true, beq_iff_eq]
  omega

theorem isFinite_iff (x : Word) : isFinite x = true ↔ low31 x < 0x7F800000 := by
  have := low31_lt x
  simp only [isFinite, expField_eq, bne_iff_ne]
  omega

theorem isNaN_of_finite {x : Word} (h : isFinite x = true) : isNaN x = false := by
  rw [isFinite_iff] at h
  rw [← Bool.not_eq_true, isNaN_iff]; omega

theorem isInf_of_finite {x : Word} (h : isFinite x = true) : isInf x = false := by
  rw [isFinite_iff] at h
  rw [← Bool.not_eq_true, isInf_iff]; omega

theorem magnitude_eq (x : Word) : magnitude x = magOfBits (low31 x) := by
  simp only [magnitude, magOfBits, expField_eq, fracField_eq, Nat.shiftLeft_eq]

/-- A word is a NaN, an infinity or finite, and only one of them. -/
theorem finite_iff_not (x : Word) : isFinite x = true ↔ isNaN x = false ∧ isInf x = false := by
  rw [← Bool.not_eq_true, ← Bool.not_eq_true, isNaN_iff, isInf_iff, isFinite_iff]; omega

theorem signBit_negate (x : Word) : signBit (negate x) = !signBit x := by
  simp [signBit, negate]

theorem low31_negate (x : Word) : low31 (negate x) = low31 x := by
  have : (negate x).extractLsb' 0 31 = x.extractLsb' 0 31 := by
    apply BitVec.eq_of_getElem_eq
    intro i hi
    have h : Nat.testBit 2147483648 i = false := by interval_cases i <;> rfl
    simp [negate, BitVec.getElem_extractLsb', BitVec.getLsbD, h]
  rw [low31, this, low31]

/-! ## Order of magnitudes -/

theorem magOfBits_lt_succ (b : Nat) : magOfBits b < magOfBits (b + 1) := by
  unfold magOfBits
  by_cases hb : (b + 1) % 2 ^ 23 = 0
  · have h1 : (b + 1) / 2 ^ 23 = b / 2 ^ 23 + 1 := by omega
    have h2 : b % 2 ^ 23 = 2 ^ 23 - 1 := by omega
    rw [h1, hb, h2]
    rcases Nat.eq_zero_or_pos (b / 2 ^ 23) with h0 | h0
    · rw [if_pos h0, if_neg (by omega), h0]
      norm_num
    · obtain ⟨e, he⟩ : ∃ e, b / 2 ^ 23 = e + 1 := ⟨b / 2 ^ 23 - 1, by omega⟩
      have hp : 0 < 2 ^ e := by positivity
      rw [he]
      rw [if_neg (by omega), if_neg (by omega), Nat.add_sub_cancel, Nat.add_sub_cancel, pow_succ 2 e]
      omega
  · have h1 : (b + 1) / 2 ^ 23 = b / 2 ^ 23 := by omega
    have h2 : (b + 1) % 2 ^ 23 = b % 2 ^ 23 + 1 := by omega
    rw [h1, h2]
    split
    · omega
    · exact Nat.mul_lt_mul_of_pos_right (by omega) (by positivity)

theorem magOfBits_strictMono : StrictMono magOfBits := strictMono_nat_of_lt_succ magOfBits_lt_succ

@[simp] theorem magOfBits_zero : magOfBits 0 = 0 := by simp [magOfBits]

theorem isZero_iff (x : Word) : isZero x = true ↔ low31 x = 0 := by
  simp only [isZero, Bool.and_eq_true, isFinite_iff, beq_iff_eq, magnitude_eq]
  constructor
  · rintro ⟨-, h⟩
    exact magOfBits_strictMono.injective (h.trans magOfBits_zero.symm)
  · intro h; rw [h]; exact ⟨by norm_num, magOfBits_zero⟩

theorem orderKey_eq (x : Word) : orderKey x = if signBit x then -(low31 x : Int) else low31 x := rfl

theorem value_eq (x : Word) : value x = if signBit x then -(magOfBits (low31 x) : Int) else magOfBits (low31 x) := by
  rw [value, magnitude_eq]

/-- The integer value is an increasing function of the order key. -/
def valueOfKey (k : Int) : Int := if k < 0 then -(magOfBits k.natAbs : Int) else magOfBits k.natAbs

theorem value_eq_valueOfKey (x : Word) : value x = valueOfKey (orderKey x) := by
  rw [value_eq, orderKey_eq, valueOfKey]
  cases signBit x
  · simp
  · rcases Nat.eq_zero_or_pos (low31 x) with h | h
    · simp [h]
    · simp [h]

theorem valueOfKey_strictMono : StrictMono valueOfKey := by
  intro a b h
  unfold valueOfKey
  split <;> split
  · have : magOfBits b.natAbs < magOfBits a.natAbs := magOfBits_strictMono (by omega)
    omega
  · have : magOfBits 0 < magOfBits a.natAbs := magOfBits_strictMono (by omega)
    rw [magOfBits_zero] at this
    omega
  · omega
  · have : magOfBits a.natAbs < magOfBits b.natAbs := magOfBits_strictMono (by omega)
    omega

theorem value_lt_iff (x y : Word) : value x < value y ↔ orderKey x < orderKey y := by
  rw [value_eq_valueOfKey, value_eq_valueOfKey, valueOfKey_strictMono.lt_iff_lt]

theorem value_le_iff (x y : Word) : value x ≤ value y ↔ orderKey x ≤ orderKey y := by
  rw [value_eq_valueOfKey, value_eq_valueOfKey, valueOfKey_strictMono.le_iff_le]

/-! ## Rounding to an integer -/

/-- The two forms of a rounded quotient, with the quotient's remainder. -/
theorem roundQuot_cases (num den : Nat) (hd : 0 < den) :
    ∃ p r, num = p + r ∧ r < den ∧ r = num % den ∧
      ((roundQuot num den * den = p + den ∧ (den < 2 * r ∨ 2 * r = den ∧ roundQuot num den % 2 = 0)) ∨
       (roundQuot num den * den = p ∧ (2 * r < den ∨ 2 * r = den ∧ roundQuot num den % 2 = 0))) := by
  refine ⟨num / den * den, num % den, (Nat.div_add_mod' num den).symm, Nat.mod_lt _ hd, rfl, ?_⟩
  unfold roundQuot
  simp only
  split
  · left; refine ⟨by ring, ?_⟩; omega
  · right; refine ⟨rfl, ?_⟩; omega

/-- `roundQuot` is within half a unit, from below. -/
theorem roundQuot_le (num den : Nat) (hd : 0 < den) : 2 * (roundQuot num den * den) ≤ 2 * num + den := by
  obtain ⟨p, r, h₁, h₂, -, h⟩ := roundQuot_cases num den hd
  omega

/-- `roundQuot` is within half a unit, from above. -/
theorem le_roundQuot (num den : Nat) (hd : 0 < den) : 2 * num ≤ 2 * (roundQuot num den * den) + den := by
  obtain ⟨p, r, h₁, h₂, -, h⟩ := roundQuot_cases num den hd
  omega

/-- A tie goes to the even integer. -/
theorem roundQuot_even_of_tie (num den : Nat) (hd : 0 < den)
    (h : 2 * num = 2 * (roundQuot num den * den) + den ∨ 2 * num + den = 2 * (roundQuot num den * den)) :
    roundQuot num den % 2 = 0 := by
  obtain ⟨p, r, h₁, h₂, -, h'⟩ := roundQuot_cases num den hd
  omega

@[simp] theorem roundQuot_mul (k den : Nat) (hd : 0 < den) : roundQuot (k * den) den = k := by
  simp only [roundQuot, Nat.mul_div_cancel _ hd, Nat.mul_mod_left]
  rw [if_neg (by omega)]

theorem roundQuot_mono {n₁ d₁ n₂ d₂ : Nat} (h₁ : 0 < d₁) (h₂ : 0 < d₂) (h : n₁ * d₂ ≤ n₂ * d₁) :
    roundQuot n₁ d₁ ≤ roundQuot n₂ d₂ := by
  by_contra hc
  push Not at hc
  set r₁ := roundQuot n₁ d₁ with hr₁
  set r₂ := roundQuot n₂ d₂ with hr₂
  have a := roundQuot_le n₁ d₁ h₁
  have b := le_roundQuot n₂ d₂ h₂
  rw [← hr₁] at a
  rw [← hr₂] at b
  have hd : 0 < d₁ * d₂ := Nat.mul_pos h₁ h₂
  have a' : 2 * (r₁ * (d₁ * d₂)) ≤ 2 * (n₁ * d₂) + d₁ * d₂ := by nlinarith
  have b' : 2 * (n₂ * d₁) ≤ 2 * (r₂ * (d₁ * d₂)) + d₁ * d₂ := by nlinarith
  have e : r₁ = r₂ + 1 := by
    by_contra hne
    have : r₂ + 2 ≤ r₁ := by omega
    nlinarith
  rw [e] at a'
  have hn : n₁ * d₂ = n₂ * d₁ := by nlinarith
  have t₁ : 2 * n₁ + d₁ = 2 * (r₁ * d₁) := by
    have : (2 * n₁ + d₁) * d₂ = 2 * (r₁ * d₁) * d₂ := by rw [e]; nlinarith
    exact Nat.eq_of_mul_eq_mul_right h₂ this
  have t₂ : 2 * n₂ = 2 * (r₂ * d₂) + d₂ := by
    have : (2 * n₂) * d₁ = (2 * (r₂ * d₂) + d₂) * d₁ := by nlinarith
    exact Nat.eq_of_mul_eq_mul_right h₁ this
  have p₁ := roundQuot_even_of_tie n₁ d₁ h₁ (Or.inr (by rw [← hr₁]; exact t₁))
  have p₂ := roundQuot_even_of_tie n₂ d₂ h₂ (Or.inl (by rw [← hr₂]; exact t₂))
  rw [← hr₁] at p₁
  rw [← hr₂] at p₂
  omega

/-! ## Rounding to a binary32 magnitude -/

theorem log2_le_of_le {a b : Nat} (h : a ≤ b) : a.log2 ≤ b.log2 := by
  rcases Nat.eq_zero_or_pos a with rfl | ha
  · simp
  · exact (Nat.le_log2 (by omega)).mpr ((Nat.log2_self_le (by omega)).trans h)

theorem gridExp_le_of_le {a b : Nat} (h : a ≤ b) : gridExp a ≤ gridExp b :=
  Nat.sub_le_sub_right (log2_le_of_le h) 23

/-- The rounded significand never exceeds 2^24. -/
theorem significand_le (num den : Nat) (hd : 0 < den) :
    roundQuot num (den <<< gridExp (num / den)) ≤ 2 ^ 24 := by
  set e := gridExp (num / den) with he
  have hq : num / den < 2 ^ (e + 24) := by
    have : (num / den) < 2 ^ ((num / den).log2 + 1) := Nat.lt_log2_self
    refine lt_of_lt_of_le this (Nat.pow_le_pow_right (by norm_num) ?_)
    rw [he]; unfold gridExp; omega
  have hn : num < 2 ^ (e + 24) * den := (Nat.div_lt_iff_lt_mul hd).mp hq
  have hp : 0 < den <<< e := by rw [Nat.shiftLeft_eq]; positivity
  calc roundQuot num (den <<< e) ≤ roundQuot (2 ^ 24 * (den <<< e)) (den <<< e) := by
        apply roundQuot_mono hp hp
        apply Nat.mul_le_mul_right
        rw [Nat.shiftLeft_eq]
        calc num ≤ 2 ^ (e + 24) * den := hn.le
          _ = 2 ^ 24 * (den * 2 ^ e) := by rw [pow_add]; ring
    _ = 2 ^ 24 := roundQuot_mul _ _ hp

/-- Above the lowest grid the rounded significand has its top bit. -/
theorem le_significand (num den : Nat) (hd : 0 < den) (he : 1 ≤ gridExp (num / den)) :
    2 ^ 23 ≤ roundQuot num (den <<< gridExp (num / den)) := by
  set e := gridExp (num / den) with he'
  have hq : 2 ^ (e + 23) ≤ num / den := by
    have h0 : num / den ≠ 0 := by
      intro h0
      rw [he', h0] at he
      simp [gridExp] at he
    refine le_trans (Nat.pow_le_pow_right (by norm_num) ?_) (Nat.log2_self_le h0)
    rw [he'] at he ⊢; unfold gridExp at he ⊢; omega
  have hn : 2 ^ (e + 23) * den ≤ num := (Nat.le_div_iff_mul_le hd).mp hq
  have hp : 0 < den <<< e := by rw [Nat.shiftLeft_eq]; positivity
  calc 2 ^ 23 = roundQuot (2 ^ 23 * (den <<< e)) (den <<< e) := (roundQuot_mul _ _ hp).symm
    _ ≤ roundQuot num (den <<< e) := by
        apply roundQuot_mono hp hp
        apply Nat.mul_le_mul_right
        rw [Nat.shiftLeft_eq]
        calc 2 ^ 23 * (den * 2 ^ e) = 2 ^ (e + 23) * den := by rw [pow_add]; ring
          _ ≤ num := hn

theorem packMagnitude_le (num den : Nat) (hd : 0 < den) : packMagnitude num den ≤ 0x7F800000 := by
  unfold packMagnitude
  simp only
  split
  · exact le_refl _
  · have h := significand_le num den hd
    have : gridExp (num / den) ≤ 253 := by unfold gridExp; omega
    rw [Nat.shiftLeft_eq]
    omega

/-- Rounding is monotone in the quotient. -/
theorem packMagnitude_mono {n₁ d₁ n₂ d₂ : Nat} (h₁ : 0 < d₁) (h₂ : 0 < d₂) (h : n₁ * d₂ ≤ n₂ * d₁) :
    packMagnitude n₁ d₁ ≤ packMagnitude n₂ d₂ := by
  have hq : n₁ / d₁ ≤ n₂ / d₂ := by
    rw [Nat.le_div_iff_mul_le h₂]
    have : n₁ / d₁ * d₁ ≤ n₁ := Nat.div_mul_le_self _ _
    have : n₁ / d₁ * d₂ * d₁ ≤ n₂ * d₁ := by nlinarith
    exact Nat.le_of_mul_le_mul_right this h₁
  by_cases hbig : 277 ≤ (n₂ / d₂).log2
  · have : packMagnitude n₂ d₂ = 0x7F800000 := by simp [packMagnitude, hbig]
    rw [this]
    exact packMagnitude_le _ _ h₁
  · have hl := log2_le_of_le hq
    have hsmall : ¬ 277 ≤ (n₁ / d₁).log2 := by omega
    unfold packMagnitude
    simp only [hbig, hsmall, if_false, Nat.shiftLeft_eq]
    have he := gridExp_le_of_le hq
    rcases he.lt_or_eq with hlt | heq
    · have a := significand_le n₁ d₁ h₁
      have b := le_significand n₂ d₂ h₂ (by omega)
      rw [Nat.shiftLeft_eq] at a b
      omega
    · rw [heq]
      apply Nat.add_le_add_left
      have hp : 0 < 2 ^ gridExp (n₂ / d₂) := by positivity
      apply roundQuot_mono (by positivity) (by positivity)
      nlinarith

/-- A representable magnitude is rounded to itself. -/
theorem packMagnitude_magOfBits (b : Nat) (hb : b < 0x7F800000) : packMagnitude (magOfBits b) 1 = b := by
  unfold packMagnitude
  simp only [Nat.div_one, one_mul, Nat.shiftLeft_eq]
  unfold magOfBits
  by_cases h0 : b / 2 ^ 23 = 0
  · rw [if_pos h0]
    have hl : (b % 2 ^ 23).log2 ≤ 22 := by
      rcases Nat.eq_zero_or_pos (b % 2 ^ 23) with h | h
      · rw [h]; simp
      · have := (Nat.log2_lt (n := b % 2 ^ 23) (k := 23) (by omega)).mpr (by omega)
        omega
    have hg : gridExp (b % 2 ^ 23) = 0 := by unfold gridExp; omega
    rw [if_neg (by omega), hg]
    have := roundQuot_mul (b % 2 ^ 23) 1 one_pos
    simp only [mul_one] at this
    simp only [pow_zero, zero_mul, zero_add, this]
    omega
  · rw [if_neg h0]
    obtain ⟨e, he⟩ : ∃ e, b / 2 ^ 23 = e + 1 := ⟨b / 2 ^ 23 - 1, by omega⟩
    rw [he, Nat.add_sub_cancel]
    set m := 2 ^ 23 + b % 2 ^ 23 with hm
    have hm1 : 2 ^ 23 ≤ m := by omega
    have hm2 : m < 2 ^ 24 := by omega
    have hl : (m * 2 ^ e).log2 = e + 23 := by
      have hne : m * 2 ^ e ≠ 0 := by positivity
      apply le_antisymm
      · have : m * 2 ^ e < 2 ^ (e + 24) := by
          rw [pow_add, mul_comm (2 ^ e)]; exact Nat.mul_lt_mul_of_pos_right hm2 (by positivity)
        have := (Nat.log2_lt hne).mpr this
        omega
      · rw [Nat.le_log2 hne, pow_add, mul_comm (2 ^ e)]
        exact Nat.mul_le_mul_right _ hm1
    have hg : gridExp (m * 2 ^ e) = e := by unfold gridExp; omega
    rw [if_neg (by rw [hl]; omega), hg, roundQuot_mul m (2 ^ e) (by positivity)]
    omega

/-! ## Signed rounding and the operations -/

/-- The order key of the binary32 value nearest to `v / den` units of 2^-149. -/
def roundKey (v : Int) (den : Nat) : Int :=
  if v < 0 then -(packMagnitude v.natAbs den : Int) else packMagnitude v.natAbs den

@[simp] theorem packMagnitude_zero (den : Nat) (hd : 0 < den) : packMagnitude 0 den = 0 := by
  have h := packMagnitude_mono (n₁ := 0) (d₁ := den) (n₂ := magOfBits 0) (d₂ := 1) hd one_pos (by simp)
  rw [packMagnitude_magOfBits 0 (by norm_num)] at h
  omega

theorem roundKey_mono {v₁ v₂ : Int} {d₁ d₂ : Nat} (h₁ : 0 < d₁) (h₂ : 0 < d₂) (h : v₁ * d₂ ≤ v₂ * d₁) :
    roundKey v₁ d₁ ≤ roundKey v₂ d₂ := by
  have hd₁ : (0 : Int) < d₁ := by exact_mod_cast h₁
  have hd₂ : (0 : Int) < d₂ := by exact_mod_cast h₂
  unfold roundKey
  split <;> split
  · rename_i ha hb
    have : packMagnitude v₂.natAbs d₂ ≤ packMagnitude v₁.natAbs d₁ := by
      apply packMagnitude_mono h₂ h₁
      zify
      rw [abs_of_neg ha, abs_of_neg hb]
      nlinarith
    omega
  · omega
  · rename_i ha hb
    exfalso
    push Not at ha
    have : v₂ * d₁ < 0 := mul_neg_of_neg_of_pos hb hd₁
    have : 0 ≤ v₁ * d₂ := mul_nonneg ha hd₂.le
    omega
  · rename_i ha hb
    push Not at ha hb
    have : packMagnitude v₁.natAbs d₁ ≤ packMagnitude v₂.natAbs d₂ := by
      apply packMagnitude_mono h₁ h₂
      zify
      rw [abs_of_nonneg ha, abs_of_nonneg hb]
      exact h
    omega

theorem roundKey_value {x : Word} (hx : isFinite x = true) : roundKey (value x) 1 = orderKey x := by
  rw [isFinite_iff] at hx
  rw [value_eq, orderKey_eq, roundKey]
  cases hs : signBit x
  · simp [packMagnitude_magOfBits _ hx]
  · simp only [if_true, Int.natAbs_neg, Int.natAbs_natCast, packMagnitude_magOfBits _ hx]
    split
    · rfl
    · have : magOfBits (low31 x) = 0 := by omega
      have : low31 x = 0 := magOfBits_strictMono.injective (this.trans magOfBits_zero.symm)
      simp [this]

theorem pack_toNat (s : Bool) (num den : Nat) (hd : 0 < den) :
    (pack s num den).toNat = (if s then 2 ^ 31 else 0) + packMagnitude num den := by
  have := packMagnitude_le num den hd
  rw [pack, BitVec.toNat_ofNat, Nat.mod_eq_of_lt]
  split <;> omega

theorem low31_pack (s : Bool) (num den : Nat) (hd : 0 < den) : low31 (pack s num den) = packMagnitude num den := by
  have := packMagnitude_le num den hd
  rw [low31_eq, pack_toNat s num den hd]
  split <;> omega

theorem signBit_pack (s : Bool) (num den : Nat) (hd : 0 < den) : signBit (pack s num den) = s := by
  have := packMagnitude_le num den hd
  rw [signBit_eq, pack_toNat s num den hd]
  cases s <;> simp
  all_goals omega

theorem isNaN_pack (s : Bool) (num den : Nat) (hd : 0 < den) : isNaN (pack s num den) = false := by
  have := packMagnitude_le num den hd
  rw [← Bool.not_eq_true, isNaN_iff, low31_pack s num den hd]
  omega

theorem isNaN_iff_orderKey (x : Word) : isNaN x = true ↔ 0x7F800000 < (orderKey x).natAbs := by
  rw [isNaN_iff, orderKey_eq]
  split <;> simp

theorem isFinite_iff_orderKey (x : Word) : isFinite x = true ↔ (orderKey x).natAbs < 0x7F800000 := by
  rw [isFinite_iff, orderKey_eq]
  split <;> simp

theorem flt_iff {a b : Word} (ha : isNaN a = false) (hb : isNaN b = false) :
    flt a b = true ↔ orderKey a < orderKey b := by
  simp [flt, comparable, ha, hb]

theorem fle_iff {a b : Word} (ha : isNaN a = false) (hb : isNaN b = false) :
    fle a b = true ↔ orderKey a ≤ orderKey b := by
  simp [fle, comparable, ha, hb]

theorem not_nan_of_fle {a b : Word} (h : fle a b = true) : isNaN a = false ∧ isNaN b = false := by
  simp only [fle, comparable, Bool.and_eq_true, Bool.not_eq_true'] at h
  exact h.1

theorem not_nan_of_flt {a b : Word} (h : flt a b = true) : isNaN a = false ∧ isNaN b = false := by
  simp only [flt, comparable, Bool.and_eq_true, Bool.not_eq_true'] at h
  exact h.1

theorem orderKey_le_of_fle {a b : Word} (h : fle a b = true) : orderKey a ≤ orderKey b :=
  (fle_iff (not_nan_of_fle h).1 (not_nan_of_fle h).2).mp h

theorem orderKey_lt_of_flt {a b : Word} (h : flt a b = true) : orderKey a < orderKey b :=
  (flt_iff (not_nan_of_flt h).1 (not_nan_of_flt h).2).mp h

@[simp] theorem orderKey_negate (x : Word) : orderKey (negate x) = -orderKey x := by
  rw [orderKey_eq, orderKey_eq, signBit_negate, low31_negate]
  cases signBit x <;> simp

@[simp] theorem value_negate (x : Word) : value (negate x) = -value x := by
  rw [value_eq, value_eq, signBit_negate, low31_negate]
  cases signBit x <;> simp

@[simp] theorem isFinite_negate (x : Word) : isFinite (negate x) = isFinite x := by
  rw [Bool.eq_iff_iff, isFinite_iff, isFinite_iff, low31_negate]

@[simp] theorem isNaN_negate (x : Word) : isNaN (negate x) = isNaN x := by
  rw [Bool.eq_iff_iff, isNaN_iff, isNaN_iff, low31_negate]

theorem orderKey_zeroOf (s : Bool) : orderKey (zeroOf s) = 0 := by cases s <;> decide

theorem isNaN_zeroOf (s : Bool) : isNaN (zeroOf s) = false := by cases s <;> decide

theorem orderKey_pack (s : Bool) (num den : Nat) (hd : 0 < den) :
    orderKey (pack s num den) = if s then -(packMagnitude num den : Int) else packMagnitude num den := by
  rw [orderKey_eq, signBit_pack s num den hd, low31_pack s num den hd]

/-- The sum of finite values: no NaN, and the rounded exact sum. -/
theorem fadd_finite {q a b : Word} (ha : isFinite a = true) (hb : isFinite b = true) :
    isNaN (fadd q a b) = false ∧ orderKey (fadd q a b) = roundKey (value a + value b) 1 := by
  unfold fadd
  simp only [isNaN_of_finite ha, isNaN_of_finite hb, isInf_of_finite ha, isInf_of_finite hb, Bool.or_self,
    Bool.false_eq_true, if_false]
  split
  · rename_i h
    refine ⟨isNaN_zeroOf _, ?_⟩
    rw [orderKey_zeroOf, h]
    simp [roundKey]
  · refine ⟨isNaN_pack _ _ _ one_pos, ?_⟩
    rw [orderKey_pack _ _ _ one_pos, roundKey]
    simp only [decide_eq_true_eq]

/-- The difference of finite values. -/
theorem fsub_finite {q a b : Word} (ha : isFinite a = true) (hb : isFinite b = true) :
    isNaN (fsub q a b) = false ∧ orderKey (fsub q a b) = roundKey (value a - value b) 1 := by
  have h := fadd_finite (q := q) ha (show isFinite (negate b) = true by rw [isFinite_negate]; exact hb)
  rw [value_negate, ← sub_eq_add_neg] at h
  simpa [fsub, isNaN_of_finite hb] using h

/-- The product of finite values: no NaN, the sign of R112, and the rounded exact product. -/
theorem fmul_finite {q a b : Word} (ha : isFinite a = true) (hb : isFinite b = true) :
    isNaN (fmul q a b) = false ∧ signBit (fmul q a b) = (signBit a != signBit b) ∧
      low31 (fmul q a b) = packMagnitude (magnitude a * magnitude b) (2 ^ 149) := by
  unfold fmul
  simp only [isNaN_of_finite ha, isNaN_of_finite hb, isInf_of_finite ha, isInf_of_finite hb, Bool.or_self,
    Bool.false_eq_true, if_false]
  exact ⟨isNaN_pack _ _ _ (by positivity), signBit_pack _ _ _ (by positivity), low31_pack _ _ _ (by positivity)⟩

/-- The quotient of finite values with a divisor that is no zero. -/
theorem fdiv_finite {q a b : Word} (ha : isFinite a = true) (hb : isFinite b = true) (h0 : isZero b = false) :
    isNaN (fdiv q a b) = false ∧ signBit (fdiv q a b) = (signBit a != signBit b) ∧
      low31 (fdiv q a b) = packMagnitude (magnitude a * 2 ^ 149) (magnitude b) := by
  have hp : 0 < magnitude b := by
    rcases Nat.eq_zero_or_pos (magnitude b) with h | h
    · simp [isZero, hb, h] at h0
    · exact h
  unfold fdiv
  simp only [isNaN_of_finite ha, isNaN_of_finite hb, isInf_of_finite ha, isInf_of_finite hb, h0, Bool.or_self,
    Bool.false_eq_true, if_false]
  exact ⟨isNaN_pack _ _ _ hp, signBit_pack _ _ _ hp, low31_pack _ _ _ hp⟩

/-- An operation whose result is no NaN does not depend on the NaN that was drawn. -/
theorem fadd_draw {q a b : Word} (q' : Word) (h : isNaN (fadd q a b) = false) (hq : isNaN q = true) :
    fadd q' a b = fadd q a b := by
  unfold fadd at h ⊢
  split
  · rename_i hn; rw [if_pos hn] at h; rw [hq] at h; cases h
  · rename_i hn; rw [if_neg hn] at h
    split
    · rename_i hi; rw [if_pos hi] at h
      split
      · rename_i hj; rw [if_pos hj] at h; rw [hq] at h; cases h
      · rfl
    · rfl

theorem fmul_draw {q a b : Word} (q' : Word) (h : isNaN (fmul q a b) = false) (hq : isNaN q = true) :
    fmul q' a b = fmul q a b := by
  unfold fmul at h ⊢
  split
  · rename_i hn; rw [if_pos hn] at h; rw [hq] at h; cases h
  · rename_i hn; rw [if_neg hn] at h
    split
    · rename_i hi; rw [if_pos hi] at h
      split
      · rename_i hj; rw [if_pos hj] at h; rw [hq] at h; cases h
      · rfl
    · rfl

@[simp] theorem isNaN_quietNaN (s : Bool) (p : BitVec 22) : isNaN (quietNaN s p) = true := by
  rw [isNaN_iff, low31_eq]
  have h : (quietNaN s p).toNat = s.toNat * 2 ^ 31 + 0x7FC00000 + p.toNat := by
    have hp := p.isLt
    simp only [quietNaN, BitVec.toNat_append, BitVec.toNat_ofBool]
    rw [← Nat.shiftLeft_add_eq_or_of_lt (b := p.toNat) (by omega),
      ← Nat.shiftLeft_add_eq_or_of_lt (by norm_num), ← Nat.shiftLeft_add_eq_or_of_lt (by norm_num)]
    simp only [Nat.shiftLeft_eq, BitVec.toNat_ofNat]
    norm_num
    ring
  have := p.isLt
  rw [h]
  cases s <;> simp <;> omega

end Sys2Proof.Machine
end

