-- ==== Sys2Proof/Laws/State.lean ====
section
/-! SUPPORT. One lemma per field per update of the state and of a lane, true by rfl, and the lemmas of the containers. -/

namespace Sys2Proof

/-! ## Containers -/

@[simp] theorem Lanes.get_ofFn {α : Type} (f : Fin 4 → α) (i : Fin 4) : (Lanes.ofFn f).get i = f i := by
  fin_cases i <;> rfl

@[simp] theorem Lanes.get_map {α β : Type} (f : α → β) (v : Lanes α) (i : Fin 4) : (v.map f).get i = f (v.get i) := by
  fin_cases i <;> rfl

@[simp] theorem Lanes.get_all {α : Type} (x : α) (i : Fin 4) : (Lanes.all x).get i = x := by
  fin_cases i <;> rfl

theorem Lanes.ext_get {α : Type} {v w : Lanes α} (h : ∀ i, v.get i = w.get i) : v = w := by
  cases v; cases w
  have h0 := h 0; have h1 := h 1; have h2 := h 2; have h3 := h 3
  simp_all [Lanes.get]

theorem Lanes.mem_toList {α : Type} {v : Lanes α} {x : α} : x ∈ v.toList ↔ ∃ i, v.get i = x := by
  constructor
  · intro h
    simp only [Lanes.toList, List.mem_cons, List.not_mem_nil, or_false] at h
    rcases h with rfl | rfl | rfl | rfl
    exacts [⟨0, rfl⟩, ⟨1, rfl⟩, ⟨2, rfl⟩, ⟨3, rfl⟩]
  · rintro ⟨i, rfl⟩
    fin_cases i <;> simp [Lanes.toList, Lanes.get]

theorem Lanes.all_toList {α : Type} {v : Lanes α} {p : α → Bool} : v.toList.all p = true ↔ ∀ i, p (v.get i) = true := by
  rw [List.all_eq_true]
  exact ⟨fun h i => h _ (Lanes.mem_toList.mpr ⟨i, rfl⟩), fun h x hx => by
    obtain ⟨i, rfl⟩ := Lanes.mem_toList.mp hx
    exact h i⟩

@[simp] theorem Lanes.length_toList {α : Type} (v : Lanes α) : v.toList.length = 4 := rfl

@[simp] theorem Subs.get_set_self {α : Type} (v : Subs α) (k : Sub) (x : α) : (v.set k x).get k = x := by
  cases k <;> rfl

@[simp] theorem Subs.set_get {α : Type} (v : Subs α) (k : Sub) : v.set k (v.get k) = v := by
  cases k <;> rfl

theorem Subs.get_set_ne {α : Type} (v : Subs α) {k j : Sub} (x : α) (h : j ≠ k) : (v.set k x).get j = v.get j := by
  cases k <;> cases j <;> first | rfl | exact absurd rfl h

@[simp] theorem Subs.get_all {α : Type} (x : α) (k : Sub) : (Subs.all x).get k = x := by
  cases k <;> rfl

@[simp] theorem Sources.get_set_self {α : Type} (v : Sources α) (k : Source) (x : α) : (v.set k x).get k = x := by
  cases k <;> rfl

theorem Sources.get_set_ne {α : Type} (v : Sources α) {k j : Source} (x : α) (h : j ≠ k) :
    (v.set k x).get j = v.get j := by
  cases k <;> cases j <;> first | rfl | exact absurd rfl h

@[simp] theorem Sources.set_set {α : Type} (v : Sources α) (k : Source) (x y : α) : (v.set k x).set k y = v.set k y := by
  cases k <;> rfl

@[simp] theorem Sources.set_get {α : Type} (v : Sources α) (k : Source) : v.set k (v.get k) = v := by
  cases k <;> rfl

@[simp] theorem Sources.get_all {α : Type} (x : α) (k : Source) : (Sources.all x).get k = x := by
  cases k <;> rfl

namespace Machine

/-! ## Updates of the state -/

@[simp] theorem State.respond_lanes (s : State) (cause : BitVec 8) (data : List Word) : (s.respond cause data).lanes = s.lanes := rfl
@[simp] theorem State.respond_pos (s : State) (cause : BitVec 8) (data : List Word) : (s.respond cause data).pos = s.pos := rfl
@[simp] theorem State.respond_n (s : State) (cause : BitVec 8) (data : List Word) : (s.respond cause data).n = s.n := rfl
@[simp] theorem State.respond_status (s : State) (cause : BitVec 8) (data : List Word) : (s.respond cause data).status = s.status := rfl
@[simp] theorem State.respond_frame (s : State) (cause : BitVec 8) (data : List Word) : (s.respond cause data).frame = s.frame := rfl
@[simp] theorem State.respond_cmd (s : State) (cause : BitVec 8) (data : List Word) : (s.respond cause data).cmd = s.cmd := rfl
@[simp] theorem State.respond_rsp (s : State) (cause : BitVec 8) (data : List Word) : (s.respond cause data).rsp = s.rsp ++ responseWord cause data.length :: data := rfl
@[simp] theorem State.respond_draws (s : State) (cause : BitVec 8) (data : List Word) : (s.respond cause data).draws = s.draws := rfl

@[simp] theorem State.done_lanes (s : State) : (s.done).lanes = s.lanes := rfl
@[simp] theorem State.done_pos (s : State) : (s.done).pos = s.pos := rfl
@[simp] theorem State.done_n (s : State) : (s.done).n = s.n := rfl
@[simp] theorem State.done_status (s : State) : (s.done).status = s.status := rfl
@[simp] theorem State.done_frame (s : State) : (s.done).frame = s.frame := rfl
@[simp] theorem State.done_cmd (s : State) : (s.done).cmd = s.cmd := rfl
@[simp] theorem State.done_rsp (s : State) : (s.done).rsp = s.rsp ++ [0#32] := rfl
@[simp] theorem State.done_draws (s : State) : (s.done).draws = s.draws := rfl

@[simp] theorem State.reject_lanes (s : State) (c : Cause) : (s.reject c).lanes = s.lanes := rfl
@[simp] theorem State.reject_pos (s : State) (c : Cause) : (s.reject c).pos = s.pos := rfl
@[simp] theorem State.reject_n (s : State) (c : Cause) : (s.reject c).n = s.n := rfl
@[simp] theorem State.reject_status (s : State) (c : Cause) : (s.reject c).status = s.status.rejected c := rfl
@[simp] theorem State.reject_frame (s : State) (c : Cause) : (s.reject c).frame = s.frame := rfl
@[simp] theorem State.reject_cmd (s : State) (c : Cause) : (s.reject c).cmd = s.cmd := rfl
@[simp] theorem State.reject_rsp (s : State) (c : Cause) : (s.reject c).rsp = s.rsp ++ [responseWord (causeCode c) 0] := rfl
@[simp] theorem State.reject_draws (s : State) (c : Cause) : (s.reject c).draws = s.draws := rfl

@[simp] theorem State.consumed_lanes (s : State) (rest : List Word) : (s.consumed rest).lanes = s.lanes := rfl
@[simp] theorem State.consumed_pos (s : State) (rest : List Word) : (s.consumed rest).pos = s.pos := rfl
@[simp] theorem State.consumed_n (s : State) (rest : List Word) : (s.consumed rest).n = s.n := rfl
@[simp] theorem State.consumed_status (s : State) (rest : List Word) : (s.consumed rest).status = s.status := rfl
@[simp] theorem State.consumed_frame (s : State) (rest : List Word) : (s.consumed rest).frame = [] := rfl
@[simp] theorem State.consumed_cmd (s : State) (rest : List Word) : (s.consumed rest).cmd = rest := rfl
@[simp] theorem State.consumed_rsp (s : State) (rest : List Word) : (s.consumed rest).rsp = s.rsp := rfl
@[simp] theorem State.consumed_draws (s : State) (rest : List Word) : (s.consumed rest).draws = s.draws := rfl

@[simp] theorem State.await_lanes (s : State) : (s.await).lanes = s.lanes := rfl
@[simp] theorem State.await_pos (s : State) : (s.await).pos = s.pos := rfl
@[simp] theorem State.await_n (s : State) : (s.await).n = s.n := rfl
@[simp] theorem State.await_status (s : State) : (s.await).status = s.status := rfl
@[simp] theorem State.await_frame (s : State) : (s.await).frame = s.frame ++ s.cmd := rfl
@[simp] theorem State.await_cmd (s : State) : (s.await).cmd = [] := rfl
@[simp] theorem State.await_rsp (s : State) : (s.await).rsp = s.rsp := rfl
@[simp] theorem State.await_draws (s : State) : (s.await).draws = s.draws := rfl

@[simp] theorem State.withFetchWord_lanes (s : State) (nbits w : Nat) : (s.withFetchWord nbits w).lanes = s.lanes := rfl
@[simp] theorem State.withFetchWord_pos (s : State) (nbits w : Nat) : (s.withFetchWord nbits w).pos = s.pos := rfl
@[simp] theorem State.withFetchWord_n (s : State) (nbits w : Nat) : (s.withFetchWord nbits w).n = s.n := rfl
@[simp] theorem State.withFetchWord_status (s : State) (nbits w : Nat) : (s.withFetchWord nbits w).status = s.status := rfl
@[simp] theorem State.withFetchWord_frame (s : State) (nbits w : Nat) : (s.withFetchWord nbits w).frame = [] := rfl
@[simp] theorem State.withFetchWord_cmd (s : State) (nbits w : Nat) : (s.withFetchWord nbits w).cmd = tableWords nbits w ++ s.cmd := rfl
@[simp] theorem State.withFetchWord_rsp (s : State) (nbits w : Nat) : (s.withFetchWord nbits w).rsp = s.rsp := rfl
@[simp] theorem State.withFetchWord_draws (s : State) (nbits w : Nat) : (s.withFetchWord nbits w).draws = s.draws := rfl

@[simp] theorem setWaveform_lanes (m k : BitVec 4) (s : State) : (setWaveform m k s).lanes = Lanes.ofFn fun i =>
      { s.lane i with mainIsSaw := m.getLsbD i.val, subIsSaw := k.getLsbD i.val } := rfl
@[simp] theorem setWaveform_pos (m k : BitVec 4) (s : State) : (setWaveform m k s).pos = s.pos := rfl
@[simp] theorem setWaveform_n (m k : BitVec 4) (s : State) : (setWaveform m k s).n = s.n := rfl
@[simp] theorem setWaveform_status (m k : BitVec 4) (s : State) : (setWaveform m k s).status = s.status.setStale := rfl
@[simp] theorem setWaveform_frame (m k : BitVec 4) (s : State) : (setWaveform m k s).frame = s.frame := rfl
@[simp] theorem setWaveform_cmd (m k : BitVec 4) (s : State) : (setWaveform m k s).cmd = s.cmd := rfl
@[simp] theorem setWaveform_rsp (m k : BitVec 4) (s : State) : (setWaveform m k s).rsp = s.rsp := rfl
@[simp] theorem setWaveform_draws (m k : BitVec 4) (s : State) : (setWaveform m k s).draws = s.draws := rfl

@[simp] theorem setupState_lanes (c : Config) (nn : Nat) (pitch : Lanes Word) (dA dB : Lanes Nat) (s : State) : (setupState c nn pitch dA dB s).lanes = Lanes.ofFn fun i =>
      setupLane c [i.val, s.draws] (active nn i) (pitch.get i) (dA.get i) (dB.get i) (s.lane i) := rfl
@[simp] theorem setupState_pos (c : Config) (nn : Nat) (pitch : Lanes Word) (dA dB : Lanes Nat) (s : State) : (setupState c nn pitch dA dB s).pos = s.pos := rfl
@[simp] theorem setupState_n (c : Config) (nn : Nat) (pitch : Lanes Word) (dA dB : Lanes Nat) (s : State) : (setupState c nn pitch dA dB s).n = nn := rfl
@[simp] theorem setupState_status (c : Config) (nn : Nat) (pitch : Lanes Word) (dA dB : Lanes Nat) (s : State) : (setupState c nn pitch dA dB s).status = s.status.setStale := rfl
@[simp] theorem setupState_frame (c : Config) (nn : Nat) (pitch : Lanes Word) (dA dB : Lanes Nat) (s : State) : (setupState c nn pitch dA dB s).frame = s.frame := rfl
@[simp] theorem setupState_cmd (c : Config) (nn : Nat) (pitch : Lanes Word) (dA dB : Lanes Nat) (s : State) : (setupState c nn pitch dA dB s).cmd = s.cmd := rfl
@[simp] theorem setupState_rsp (c : Config) (nn : Nat) (pitch : Lanes Word) (dA dB : Lanes Nat) (s : State) : (setupState c nn pitch dA dB s).rsp = s.rsp := rfl
@[simp] theorem setupState_draws (c : Config) (nn : Nat) (pitch : Lanes Word) (dA dB : Lanes Nat) (s : State) : (setupState c nn pitch dA dB s).draws = s.draws + 1 := rfl

@[simp] theorem setPulseWidths_lanes (w : Lanes Word) (s : State) : (setPulseWidths w s).lanes = Lanes.ofFn fun i => { s.lane i with pw := w.get i } := rfl
@[simp] theorem setPulseWidths_pos (w : Lanes Word) (s : State) : (setPulseWidths w s).pos = s.pos := rfl
@[simp] theorem setPulseWidths_n (w : Lanes Word) (s : State) : (setPulseWidths w s).n = s.n := rfl
@[simp] theorem setPulseWidths_status (w : Lanes Word) (s : State) : (setPulseWidths w s).status = s.status.setStale := rfl
@[simp] theorem setPulseWidths_frame (w : Lanes Word) (s : State) : (setPulseWidths w s).frame = s.frame := rfl
@[simp] theorem setPulseWidths_cmd (w : Lanes Word) (s : State) : (setPulseWidths w s).cmd = s.cmd := rfl
@[simp] theorem setPulseWidths_rsp (w : Lanes Word) (s : State) : (setPulseWidths w s).rsp = s.rsp := rfl
@[simp] theorem setPulseWidths_draws (w : Lanes Word) (s : State) : (setPulseWidths w s).draws = s.draws := rfl

@[simp] theorem offsetState_lanes (c : Config) (t : Word) (s : State) : (offsetState c t s).lanes = Lanes.ofFn fun i => offsetLane c [i.val, s.draws] t (s.lane i) := rfl
@[simp] theorem offsetState_pos (c : Config) (t : Word) (s : State) : (offsetState c t s).pos = s.pos := rfl
@[simp] theorem offsetState_n (c : Config) (t : Word) (s : State) : (offsetState c t s).n = s.n := rfl
@[simp] theorem offsetState_status (c : Config) (t : Word) (s : State) : (offsetState c t s).status = s.status.clearStale := rfl
@[simp] theorem offsetState_frame (c : Config) (t : Word) (s : State) : (offsetState c t s).frame = s.frame := rfl
@[simp] theorem offsetState_cmd (c : Config) (t : Word) (s : State) : (offsetState c t s).cmd = s.cmd := rfl
@[simp] theorem offsetState_rsp (c : Config) (t : Word) (s : State) : (offsetState c t s).rsp = s.rsp := rfl
@[simp] theorem offsetState_draws (c : Config) (t : Word) (s : State) : (offsetState c t s).draws = s.draws + 1 := rfl

@[simp] theorem advanceLanes_lanes (c : Config) (t : Word) (s : State) : (advanceLanes c t s).lanes = Lanes.ofFn fun i =>
      if active s.n i then processLane c [i.val, s.draws] s.pos t (s.lane i) else s.lane i := rfl
@[simp] theorem advanceLanes_pos (c : Config) (t : Word) (s : State) : (advanceLanes c t s).pos = s.pos := rfl
@[simp] theorem advanceLanes_n (c : Config) (t : Word) (s : State) : (advanceLanes c t s).n = s.n := rfl
@[simp] theorem advanceLanes_status (c : Config) (t : Word) (s : State) : (advanceLanes c t s).status = s.status := rfl
@[simp] theorem advanceLanes_frame (c : Config) (t : Word) (s : State) : (advanceLanes c t s).frame = s.frame := rfl
@[simp] theorem advanceLanes_cmd (c : Config) (t : Word) (s : State) : (advanceLanes c t s).cmd = s.cmd := rfl
@[simp] theorem advanceLanes_rsp (c : Config) (t : Word) (s : State) : (advanceLanes c t s).rsp = s.rsp := rfl
@[simp] theorem advanceLanes_draws (c : Config) (t : Word) (s : State) : (advanceLanes c t s).draws = s.draws := rfl

@[simp] theorem writeOutputs_lanes (c : Config) (kM kA kB : Lanes Word) (s : State) : (writeOutputs c kM kA kB s).lanes = Lanes.ofFn fun i =>
      outputLane c [i.val, s.draws] (active s.n i) (kM.get i) (kA.get i) (kB.get i) (s.lane i) := rfl
@[simp] theorem writeOutputs_pos (c : Config) (kM kA kB : Lanes Word) (s : State) : (writeOutputs c kM kA kB s).pos = s.pos := rfl
@[simp] theorem writeOutputs_n (c : Config) (kM kA kB : Lanes Word) (s : State) : (writeOutputs c kM kA kB s).n = s.n := rfl
@[simp] theorem writeOutputs_status (c : Config) (kM kA kB : Lanes Word) (s : State) : (writeOutputs c kM kA kB s).status = s.status := rfl
@[simp] theorem writeOutputs_frame (c : Config) (kM kA kB : Lanes Word) (s : State) : (writeOutputs c kM kA kB s).frame = s.frame := rfl
@[simp] theorem writeOutputs_cmd (c : Config) (kM kA kB : Lanes Word) (s : State) : (writeOutputs c kM kA kB s).cmd = s.cmd := rfl
@[simp] theorem writeOutputs_rsp (c : Config) (kM kA kB : Lanes Word) (s : State) : (writeOutputs c kM kA kB s).rsp = s.rsp := rfl
@[simp] theorem writeOutputs_draws (c : Config) (kM kA kB : Lanes Word) (s : State) : (writeOutputs c kM kA kB s).draws = s.draws := rfl

@[simp] theorem kbProcess_lanes (c : Config) (src : Source) (s : State) : ((kbProcess c src s).2).lanes = s.lanes.map fun ln => bufWrite ln src (s.pos.get src) posZero := rfl
@[simp] theorem kbProcess_pos (c : Config) (src : Source) (s : State) : ((kbProcess c src s).2).pos = s.pos.set src (ringIndex c (s.pos.get src) 1) := rfl
@[simp] theorem kbProcess_n (c : Config) (src : Source) (s : State) : ((kbProcess c src s).2).n = s.n := rfl
@[simp] theorem kbProcess_status (c : Config) (src : Source) (s : State) : ((kbProcess c src s).2).status = s.status := rfl
@[simp] theorem kbProcess_frame (c : Config) (src : Source) (s : State) : ((kbProcess c src s).2).frame = s.frame := rfl
@[simp] theorem kbProcess_cmd (c : Config) (src : Source) (s : State) : ((kbProcess c src s).2).cmd = s.cmd := rfl
@[simp] theorem kbProcess_rsp (c : Config) (src : Source) (s : State) : ((kbProcess c src s).2).rsp = s.rsp := rfl
@[simp] theorem kbProcess_draws (c : Config) (src : Source) (s : State) : ((kbProcess c src s).2).draws = s.draws := rfl

/-! ## Updates of STATUS -/

@[simp] theorem Status.rejected_errIllegal (st : Status) (c : Cause) : (st.rejected c).errIllegal = (st.errIllegal || !causeIsCfg c) := rfl
@[simp] theorem Status.rejected_errCfg (st : Status) (c : Cause) : (st.rejected c).errCfg = (st.errCfg || causeIsCfg c) := rfl
@[simp] theorem Status.rejected_errSeq (st : Status) (c : Cause) : (st.rejected c).errSeq = st.errSeq := rfl
@[simp] theorem Status.rejected_stale (st : Status) (c : Cause) : (st.rejected c).stale = st.stale := rfl
@[simp] theorem Status.rejected_lastCause (st : Status) (c : Cause) : (st.rejected c).lastCause = causeCode c := rfl

@[simp] theorem Status.setStale_errIllegal (st : Status) : (st.setStale).errIllegal = st.errIllegal := rfl
@[simp] theorem Status.setStale_errCfg (st : Status) : (st.setStale).errCfg = st.errCfg := rfl
@[simp] theorem Status.setStale_errSeq (st : Status) : (st.setStale).errSeq = st.errSeq := rfl
@[simp] theorem Status.setStale_stale (st : Status) : (st.setStale).stale = true := rfl
@[simp] theorem Status.setStale_lastCause (st : Status) : (st.setStale).lastCause = st.lastCause := rfl

@[simp] theorem Status.clearStale_errIllegal (st : Status) : (st.clearStale).errIllegal = st.errIllegal := rfl
@[simp] theorem Status.clearStale_errCfg (st : Status) : (st.clearStale).errCfg = st.errCfg := rfl
@[simp] theorem Status.clearStale_errSeq (st : Status) : (st.clearStale).errSeq = st.errSeq := rfl
@[simp] theorem Status.clearStale_stale (st : Status) : (st.clearStale).stale = false := rfl
@[simp] theorem Status.clearStale_lastCause (st : Status) : (st.clearStale).lastCause = st.lastCause := rfl

@[simp] theorem Status.recordSeq_errIllegal (st : Status) : (st.recordSeq).errIllegal = st.errIllegal := rfl
@[simp] theorem Status.recordSeq_errCfg (st : Status) : (st.recordSeq).errCfg = st.errCfg := rfl
@[simp] theorem Status.recordSeq_errSeq (st : Status) : (st.recordSeq).errSeq = (st.errSeq || st.stale) := rfl
@[simp] theorem Status.recordSeq_stale (st : Status) : (st.recordSeq).stale = st.stale := rfl
@[simp] theorem Status.recordSeq_lastCause (st : Status) : (st.recordSeq).lastCause = st.lastCause := rfl

/-! ## Updates of a lane -/

@[simp] theorem bufWrite_phase (ln : Lane) (src : Source) (a : Nat) (v : Word) : (bufWrite ln src a v).phase = ln.phase := rfl
@[simp] theorem bufWrite_subPhase (ln : Lane) (src : Source) (a : Nat) (v : Word) : (bufWrite ln src a v).subPhase = ln.subPhase := rfl
@[simp] theorem bufWrite_freq (ln : Lane) (src : Source) (a : Nat) (v : Word) : (bufWrite ln src a v).freq = ln.freq := rfl
@[simp] theorem bufWrite_subFreq (ln : Lane) (src : Source) (a : Nat) (v : Word) : (bufWrite ln src a v).subFreq = ln.subFreq := rfl
@[simp] theorem bufWrite_div (ln : Lane) (src : Source) (a : Nat) (v : Word) : (bufWrite ln src a v).div = ln.div := rfl
@[simp] theorem bufWrite_cnt (ln : Lane) (src : Source) (a : Nat) (v : Word) : (bufWrite ln src a v).cnt = ln.cnt := rfl
@[simp] theorem bufWrite_pw (ln : Lane) (src : Source) (a : Nat) (v : Word) : (bufWrite ln src a v).pw = ln.pw := rfl
@[simp] theorem bufWrite_mainIsSaw (ln : Lane) (src : Source) (a : Nat) (v : Word) : (bufWrite ln src a v).mainIsSaw = ln.mainIsSaw := rfl
@[simp] theorem bufWrite_subIsSaw (ln : Lane) (src : Source) (a : Nat) (v : Word) : (bufWrite ln src a v).subIsSaw = ln.subIsSaw := rfl
@[simp] theorem bufWrite_dcMain (ln : Lane) (src : Source) (a : Nat) (v : Word) : (bufWrite ln src a v).dcMain = ln.dcMain := rfl
@[simp] theorem bufWrite_dcSub (ln : Lane) (src : Source) (a : Nat) (v : Word) : (bufWrite ln src a v).dcSub = ln.dcSub := rfl
@[simp] theorem bufWrite_outMain (ln : Lane) (src : Source) (a : Nat) (v : Word) : (bufWrite ln src a v).outMain = ln.outMain := rfl
@[simp] theorem bufWrite_outSub (ln : Lane) (src : Source) (a : Nat) (v : Word) : (bufWrite ln src a v).outSub = ln.outSub := rfl
@[simp] theorem bufWrite_syncDir (ln : Lane) (src : Source) (a : Nat) (v : Word) : (bufWrite ln src a v).syncDir = ln.syncDir := rfl
@[simp] theorem bufWrite_buf (ln : Lane) (src : Source) (a : Nat) (v : Word) : (bufWrite ln src a v).buf = ln.buf.set src ((ln.buf.get src).set a v) := rfl

@[simp] theorem setDivisors_phase (dA dB : Nat) (ln : Lane) : (setDivisors dA dB ln).phase = ln.phase := rfl
@[simp] theorem setDivisors_subPhase (dA dB : Nat) (ln : Lane) : (setDivisors dA dB ln).subPhase = ln.subPhase := rfl
@[simp] theorem setDivisors_freq (dA dB : Nat) (ln : Lane) : (setDivisors dA dB ln).freq = ln.freq := rfl
@[simp] theorem setDivisors_subFreq (dA dB : Nat) (ln : Lane) : (setDivisors dA dB ln).subFreq = ln.subFreq := rfl
@[simp] theorem setDivisors_div (dA dB : Nat) (ln : Lane) : (setDivisors dA dB ln).div = ⟨dA, dB⟩ := rfl
@[simp] theorem setDivisors_cnt (dA dB : Nat) (ln : Lane) : (setDivisors dA dB ln).cnt = ⟨min ln.cnt.a dA, min ln.cnt.b dB⟩ := rfl
@[simp] theorem setDivisors_pw (dA dB : Nat) (ln : Lane) : (setDivisors dA dB ln).pw = ln.pw := rfl
@[simp] theorem setDivisors_mainIsSaw (dA dB : Nat) (ln : Lane) : (setDivisors dA dB ln).mainIsSaw = ln.mainIsSaw := rfl
@[simp] theorem setDivisors_subIsSaw (dA dB : Nat) (ln : Lane) : (setDivisors dA dB ln).subIsSaw = ln.subIsSaw := rfl
@[simp] theorem setDivisors_dcMain (dA dB : Nat) (ln : Lane) : (setDivisors dA dB ln).dcMain = ln.dcMain := rfl
@[simp] theorem setDivisors_dcSub (dA dB : Nat) (ln : Lane) : (setDivisors dA dB ln).dcSub = ln.dcSub := rfl
@[simp] theorem setDivisors_outMain (dA dB : Nat) (ln : Lane) : (setDivisors dA dB ln).outMain = ln.outMain := rfl
@[simp] theorem setDivisors_outSub (dA dB : Nat) (ln : Lane) : (setDivisors dA dB ln).outSub = ln.outSub := rfl
@[simp] theorem setDivisors_syncDir (dA dB : Nat) (ln : Lane) : (setDivisors dA dB ln).syncDir = ln.syncDir := rfl
@[simp] theorem setDivisors_buf (dA dB : Nat) (ln : Lane) : (setDivisors dA dB ln).buf = ln.buf := rfl

@[simp] theorem setFrequencies_phase (c : Config) (d : Draw) (pitch : Word) (dA dB : Nat) (ln : Lane) : (setFrequencies c d pitch dA dB ln).phase = ln.phase := rfl
@[simp] theorem setFrequencies_subPhase (c : Config) (d : Draw) (pitch : Word) (dA dB : Nat) (ln : Lane) : (setFrequencies c d pitch dA dB ln).subPhase = ln.subPhase := rfl
@[simp] theorem setFrequencies_freq (c : Config) (d : Draw) (pitch : Word) (dA dB : Nat) (ln : Lane) : (setFrequencies c d pitch dA dB ln).freq = fsan c (c.p2f pitch) := rfl
@[simp] theorem setFrequencies_subFreq (c : Config) (d : Draw) (pitch : Word) (dA dB : Nat) (ln : Lane) : (setFrequencies c d pitch dA dB ln).subFreq = ⟨fdiv (c.nan (0 :: d)) (fsan c (c.p2f pitch)) (itof dA),
      fdiv (c.nan (1 :: d)) (fsan c (c.p2f pitch)) (itof dB)⟩ := rfl
@[simp] theorem setFrequencies_div (c : Config) (d : Draw) (pitch : Word) (dA dB : Nat) (ln : Lane) : (setFrequencies c d pitch dA dB ln).div = ln.div := rfl
@[simp] theorem setFrequencies_cnt (c : Config) (d : Draw) (pitch : Word) (dA dB : Nat) (ln : Lane) : (setFrequencies c d pitch dA dB ln).cnt = ln.cnt := rfl
@[simp] theorem setFrequencies_pw (c : Config) (d : Draw) (pitch : Word) (dA dB : Nat) (ln : Lane) : (setFrequencies c d pitch dA dB ln).pw = ln.pw := rfl
@[simp] theorem setFrequencies_mainIsSaw (c : Config) (d : Draw) (pitch : Word) (dA dB : Nat) (ln : Lane) : (setFrequencies c d pitch dA dB ln).mainIsSaw = ln.mainIsSaw := rfl
@[simp] theorem setFrequencies_subIsSaw (c : Config) (d : Draw) (pitch : Word) (dA dB : Nat) (ln : Lane) : (setFrequencies c d pitch dA dB ln).subIsSaw = ln.subIsSaw := rfl
@[simp] theorem setFrequencies_dcMain (c : Config) (d : Draw) (pitch : Word) (dA dB : Nat) (ln : Lane) : (setFrequencies c d pitch dA dB ln).dcMain = ln.dcMain := rfl
@[simp] theorem setFrequencies_dcSub (c : Config) (d : Draw) (pitch : Word) (dA dB : Nat) (ln : Lane) : (setFrequencies c d pitch dA dB ln).dcSub = ln.dcSub := rfl
@[simp] theorem setFrequencies_outMain (c : Config) (d : Draw) (pitch : Word) (dA dB : Nat) (ln : Lane) : (setFrequencies c d pitch dA dB ln).outMain = ln.outMain := rfl
@[simp] theorem setFrequencies_outSub (c : Config) (d : Draw) (pitch : Word) (dA dB : Nat) (ln : Lane) : (setFrequencies c d pitch dA dB ln).outSub = ln.outSub := rfl
@[simp] theorem setFrequencies_syncDir (c : Config) (d : Draw) (pitch : Word) (dA dB : Nat) (ln : Lane) : (setFrequencies c d pitch dA dB ln).syncDir = ln.syncDir := rfl
@[simp] theorem setFrequencies_buf (c : Config) (d : Draw) (pitch : Word) (dA dB : Nat) (ln : Lane) : (setFrequencies c d pitch dA dB ln).buf = ln.buf := rfl

@[simp] theorem silence_phase (ln : Lane) : (silence ln).phase = posZero := rfl
@[simp] theorem silence_subPhase (ln : Lane) : (silence ln).subPhase = Subs.all posZero := rfl
@[simp] theorem silence_freq (ln : Lane) : (silence ln).freq = posZero := rfl
@[simp] theorem silence_subFreq (ln : Lane) : (silence ln).subFreq = Subs.all posZero := rfl
@[simp] theorem silence_div (ln : Lane) : (silence ln).div = ln.div := rfl
@[simp] theorem silence_cnt (ln : Lane) : (silence ln).cnt = ln.cnt := rfl
@[simp] theorem silence_pw (ln : Lane) : (silence ln).pw = ln.pw := rfl
@[simp] theorem silence_mainIsSaw (ln : Lane) : (silence ln).mainIsSaw = ln.mainIsSaw := rfl
@[simp] theorem silence_subIsSaw (ln : Lane) : (silence ln).subIsSaw = ln.subIsSaw := rfl
@[simp] theorem silence_dcMain (ln : Lane) : (silence ln).dcMain = ln.dcMain := rfl
@[simp] theorem silence_dcSub (ln : Lane) : (silence ln).dcSub = ln.dcSub := rfl
@[simp] theorem silence_outMain (ln : Lane) : (silence ln).outMain = posZero := rfl
@[simp] theorem silence_outSub (ln : Lane) : (silence ln).outSub = Subs.all posZero := rfl
@[simp] theorem silence_syncDir (ln : Lane) : (silence ln).syncDir = ln.syncDir := rfl
@[simp] theorem silence_buf (ln : Lane) : (silence ln).buf = ln.buf := rfl

@[simp] theorem offsetLane_phase (c : Config) (d : Draw) (t : Word) (ln : Lane) : (offsetLane c d t ln).phase = ln.phase := rfl
@[simp] theorem offsetLane_subPhase (c : Config) (d : Draw) (t : Word) (ln : Lane) : (offsetLane c d t ln).subPhase = ln.subPhase := rfl
@[simp] theorem offsetLane_freq (c : Config) (d : Draw) (t : Word) (ln : Lane) : (offsetLane c d t ln).freq = ln.freq := rfl
@[simp] theorem offsetLane_subFreq (c : Config) (d : Draw) (t : Word) (ln : Lane) : (offsetLane c d t ln).subFreq = ln.subFreq := rfl
@[simp] theorem offsetLane_div (c : Config) (d : Draw) (t : Word) (ln : Lane) : (offsetLane c d t ln).div = ln.div := rfl
@[simp] theorem offsetLane_cnt (c : Config) (d : Draw) (t : Word) (ln : Lane) : (offsetLane c d t ln).cnt = ln.cnt := rfl
@[simp] theorem offsetLane_pw (c : Config) (d : Draw) (t : Word) (ln : Lane) : (offsetLane c d t ln).pw = ln.pw := rfl
@[simp] theorem offsetLane_mainIsSaw (c : Config) (d : Draw) (t : Word) (ln : Lane) : (offsetLane c d t ln).mainIsSaw = ln.mainIsSaw := rfl
@[simp] theorem offsetLane_subIsSaw (c : Config) (d : Draw) (t : Word) (ln : Lane) : (offsetLane c d t ln).subIsSaw = ln.subIsSaw := rfl
@[simp] theorem offsetLane_dcMain (c : Config) (d : Draw) (t : Word) (ln : Lane) : (offsetLane c d t ln).dcMain = dcOffset c (0 :: d) ln.mainIsSaw t ln.freq ln.pw := rfl
@[simp] theorem offsetLane_dcSub (c : Config) (d : Draw) (t : Word) (ln : Lane) : (offsetLane c d t ln).dcSub = ⟨dcOffset c (1 :: d) ln.subIsSaw t ln.subFreq.a ln.pw,
      dcOffset c (2 :: d) ln.subIsSaw t ln.subFreq.b ln.pw⟩ := rfl
@[simp] theorem offsetLane_outMain (c : Config) (d : Draw) (t : Word) (ln : Lane) : (offsetLane c d t ln).outMain = ln.outMain := rfl
@[simp] theorem offsetLane_outSub (c : Config) (d : Draw) (t : Word) (ln : Lane) : (offsetLane c d t ln).outSub = ln.outSub := rfl
@[simp] theorem offsetLane_syncDir (c : Config) (d : Draw) (t : Word) (ln : Lane) : (offsetLane c d t ln).syncDir = ln.syncDir := rfl
@[simp] theorem offsetLane_buf (c : Config) (d : Draw) (t : Word) (ln : Lane) : (offsetLane c d t ln).buf = ln.buf := rfl

end Machine

end Sys2Proof
end

