-- ==== Sys2Proof/Laws/Kernel.lean ====
section
/-! SUPPORT. What an insertion and a read-out do to a lane, said once: one ring changes and nothing else, no ring changes
its length, each tap lands in its own cell. -/

namespace Sys2Proof.Machine

/-! ## One ring as a list -/

/-- `kbInsertTap` on the cells of its ring. -/
def ringTap (c : Config) (d : Draw) (pos : Nat) (p h : Word) (r : List Word) (j : Nat) : List Word :=
  r.set (ringIndex c pos j) (fadd (c.nan (8 :: j :: d)) (r.getD (ringIndex c pos j) posZero) (kbTap c (j :: d) p h j))

/-- `kbInsert` on the cells of its ring. -/
def ringInsert (c : Config) (d : Draw) (pos : Nat) (p h : Word) (r : List Word) : List Word :=
  (List.range c.ringLen).foldl (ringTap c d pos p h) r

theorem kbInsertTap_eq (c : Config) (d : Draw) (pos : Nat) (src : Source) (p h : Word) (ln : Lane) (j : Nat) :
    kbInsertTap c d pos src p h ln j
      = { ln with buf := ln.buf.set src (ringTap c d pos p h (ln.buf.get src) j) } := rfl

theorem foldl_kbInsertTap_eq (c : Config) (d : Draw) (pos : Nat) (src : Source) (p h : Word) (js : List Nat) (ln : Lane) :
    js.foldl (kbInsertTap c d pos src p h) ln
      = { ln with buf := ln.buf.set src (js.foldl (ringTap c d pos p h) (ln.buf.get src)) } := by
  induction js generalizing ln with
  | nil => simp
  | cons j js ih => rw [List.foldl_cons, List.foldl_cons, ih, kbInsertTap_eq]; simp

/-- KB_INSERT changes the cells of one ring of the lane and nothing else. -/
theorem kbInsert_eq (c : Config) (d : Draw) (pos : Nat) (src : Source) (p h : Word) (ln : Lane) :
    kbInsert c d pos src p h ln = { ln with buf := ln.buf.set src (ringInsert c d pos p h (ln.buf.get src)) } :=
  foldl_kbInsertTap_eq c d pos src p h _ ln

theorem insertAt_eq (c : Config) (d : Draw) (pos : Nat) (src : Source) (x h : Word) (ln : Lane) :
    insertAt c d pos src x h ln
      = { ln with buf := (ln.buf.set src
            (ringInsert c (0 :: d) pos (fsub (c.nan (1 :: d)) x one) h (ln.buf.get src))) } :=
  kbInsert_eq c (0 :: d) pos src _ h ln

/-- The ring of a source after WS_RISE. -/
def riseRing (c : Config) (d : Draw) (pos : Nat) (src : Source) (phi dl : Word) (isSaw : Bool) (ln : Lane) : List Word :=
  if !isSaw && crossed (pulseCross c (0 :: d) ln.pw phi dl) then
    ringInsert c (0 :: 1 :: d) pos (fsub (c.nan (1 :: 1 :: d)) (pulseCross c (0 :: d) ln.pw phi dl) one)
      (fmul (c.nan (2 :: d)) two ln.syncDir) (ln.buf.get src)
  else ln.buf.get src

/-- WS_RISE changes the cells of one ring of the lane and nothing else. -/
theorem wsRise_eq (c : Config) (d : Draw) (pos : Nat) (src : Source) (phi dl : Word) (isSaw : Bool) (ln : Lane) :
    wsRise c d pos src phi dl isSaw ln
      = { ln with buf := ln.buf.set src (riseRing c d pos src phi dl isSaw ln) } := by
  unfold wsRise riseRing
  split
  · exact insertAt_eq _ _ _ _ _ _ _
  · simp

/-- WS_FALL_MAIN changes the cells of the main ring and nothing else. -/
theorem wsFallMain_eq (c : Config) (d : Draw) (pos : Nat) (wc : Word) (ln : Lane) :
    wsFallMain c d pos wc ln
      = { ln with buf := (ln.buf.set .m
            (ringInsert c (0 :: 0 :: d) pos (fsub (c.nan (1 :: 0 :: d)) wc one)
              (fmul (c.nan (1 :: d)) negTwo ln.syncDir) (ln.buf.get .m))) } :=
  insertAt_eq _ _ _ _ _ _ _

/-- SD_TICK when the counter expires: reload, insertion into the sub's own ring, resync. -/
theorem sdTick_expired (c : Config) (d : Draw) (pos : Nat) (k : Sub) (wc ph sigma : Word) (ln : Lane)
    (h : ln.cnt.get k - 1 = 0) :
    sdTick c d pos k wc ph sigma ln
      = ({ ln with
            cnt := ln.cnt.set k (ln.div.get k)
            buf := ln.buf.set k.source (ringInsert c (0 :: 0 :: d) pos (fsub (c.nan (1 :: 0 :: d)) wc one)
              (fmul (c.nan (1 :: d)) negTwo ln.syncDir) (ln.buf.get k.source)) },
          resync c (2 :: d) ph (ln.div.get k)) := by
  simp only [sdTick, h, if_true, insertAt_eq]

/-- SD_TICK when the counter does not expire: one less, nothing else. -/
theorem sdTick_counting (c : Config) (d : Draw) (pos : Nat) (k : Sub) (wc ph sigma : Word) (ln : Lane)
    (h : ln.cnt.get k - 1 ≠ 0) :
    sdTick c d pos k wc ph sigma ln = ({ ln with cnt := ln.cnt.set k (ln.cnt.get k - 1) }, sigma) := by
  simp only [sdTick, h, if_false]

/-! ## Lengths: the form of the ring-buffer space is kept -/

@[simp] theorem length_ringTap (c : Config) (d : Draw) (pos : Nat) (p h : Word) (r : List Word) (j : Nat) :
    (ringTap c d pos p h r j).length = r.length := by
  simp [ringTap]

theorem length_foldl_ringTap (c : Config) (d : Draw) (pos : Nat) (p h : Word) (js : List Nat) (r : List Word) :
    (js.foldl (ringTap c d pos p h) r).length = r.length := by
  induction js generalizing r with
  | nil => rfl
  | cons j js ih => rw [List.foldl_cons, ih, length_ringTap]

@[simp] theorem length_ringInsert (c : Config) (d : Draw) (pos : Nat) (p h : Word) (r : List Word) :
    (ringInsert c d pos p h r).length = r.length :=
  length_foldl_ringTap c d pos p h _ r

@[simp] theorem length_riseRing (c : Config) (d : Draw) (pos : Nat) (src : Source) (phi dl : Word) (isSaw : Bool)
    (ln : Lane) : (riseRing c d pos src phi dl isSaw ln).length = (ln.buf.get src).length := by
  unfold riseRing
  split <;> simp

/-- The lengths of a lane's rings. -/
def ringLengths (ln : Lane) : Sources Nat := ⟨ln.buf.m.length, ln.buf.a.length, ln.buf.b.length⟩

theorem ringLengths_get (ln : Lane) (src : Source) : (ringLengths ln).get src = (ln.buf.get src).length := by
  cases src <;> rfl

/-- Replacing a ring by one of the same length keeps the lengths. -/
theorem ringLengths_set (ln : Lane) (src : Source) (r : List Word) (h : r.length = (ln.buf.get src).length) :
    ringLengths { ln with buf := ln.buf.set src r } = ringLengths ln := by
  cases src <;> simp only [Sources.get] at h <;> simp only [ringLengths, Sources.set, h]

@[simp] theorem ringLengths_bufWrite (ln : Lane) (src : Source) (a : Nat) (v : Word) :
    ringLengths (bufWrite ln src a v) = ringLengths ln :=
  ringLengths_set ln src _ (by simp)

@[simp] theorem ringLengths_kbInsert (c : Config) (d : Draw) (pos : Nat) (src : Source) (p h : Word) (ln : Lane) :
    ringLengths (kbInsert c d pos src p h ln) = ringLengths ln := by
  rw [kbInsert_eq]; exact ringLengths_set ln src _ (by simp)

@[simp] theorem ringLengths_insertAt (c : Config) (d : Draw) (pos : Nat) (src : Source) (x h : Word) (ln : Lane) :
    ringLengths (insertAt c d pos src x h ln) = ringLengths ln := by
  rw [insertAt_eq]; exact ringLengths_set ln src _ (by simp)

@[simp] theorem ringLengths_wsRise (c : Config) (d : Draw) (pos : Nat) (src : Source) (phi dl : Word) (isSaw : Bool)
    (ln : Lane) : ringLengths (wsRise c d pos src phi dl isSaw ln) = ringLengths ln := by
  rw [wsRise_eq]; exact ringLengths_set ln src _ (by simp)

@[simp] theorem ringLengths_wsFallMain (c : Config) (d : Draw) (pos : Nat) (wc : Word) (ln : Lane) :
    ringLengths (wsFallMain c d pos wc ln) = ringLengths ln :=
  ringLengths_insertAt _ _ _ _ _ _ _

@[simp] theorem ringLengths_sdTick (c : Config) (d : Draw) (pos : Nat) (k : Sub) (wc ph sigma : Word) (ln : Lane) :
    ringLengths (sdTick c d pos k wc ph sigma ln).1 = ringLengths ln := by
  unfold sdTick
  simp only
  split
  · exact ringLengths_insertAt _ _ _ _ _ _ _
  · rfl

@[simp] theorem ringLengths_processSub (c : Config) (d : Draw) (pos : Nat) (k : Sub) (wrapped : Bool)
    (wc ph dl sigma : Word) (ln : Lane) :
    ringLengths (processSub c d pos k wrapped wc ph dl sigma ln) = ringLengths ln := by
  unfold processSub
  cases wrapped
  · exact ringLengths_wsRise _ _ _ _ _ _ _ _
  · exact (ringLengths_sdTick _ _ _ _ _ _ _ _).trans (ringLengths_wsRise _ _ _ _ _ _ _ _)

@[simp] theorem ringLengths_processMain (c : Config) (d : Draw) (pos : Nat) (dl phi : Word) (ln : Lane) :
    ringLengths (processMain c d pos dl phi ln) = ringLengths ln := by
  unfold processMain
  simp only
  split
  · exact (ringLengths_wsFallMain _ _ _ _ _).trans (ringLengths_wsRise _ _ _ _ _ _ _ _)
  · exact ringLengths_wsRise _ _ _ _ _ _ _ _

@[simp] theorem ringLengths_processLane (c : Config) (d : Draw) (pos : Sources Nat) (t : Word) (ln : Lane) :
    ringLengths (processLane c d pos t ln) = ringLengths ln := by
  unfold processLane
  simp

@[simp] theorem ringLengths_outputLane (c : Config) (d : Draw) (b : Bool) (kM kA kB : Word) (ln : Lane) :
    ringLengths (outputLane c d b kM kA kB ln) = ringLengths ln := by
  cases b <;> rfl

@[simp] theorem ringLengths_setupLane (c : Config) (d : Draw) (b : Bool) (pitch : Word) (dA dB : Nat) (ln : Lane) :
    ringLengths (setupLane c d b pitch dA dB ln) = ringLengths ln := by
  cases b <;> rfl

theorem Memory.wf_iff (s : State) (l : Nat) : s.memory.wf l ↔ ∀ i, ringLengths (s.lane i) = Sources.all l := by
  constructor
  · intro h i
    have := h ((s.lane i).buf) (Lanes.mem_toList.mpr ⟨i, by simp [State.memory, State.lane]⟩)
    simp [ringLengths, Sources.all, this]
  · intro h r hr
    obtain ⟨i, rfl⟩ := Lanes.mem_toList.mp hr
    have := h i
    simp only [ringLengths, Sources.all, Sources.mk.injEq] at this
    simpa [State.memory, State.lane] using this

/-! ## Cells -/

theorem ringIndex_inj {c : Config} {pos i j : Nat} (hi : i < c.ringLen) (hj : j < c.ringLen)
    (h : ringIndex c pos i = ringIndex c pos j) : i = j := by
  have h' : (pos + i) ≡ (pos + j) [MOD c.ringLen] := h
  have := Nat.ModEq.add_left_cancel' pos h'
  unfold Nat.ModEq at this
  rwa [Nat.mod_eq_of_lt hi, Nat.mod_eq_of_lt hj] at this

theorem ringIndex_lt {c : Config} (hc : 0 < c.ringLen) (pos j : Nat) : ringIndex c pos j < c.ringLen :=
  Nat.mod_lt _ hc

theorem getD_set (r : List Word) (a b : Nat) (v w : Word) (ha : a < r.length) :
    (r.set a v).getD b w = if a = b then v else r.getD b w := by
  simp only [List.getD_eq_getElem?_getD, List.getElem?_set]
  split <;> simp_all

/-- The taps of the first `m` turns are in their cells, the other cells are untouched. -/
theorem getD_foldl_ringTap (c : Config) (d : Draw) (pos : Nat) (p h : Word) (r : List Word)
    (hr : r.length = c.ringLen) (m : Nat) (hm : m ≤ c.ringLen) (i : Nat) (hi : i < c.ringLen) :
    ((List.range m).foldl (ringTap c d pos p h) r).getD (ringIndex c pos i) posZero
      = if i < m then
          fadd (c.nan (8 :: i :: d)) (r.getD (ringIndex c pos i) posZero) (kbTap c (i :: d) p h i)
        else r.getD (ringIndex c pos i) posZero := by
  induction m with
  | zero => simp
  | succ m ih =>
    have ih := ih (by omega)
    rw [List.range_succ, List.foldl_append, List.foldl_cons, List.foldl_nil]
    generalize hg : (List.range m).foldl (ringTap c d pos p h) r = g at ih ⊢
    have hl : g.length = c.ringLen := by rw [← hg, length_foldl_ringTap, hr]
    unfold ringTap
    rw [getD_set _ _ _ _ _ (by rw [hl]; exact ringIndex_lt (by omega) _ _)]
    by_cases he : i = m
    · subst he
      rw [if_pos rfl, if_pos (by omega), ih, if_neg (by omega)]
    · rw [if_neg (fun hh => he (ringIndex_inj (by omega) hi hh).symm), ih]
      by_cases hlt : i < m
      · rw [if_pos hlt, if_pos (by omega)]
      · rw [if_neg hlt, if_neg (by omega)]

/-- Each tap of an insertion is added to its own cell, once. -/
theorem getD_ringInsert (c : Config) (d : Draw) (pos : Nat) (p h : Word) (r : List Word) (hr : r.length = c.ringLen)
    (i : Nat) (hi : i < c.ringLen) :
    (ringInsert c d pos p h r).getD (ringIndex c pos i) posZero
      = fadd (c.nan (8 :: i :: d)) (r.getD (ringIndex c pos i) posZero) (kbTap c (i :: d) p h i) := by
  rw [ringInsert, getD_foldl_ringTap c d pos p h r hr _ le_rfl i hi, if_pos hi]

/-! ## Read-out -/

@[simp] theorem kbProcess_value (c : Config) (src : Source) (s : State) (i : Fin 4) :
    (kbProcess c src s).1.get i = bufRead (s.lane i) src (s.pos.get src) := by
  simp [kbProcess, State.lane]

@[simp] theorem kbProcess_lane (c : Config) (src : Source) (s : State) (i : Fin 4) :
    (kbProcess c src s).2.lane i = bufWrite (s.lane i) src (s.pos.get src) posZero := by
  simp [State.lane]

end Sys2Proof.Machine
end

