-- ==== Sys2Proof/Laws/Memory.lean ====
section
/-! SUPPORT. The ring-buffer space keeps its one form: every operation that writes cells keeps it, and reset has it. -/

namespace Sys2Proof.Machine

theorem reset_memory_wf : State.reset.memory.wf 32 := by decide

/-- A state whose lanes have rings of the same lengths has the form if the first had it. -/
theorem Memory.wf_of_ringLengths {s t : State} {l : Nat} (h : ∀ i, ringLengths (t.lane i) = ringLengths (s.lane i))
    (hs : s.memory.wf l) : t.memory.wf l := by
  rw [Memory.wf_iff] at hs ⊢
  exact fun i => (h i).trans (hs i)

theorem kbProcess_memory_wf {c : Config} {src : Source} {s : State} {l : Nat} (h : s.memory.wf l) :
    (kbProcess c src s).2.memory.wf l :=
  Memory.wf_of_ringLengths (fun i => by simp) h

theorem advanceLanes_memory_wf {c : Config} {t : Word} {s : State} {l : Nat} (h : s.memory.wf l) :
    (advanceLanes c t s).memory.wf l := by
  refine Memory.wf_of_ringLengths (fun i => ?_) h
  simp only [State.lane, advanceLanes_lanes, Lanes.get_ofFn]
  split <;> simp

theorem writeOutputs_memory_wf {c : Config} {kM kA kB : Lanes Word} {s : State} {l : Nat} (h : s.memory.wf l) :
    (writeOutputs c kM kA kB s).memory.wf l :=
  Memory.wf_of_ringLengths (fun i => by simp [State.lane]) h

theorem readOut_memory_wf {c : Config} {s : State} {l : Nat} (h : s.memory.wf l) : (readOut c s).memory.wf l :=
  writeOutputs_memory_wf (kbProcess_memory_wf (kbProcess_memory_wf (kbProcess_memory_wf h)))

theorem processState_memory_wf {c : Config} {t : Word} {s : State} {l : Nat} (h : s.memory.wf l) :
    (processState c t s).memory.wf l :=
  readOut_memory_wf (advanceLanes_memory_wf (s := { s with status := s.status.recordSeq }) h)

theorem setupState_memory_wf {c : Config} {nn : Nat} {pitch : Lanes Word} {dA dB : Lanes Nat} {s : State} {l : Nat}
    (h : s.memory.wf l) : (setupState c nn pitch dA dB s).memory.wf l :=
  Memory.wf_of_ringLengths (fun i => by simp [State.lane]) h

end Sys2Proof.Machine
end

