-- ==== Sys2Proof/Laws/PerInstr.lean ====
section
/-! SUPPORT. Facts about a command as syntax, one lemma for each constructor. -/

namespace Sys2Proof.Laws

namespace EncodingFits

/-- The header of an encoded command carries its opcode and its immediate, announces exactly its operand words, and leaves
the reserved and the unused bits zero. -/
def Statement (i : Instr) : Prop :=
  hdrOpc i.header = opcodeByte i.opcode ∧ hdrNW i.header = i.operands.length ∧ i.operands.length = operandWords i.opcode ∧
    hdrRsv i.header = 0#8 ∧ hdrImm i.header = i.immByte ∧ i.immByte &&& unusedImm i.opcode = 0#8

/-- All of the statement but the immediate bits holds by the form of a header. -/
theorem of_imm {i : Instr} (hl : i.operands.length = operandWords i.opcode)
    (hi : i.immByte &&& unusedImm i.opcode = 0#8) : Statement i := by
  refine ⟨hdrOpc_mkHeader _ _ _, ?_, hl, hdrRsv_mkHeader _ _ _, hdrImm_mkHeader _ _ _, hi⟩
  rw [hl, Instr.header, hdrNW_mkHeader]
  cases i.opcode <;> rfl

theorem nop : Statement .nop := of_imm rfl rfl

theorem setWaveform (mainMask subMask : BitVec 4) : Statement (.setWaveform mainMask subMask) :=
  of_imm rfl (by simp [Instr.opcode, unusedImm])

theorem setupSub (nn : Nat) (pitch : Lanes Word) (dA dB : Lanes Nat) : Statement (.setupSub nn pitch dA dB) := by
  refine of_imm rfl ?_
  apply BitVec.eq_of_getLsbD_eq
  intro i hi
  simp only [Instr.immByte, Instr.opcode, unusedImm, BitVec.getLsbD_and, BitVec.getLsbD_append]
  interval_cases i <;> simp

theorem setPw (w : Lanes Word) : Statement (.setPw w) := of_imm rfl (by simp [Instr.immByte])

theorem computeOffset (t : Word) : Statement (.computeOffset t) := of_imm rfl (by simp [Instr.immByte])

theorem process (t : Word) (y : Lanes Word) : Statement (.process t y) := of_imm rfl (by simp [Instr.immByte])

theorem readMain : Statement .readMain := of_imm rfl rfl

theorem readSub (k : Sub) : Statement (.readSub k) := of_imm rfl (by cases k <;> rfl)

theorem readStatus : Statement .readStatus := of_imm rfl rfl

end EncodingFits

end Sys2Proof.Laws
end

