-- ==== Sys2Proof/Laws/Process.lean ====
section
/-! SUPPORT. What one sample does to a lane, said once: each step of PROCESS as one update of the lane's fields, so that no
proof has to unfold the steps. -/

namespace Sys2Proof.Machine

/-! ## The tick of a sub -/

/-- The sub's counter expires in this sample. -/
def expires (ln : Lane) (k : Sub) (wrapped : Bool) : Bool := wrapped && decide (ln.cnt.get k - 1 = 0)

/-- The counter after the sample. -/
def tickCount (ln : Lane) (k : Sub) (wrapped : Bool) : Nat :=
  if expires ln k wrapped then ln.div.get k else if wrapped then ln.cnt.get k - 1 else ln.cnt.get k

/-- The cells of a ring after the falling edge of a wrap at `wc`. -/
def fallRing (c : Config) (d : Draw) (pos : Nat) (wc : Word) (ln : Lane) (r : List Word) : List Word :=
  ringInsert c (0 :: 0 :: d) pos (fsub (c.nan (1 :: 0 :: d)) wc one) (fmul (c.nan (1 :: d)) negTwo ln.syncDir) r

/-- The cells of the sub's ring after step 5. -/
def subRing (c : Config) (d : Draw) (pos : Nat) (k : Sub) (wrapped : Bool) (wc dl sigma : Word) (ln : Lane) :
    List Word :=
  if expires ln k wrapped then
    fallRing c (1 :: d) pos wc ln (riseRing c (0 :: d) pos k.source sigma dl ln.subIsSaw ln)
  else riseRing c (0 :: d) pos k.source sigma dl ln.subIsSaw ln

/-- The sub-phase after step 5. -/
def subPhaseAfter (c : Config) (d : Draw) (k : Sub) (wrapped : Bool) (ph sigma : Word) (ln : Lane) : Word :=
  paReduce c (2 :: d) (if expires ln k wrapped then resync c (2 :: 1 :: d) ph (ln.div.get k) else sigma)

@[simp] theorem length_fallRing (c : Config) (d : Draw) (pos : Nat) (wc : Word) (ln : Lane) (r : List Word) :
    (fallRing c d pos wc ln r).length = r.length :=
  length_ringInsert _ _ _ _ _ _

/-- SD_TICK as one update. -/
theorem sdTick_eq (c : Config) (d : Draw) (pos : Nat) (k : Sub) (wc ph sigma : Word) (ln : Lane) :
    sdTick c d pos k wc ph sigma ln
      = ({ ln with
            cnt := ln.cnt.set k (tickCount ln k true)
            buf := ln.buf.set k.source
              (if expires ln k true then fallRing c d pos wc ln (ln.buf.get k.source) else ln.buf.get k.source) },
          if expires ln k true then resync c (2 :: d) ph (ln.div.get k) else sigma) := by
  by_cases h : ln.cnt.get k - 1 = 0
  · rw [sdTick_expired c d pos k wc ph sigma ln h]
    simp [tickCount, expires, h, fallRing]
  · rw [sdTick_counting c d pos k wc ph sigma ln h]
    simp [tickCount, expires, h]

/-- Step 5 for one sub as one update. -/
theorem processSub_eq (c : Config) (d : Draw) (pos : Nat) (k : Sub) (wrapped : Bool) (wc ph dl sigma : Word) (ln : Lane) :
    processSub c d pos k wrapped wc ph dl sigma ln
      = { ln with
          cnt := ln.cnt.set k (tickCount ln k wrapped)
          subPhase := ln.subPhase.set k (subPhaseAfter c d k wrapped ph sigma ln)
          buf := ln.buf.set k.source (subRing c d pos k wrapped wc dl sigma ln) } := by
  unfold processSub
  rw [wsRise_eq]
  cases wrapped
  · simp [tickCount, expires, subPhaseAfter, subRing]
  · simp only [if_true, sdTick_eq, Sources.set_set, Sources.get_set_self]
    rfl

/-- The cells of the main ring after steps 2 and 3. -/
def mainRing (c : Config) (d : Draw) (pos : Nat) (dl phi : Word) (ln : Lane) : List Word :=
  if crossed (paCross1 c (1 :: d) phi dl) then
    fallRing c (2 :: d) pos (paCross1 c (1 :: d) phi dl) ln (riseRing c (0 :: d) pos .m phi dl ln.mainIsSaw ln)
  else riseRing c (0 :: d) pos .m phi dl ln.mainIsSaw ln

/-- Steps 2 to 4 as one update. -/
theorem processMain_eq (c : Config) (d : Draw) (pos : Nat) (dl phi : Word) (ln : Lane) :
    processMain c d pos dl phi ln
      = { ln with
          phase := paReduce c (3 :: d) phi
          buf := ln.buf.set .m (mainRing c d pos dl phi ln) } := by
  unfold processMain mainRing
  simp only [wsRise_eq, wsFallMain_eq]
  split <;> simp [fallRing]

/-! ## A whole lane -/

/-- The unwrapped phases and increments of step 1, and the crossing of the main wrap. -/
def mainAdvance (c : Config) (d : Draw) (t : Word) (ln : Lane) : Word × Word :=
  paAdvance c (0 :: d) ln.phase ln.freq t

def subAdvance (c : Config) (d : Draw) (t : Word) (k : Sub) (ln : Lane) : Word × Word :=
  match k with
  | .a => paAdvance c (1 :: d) ln.subPhase.a ln.subFreq.a t
  | .b => paAdvance c (2 :: d) ln.subPhase.b ln.subFreq.b t

def mainCrossing (c : Config) (d : Draw) (t : Word) (ln : Lane) : Word :=
  paCross1 c (1 :: 3 :: d) (mainAdvance c d t ln).2 (mainAdvance c d t ln).1

/-- The main phase after the sample. -/
def phaseAfter (c : Config) (d : Draw) (t : Word) (ln : Lane) : Word :=
  paReduce c (3 :: 3 :: d) (mainAdvance c d t ln).2

/-- Steps 1 to 5 for an active lane as one update: the phases, the counters and the three rings, each from the lane as it
was before the sample. -/
theorem processLane_eq (c : Config) (d : Draw) (pos : Sources Nat) (t : Word) (ln : Lane) :
    processLane c d pos t ln
      = { ln with
          phase := phaseAfter c d t ln
          cnt := ⟨tickCount ln .a (crossed (mainCrossing c d t ln)), tickCount ln .b (crossed (mainCrossing c d t ln))⟩
          subPhase :=
            ⟨subPhaseAfter c (4 :: d) .a (crossed (mainCrossing c d t ln)) (phaseAfter c d t ln)
                (subAdvance c d t .a ln).2 ln,
             subPhaseAfter c (5 :: d) .b (crossed (mainCrossing c d t ln)) (phaseAfter c d t ln)
                (subAdvance c d t .b ln).2 ln⟩
          buf :=
            ⟨mainRing c (3 :: d) pos.m (mainAdvance c d t ln).1 (mainAdvance c d t ln).2 ln,
             subRing c (4 :: d) pos.a .a (crossed (mainCrossing c d t ln)) (mainCrossing c d t ln)
                (subAdvance c d t .a ln).1 (subAdvance c d t .a ln).2 ln,
             subRing c (5 :: d) pos.b .b (crossed (mainCrossing c d t ln)) (mainCrossing c d t ln)
                (subAdvance c d t .b ln).1 (subAdvance c d t .b ln).2 ln⟩ } := by
  unfold processLane
  simp only [processMain_eq, processSub_eq]
  rfl

/-! ## The whole command -/

/-- Lane i after steps 1 to 5. -/
def movedLane (c : Config) (t : Word) (s : State) (i : Fin 4) : Lane :=
  if active s.n i then processLane c [i.val, s.draws] s.pos t (s.lane i) else s.lane i

/-- Lane i after PROCESS: the samples are made of the current cells, and those cells are +0.0. -/
theorem processState_lane (c : Config) (t : Word) (s : State) (i : Fin 4) :
    (processState c t s).lane i
      = outputLane c [i.val, s.draws] (active s.n i)
          (bufRead (movedLane c t s i) .m s.pos.m) (bufRead (movedLane c t s i) .a s.pos.a)
          (bufRead (movedLane c t s i) .b s.pos.b)
          { movedLane c t s i with
            buf := ⟨(movedLane c t s i).buf.m.set s.pos.m posZero, (movedLane c t s i).buf.a.set s.pos.a posZero,
              (movedLane c t s i).buf.b.set s.pos.b posZero⟩ } := by
  simp [processState, readOut, State.lane, kbProcess, writeOutputs, advanceLanes, movedLane, bufRead, bufWrite,
    Sources.set, Sources.get]

/-- Everything of the state after PROCESS but its lanes. -/
theorem processState_eq (c : Config) (t : Word) (s : State) :
    processState c t s =
      { s with
        lanes := (processState c t s).lanes
        pos := ⟨ringIndex c s.pos.m 1, ringIndex c s.pos.a 1, ringIndex c s.pos.b 1⟩
        status := s.status.recordSeq
        draws := s.draws + 1 } := rfl

end Sys2Proof.Machine
end

