-- ==== Sys2Proof/Laws/Step.lean ====
section
/-! SUPPORT. The modelled device's parameters, and what a command and a step can do to the state, said once. -/

namespace Sys2Proof.Machine

/-! ## The device -/

@[simp] theorem device_ringLen : device.ringLen = 32 := rfl
@[simp] theorem device_tableLast : device.tableLast = 512 := rfl
@[simp] theorem device_freqMax : device.freqMax = 0x47C35000#32 := rfl
@[simp] theorem device_dphMin : device.dphMin = 0x358637BD#32 := rfl
@[simp] theorem device_dphMax : device.dphMax = 0x3EB33333#32 := rfl
@[simp] theorem device_sawDc : device.sawDc = 0xC0B65604#32 := rfl

/-- A drawn pattern is a NaN, whatever the configuration. -/
@[simp] theorem isNaN_nan (c : Config) (d : Draw) : isNaN (c.nan d) = true := isNaN_quietNaN _ _

/-- A value put together from its fields is finite. -/
theorem isFinite_finiteOf (s : Bool) (e : Fin 255) (f : BitVec 23) : isFinite (finiteOf s e f) = true := by
  have he : (finiteOf s e f).extractLsb' 23 8 = BitVec.ofNat 8 e.val := by
    apply BitVec.eq_of_getLsbD_eq
    intro i hi
    simp only [finiteOf, BitVec.getLsbD_extractLsb', BitVec.getLsbD_append]
    interval_cases i <;> simp
  have hv := e.isLt
  simp only [isFinite, expField, he, BitVec.toNat_ofNat, bne_iff_ne]
  omega

/-- The modelled device meets the spec's constraints on the open parameters. -/
theorem device_constraints : device.Constraints := by
  refine ⟨by decide, by decide, fun k _ => isFinite_finiteOf _ _ _, by decide, by decide, by decide, by decide, by decide,
    by decide, fun q => ?_⟩
  have e : fadd q one device.dphMax = fadd posZero one device.dphMax := by
    simp only [fadd, show isNaN one = false by decide, show isNaN device.dphMax = false by decide,
      show isInf one = false by decide, show isInf device.dphMax = false by decide, Bool.or_self, Bool.false_eq_true,
      if_false]
  rw [e]
  decide
/-! ## Commands -/

/-- A command leaves the command stream and the framing state to the step. -/
theorem exec_stream {i : Instr} {s t : State} (h : exec i s = .next t) : t.frame = s.frame ∧ t.cmd = s.cmd := by
  cases i <;>
    simp only [exec, execNop, execSetWaveform, execSetupSub, setupSub, execSetPw, execComputeOffset, computeOffset,
      execProcess, execReadMain, execReadSub, execReadStatus] at h <;>
    (try split at h) <;> (try split at h) <;> cases h <;> exact ⟨rfl, rfl⟩

/-- A command is rejected by a value check, or STATUS changes as its rule says. -/
theorem exec_status {i : Instr} {s t : State} (h : exec i s = .next t) :
    (∃ c, c ∈ [Cause.cfgChannels, .cfgDivisor, .cfgPulseWidth, .cfgSampleTime] ∧ t = s.reject c) ∨
    (t.status =
      match i with
      | .setWaveform _ _ => s.status.setStale
      | .setupSub _ _ _ _ => s.status.setStale
      | .setPw _ => s.status.setStale
      | .computeOffset _ => s.status.clearStale
      | .process _ _ => s.status.recordSeq
      | _ => s.status) := by
  cases i <;>
    simp only [exec, execNop, execSetWaveform, execSetupSub, setupSub, execSetPw, execComputeOffset, computeOffset,
      execProcess, execReadMain, execReadSub, execReadStatus] at h <;>
    (try split at h) <;> (try split at h) <;> cases h
  all_goals first | exact .inr rfl | (refine .inl ⟨_, ?_, rfl⟩; simp)

/-! ## Steps -/

/-- A step waits, rejects a malformed command, or executes one. -/
theorem step_cases {s t : State} (h : step s = .next t) :
    (frameCommand s.stream = none ∧ t = s.await) ∨
    (∃ c rest, decode s.stream = some (.error c, rest) ∧ c ∈ [Cause.illegalOpcode, .badLength, .reservedNonzero] ∧
      t = (s.consumed rest).reject c) ∨
    (∃ i rest, decode s.stream = some (.ok i, rest) ∧ exec i (s.consumed rest) = .next t) := by
  unfold step at h
  split at h
  · rename_i hd
    cases h
    refine .inl ⟨?_, rfl⟩
    unfold decode at hd
    split at hd
    · assumption
    · cases hd
  · rename_i c rest hd
    cases h
    refine .inr (.inl ⟨c, rest, hd, ?_, rfl⟩)
    unfold decode at hd
    split at hd
    · cases hd
    · rename_i hh ops r hf
      simp only [Option.some.injEq, Prod.mk.injEq] at hd
      obtain ⟨hd, rfl⟩ := hd
      obtain ⟨-, hl⟩ := frameCommand_eq_some hf
      rcases decodeCommand_cases hh ops hl with ⟨_, h'⟩ | ⟨o, _, ⟨_, h'⟩ | ⟨_, _, h'⟩ | ⟨_, _, _, i, _, h'⟩⟩ <;>
        rw [h'] at hd <;> cases hd <;> simp
  · rename_i i rest hd
    exact .inr (.inr ⟨i, rest, hd, h⟩)

end Sys2Proof.Machine
end

