-- ==== Sys2Proof/Tests/Slice0.lean ====
section
/-! SUPPORT. Tests, each on one command or one operation, and for every obligation with hypotheses a concrete state and
operands that meet them. Expected values are the spec's own: its worked examples and 95_test_vectors.md. -/

open Sys2Proof Sys2Proof.Machine

namespace Sys2Proof.Tests

/-! ## Well-formedness: one ill-formed term for each check -/

def dOne : Lanes Nat := ⟨1, 1, 1, 1⟩
def wZero : Lanes Word := ⟨0#32, 0#32, 0#32, 0#32⟩

theorem test_wf_refuses_a_wide_count : ¬ (Instr.setupSub 8 wZero dOne dOne).wf := by decide
theorem test_wf_refuses_a_wide_divisor_a : ¬ (Instr.setupSub 1 wZero ⟨1, 256, 1, 1⟩ dOne).wf := by decide
theorem test_wf_refuses_a_wide_divisor_b : ¬ (Instr.setupSub 1 wZero dOne ⟨1, 1, 1, 256⟩).wf := by decide

/-! ## Decoding: words written out from 30_encoding.md -/

/-- R89. -/
theorem test_decode_nop : decode [0b00000000000000000000000000000000#32] = some (.ok .nop, []) := by decide
/-- R90: opcode 0x01, subMask 0b1111, mainMask 0b0011. -/
theorem test_decode_setWaveform :
    decode [0b00000001000000000000000011110011#32] = some (.ok (.setWaveform 0b0011#4 0b1111#4), []) := by decide
/-- R91, R92: six operand words; the divisor word 0x10030202 is lanes (2, 2, 3, 16). -/
theorem test_decode_setupSub :
    decode [0b00000010000001100000000000000100#32, 1#32, 2#32, 3#32, 4#32, 0x10030202#32, 0x04030201#32, 9#32]
      = some (.ok (.setupSub 4 ⟨1#32, 2#32, 3#32, 4#32⟩ ⟨2, 2, 3, 16⟩ ⟨1, 2, 3, 4⟩), [9#32]) := by decide
/-- R93. -/
theorem test_decode_setPw :
    decode [0b00000011000001000000000000000000#32, 1#32, 2#32, 3#32, 4#32]
      = some (.ok (.setPw ⟨1#32, 2#32, 3#32, 4#32⟩), []) := by decide
/-- R94. -/
theorem test_decode_computeOffset :
    decode [0b00000100000000010000000000000000#32, 0x3A800000#32] = some (.ok (.computeOffset 0x3A800000#32), []) := by
  decide
/-- R95. -/
theorem test_decode_process :
    decode [0b00000101000001010000000000000000#32, 5#32, 1#32, 2#32, 3#32, 4#32]
      = some (.ok (.process 5#32 ⟨1#32, 2#32, 3#32, 4#32⟩), []) := by decide
/-- R96. -/
theorem test_decode_readMain : decode [0b00000110000000000000000000000000#32] = some (.ok .readMain, []) := by decide
/-- R97. -/
theorem test_decode_readSub : decode [0b00000111000000000000000000000001#32] = some (.ok (.readSub .b), []) := by
  decide
/-- R98. -/
theorem test_decode_readStatus : decode [0b00001000000000000000000000000000#32] = some (.ok .readStatus, []) := by
  decide

/-- The four examples of R264, and a stream that ends inside a command (R82). -/
theorem test_decode_rejections :
    decodeCommand 0x09FFFF00#32 (List.replicate 255 0#32) = .error .illegalOpcode ∧
    decodeCommand 0x02050107#32 (List.replicate 5 0#32) = .error .badLength ∧
    decodeCommand 0x02060107#32 (List.replicate 6 0#32) = .error .reservedNonzero ∧
    decodeCommand 0x07000002#32 [] = .error .reservedNonzero ∧
    decode [0x04010000#32] = none := by decide

/-- The encoder, on words of R90, R92 and R97. -/
theorem test_encode :
    encode (.setWaveform 0x3#4 0xF#4) = [0x010000F3#32] ∧ encode (.readSub .b) = [0x07000001#32] ∧
    encode (.setupSub 1 wZero ⟨2, 2, 3, 16⟩ dOne)
      = [0x02060001#32, 0#32, 0#32, 0#32, 0#32, 0x10030202#32, 0x01010101#32] := by decide

/-- The words of a row of the opcode table run as the first command after reset. -/
theorem test_withFetchWord :
    decodeTableWord 64 0x3A80000004010000 = some (.computeOffset 0x3A800000#32) ∧
    step (State.reset.withFetchWord 32 0x010000F3) = exec (.setWaveform 0x3#4 0xF#4) State.reset := ⟨by decide, rfl⟩

/-! ## Arithmetic: 95_test_vectors.md and the corners of 40_numerics.md -/

/-- R168 (a): reduced and not detected. -/
theorem test_reduced_but_not_detected :
    fadd posZero 0x3F7FFFFF#32 0x3C2EE408#32 = 0x3F815DC8#32 ∧
    fdiv posZero (fsub posZero one (fsub posZero 0x3F815DC8#32 0x3C2EE408#32)) 0x3C2EE408#32 = posZero ∧
    fsub posZero 0x3F815DC8#32 one = 0x3C2EE400#32 := by decide

/-- R206: both products are exact scalings. -/
theorem test_saw_dc : fmul posZero (fmul posZero 0xC0B65604#32 0x3A800000#32) 0x43000000#32 = 0xBF365604#32 := by
  decide

/-- R112: half a unit above the largest finite value overflows, just below it does not; R229 (e): 128 / 3. -/
theorem test_rounding :
    fadd posZero 0x7F7FFFFF#32 0x73000000#32 = 0x7F800000#32 ∧ fadd posZero 0x7F7FFFFF#32 0x72FFFFFF#32 = 0x7F7FFFFF#32 ∧
    fdiv posZero 0x43000000#32 0x40400000#32 = 0x422AAAAB#32 := by decide

/-! ## One command on a small state -/

/-- The test collaborator's value at pitch 0 (95_test_vectors.md): 128 Hz for every pitch here. -/
def tk1 : Config :=
  { device with z := 2, o := 2, kernel := fun k => fdiv posZero (itof k) (itof 8), p2f := fun _ => 0x43000000#32,
                freeNaN := fun _ => (false, 0#22) }

/-- The state before the worked example of R243. -/
def r243 : State :=
  { State.resetOf 4 with
    n := 1
    lanes := { Lanes.all (Lane.resetOf 4) with
      l0 := { Lane.resetOf 4 with
        phase := 0x3F700000#32, subPhase := ⟨0x3F780000#32, 0#32⟩, freq := 0x43000000#32,
        subFreq := ⟨0x42800000#32, 0x422AAAAB#32⟩, div := ⟨2, 3⟩, cnt := ⟨1, 2⟩,
        dcMain := 0xBF365604#32, dcSub := ⟨0xBEB65604#32, 0#32⟩ } } }

/-- R243. -/
theorem test_process_r243 :
    let t := processState tk1 0x3A800000#32 r243
    (t.lane 0).phase = 0x3D800000#32 ∧ (t.lane 0).subPhase.a = 0x3D000000#32 ∧ (t.lane 0).cnt = ⟨2, 1⟩ ∧
    (t.lane 0).outMain = 0x3E26A7F0#32 ∧ (t.lane 0).outSub.a = 0x3EE9A9FC#32 ∧ t.pos = ⟨1, 1, 1⟩ := by decide +kernel

/-- R237: STALE = 1 is recorded, and the sample is computed. -/
theorem test_process_stale :
    let t := processState tk1 0x3A800000#32 { r243 with status := ⟨false, false, false, true, 0#8⟩ }
    t.status = ⟨false, false, true, true, 0#8⟩ ∧ (t.lane 0).outMain = 0x3E26A7F0#32 := by decide +kernel

/-- R229 (e). -/
theorem test_setupSub_r229 :
    let t := setupSub tk1 1 wZero ⟨2, 1, 1, 1⟩ ⟨3, 1, 1, 1⟩ (State.resetOf 4)
    t.n = 1 ∧ (t.lane 0).freq = 0x43000000#32 ∧ (t.lane 0).subFreq = ⟨0x42800000#32, 0x422AAAAB#32⟩ ∧
    (t.lane 0).div = ⟨2, 3⟩ ∧ (t.lane 0).cnt = ⟨1, 1⟩ ∧ t.statusWord = 0x00000018#32 ∧ t.rsp = [0#32] := by decide

/-- R229 (f). -/
theorem test_setupSub_rejected :
    let t := setupSub tk1 1 wZero ⟨0, 1, 1, 1⟩ ⟨3, 1, 1, 1⟩ (State.resetOf 4)
    t.rsp = [0x00000005#32] ∧ t.statusWord = 0x00000502#32 ∧ (t.lane 0).div = ⟨1, 1⟩ := by decide

/-- R222: the example's masks. -/
theorem test_setWaveform :
    let t := setWaveform 0xE#4 0x0#4 (State.resetOf 4)
    (t.lane 0).mainIsSaw = false ∧ (t.lane 1).mainIsSaw = true ∧ (t.lane 3).subIsSaw = false ∧ t.status.stale = true := by
  decide

/-- R230, R231: a negative zero is legal and stored bit for bit; the value just above 1 is not legal. -/
theorem test_setPw :
    pulseWidthsLegal ⟨0x80000000#32, 0#32, 0x3F800000#32, 0x3F000000#32⟩ = true ∧
    pulseWidthsLegal ⟨0#32, 0#32, 0x3F800001#32, 0#32⟩ = false ∧ pulseWidthsLegal ⟨0#32, 0x7FC00000#32, 0#32, 0#32⟩ = false ∧
    ((setPulseWidths ⟨0x80000000#32, 0#32, 0#32, 0#32⟩ (State.resetOf 4)).lane 0).pw = 0x80000000#32 := by decide

/-- R232: the example after R229 (e). -/
theorem test_computeOffset :
    let t := computeOffset tk1 0x3A800000#32
      (setupSub tk1 1 wZero ⟨2, 1, 1, 1⟩ ⟨3, 1, 1, 1⟩ (State.resetOf 4))
    (t.lane 0).dcMain = 0xBF365604#32 ∧ (t.lane 0).dcSub = ⟨0xBEB65604#32, 0xBE731D5B#32⟩ ∧
    (t.lane 1).dcMain = 0x80000000#32 ∧ t.status.stale = false := by decide

/-- R233. -/
theorem test_computeOffset_rejected :
    (computeOffset tk1 0x80000000#32 (State.resetOf 4)).rsp = [0x00000007#32] := by decide

/-- R245, R246, after R243. -/
theorem test_reads :
    let t := processState tk1 0x3A800000#32 r243
    mainSamples t = [0x3E26A7F0#32, 0#32, 0#32, 0#32] ∧ subSamples .a t = [0x3EE9A9FC#32, 0#32, 0#32, 0#32] := by
  decide +kernel

/-- R247, after reset and after a rejection of 0x09000000. -/
theorem test_readStatus :
    exec .readStatus State.reset = .next { State.reset with rsp := [0x00000100#32, 0#32] } ∧
    (State.reset.reject .illegalOpcode).statusWord = 0x00000101#32 := ⟨rfl, by decide⟩

/-! ## Witnesses: for each obligation with hypotheses, values that meet them -/

/-- Reset with two words on the stream: one NOP and a READ_STATUS. -/
def s0 : State := { State.reset with cmd := [0x00000000#32, 0x08000000#32] }

theorem witness_EveryStepKeepsTheInvariants : s0.Inv ∧ step s0 = .next { s0 with cmd := [0x08000000#32], rsp := [0#32] } := by
  refine ⟨⟨by decide, ?_, ?_, ?_, ?_, ?_, by decide, ?_, by decide, by decide, by decide⟩, rfl⟩
  · intro i; fin_cases i <;> intro k <;> cases k <;> decide
  · intro i; fin_cases i <;> decide
  · intro i; fin_cases i <;> refine ⟨by decide, by decide, ?_⟩ <;> intro k <;> cases k <;> decide
  · intro i; fin_cases i <;> refine ⟨by decide, ?_⟩ <;> intro k <;> cases k <;> decide
  · intro i _; fin_cases i <;> refine ⟨by decide, by decide, by decide, ?_⟩ <;> intro k <;> cases k <;> decide
  · intro i; fin_cases i <;> decide

theorem witness_EveryStepKeepsTheRingForm :
    s0.memory.wf 32 ∧ step s0 = .next { s0 with cmd := [0x08000000#32], rsp := [0#32] } := ⟨by decide, rfl⟩

theorem witness_StepRunsTheDecodedCommand :
    let s := { s0 with frame := [0x04010000#32], cmd := [0x3A800000#32, 0x08000000#32] }
    (Instr.computeOffset 0x3A800000#32).wf ∧ s.frame ++ s.cmd = encode (.computeOffset 0x3A800000#32) ++ [0x08000000#32] := by
  decide

/-- The first clause at both ends of the count field, the second with an empty stream and one word short. -/
theorem witness_FramingFollowsTheCountAlone :
    (s0.frame ++ s0.cmd = 0x00000000#32 :: ([] ++ [0x08000000#32]) ∧ ([] : List Word).length = hdrNW 0x00000000#32) ∧
    (let s := { s0 with cmd := 0xFFFF0000#32 :: List.replicate 255 1#32 }
     s.frame ++ s.cmd = 0xFFFF0000#32 :: (List.replicate 255 1#32 ++ []) ∧
       (List.replicate 255 (1#32 : Word)).length = hdrNW 0xFFFF0000#32) ∧
    State.reset.frame ++ State.reset.cmd = [] ∧
    (let s := { s0 with frame := [0xFFFF0000#32], cmd := List.replicate 254 1#32 }
     s.frame ++ s.cmd = 0xFFFF0000#32 :: List.replicate 254 1#32 ∧
       (List.replicate 254 (1#32 : Word)).length < hdrNW 0xFFFF0000#32) := by decide +kernel

theorem witness_StepRejectsAMalformedCommand :
    let s := fun h : Word => { s0 with cmd := [h, 0x08000000#32] }
    ∀ p ∈ [(0x09000000#32, Cause.illegalOpcode), (0x04000000#32, .badLength), (0x00000100#32, .reservedNonzero)],
      (s p.1).frame ++ (s p.1).cmd = p.1 :: ([] ++ [0x08000000#32]) ∧ ([] : List Word).length = hdrNW p.1 ∧
        decodeCommand p.1 [] = .error p.2 := by decide

theorem witness_DecodeOfEncodeIsTheCommand :
    (Instr.setupSub 7 wZero ⟨0, 255, 1, 16⟩ ⟨255, 0, 17, 1⟩).wf ∧ (Instr.setWaveform 0xF#4 0x0#4).wf := by decide

theorem witness_AcceptedWordsAreTheEncoding :
    decode [0x07000000#32, 5#32] = some (.ok (.readSub .a), [5#32]) := by decide

theorem witness_AHeaderSelectsItsRow :
    ([] : List Word).length = hdrNW 0x07000001#32 ∧ decodeCommand 0x07000001#32 [] = .ok (.readSub .b) ∧
    0x07000001#32 &&& headerMask .readSub = headerMatch .readSub := by decide

theorem witness_DecodeChecksRunInOrder :
    (([] : List Word).length = hdrNW 0x08000000#32 ∧ opcodeByte .readStatus = hdrOpc 0x08000000#32) ∧
    (([] : List Word).length = hdrNW 0x09000000#32 ∧ 8 < (hdrOpc 0x09000000#32).toNat) ∧
    hdrNW 0x08010000#32 ≠ operandWords .readStatus ∧ hdrImm 0x08000001#32 &&& unusedImm .readStatus ≠ 0#8 := by
  decide

theorem witness_RejectionRecordsTheCauseAlone :
    (Cause.cfgSampleTime, 7, true) ∈ [(Cause.illegalOpcode, 1, false), (.badLength, 2, false), (.reservedNonzero, 3, false),
      (.cfgChannels, 4, true), (.cfgDivisor, 5, true), (.cfgPulseWidth, 6, true), (.cfgSampleTime, 7, true)] := by decide

/-- A state with every sticky bit set, a cause recorded and STALE set. -/
def marked : State := { s0 with status := ⟨true, true, true, true, 7#8⟩ }

theorem witness_StickyBitsAreClearedOnlyByReset :
    step marked = .next { marked with cmd := [0x08000000#32], rsp := [0#32] } ∧ marked.status.errIllegal = true ∧
      marked.status.errCfg = true ∧ marked.status.errSeq = true ∧ marked.status.lastCause ≠ 0#8 := ⟨rfl, rfl, rfl, rfl, by decide⟩

theorem witness_ExecutedCommandsKeepTheErrorRecord :
    exec .nop marked = .next { marked with rsp := [0#32] } ∧ [0#32] = marked.rsp ++ 0#32 :: [] ∧
      (0#32 : Word).extractLsb' 0 8 = 0#8 := ⟨rfl, rfl, by decide⟩

/-- A setter, a passing and a failing COMPUTE_OFFSET, and a command that is none of these. -/
theorem witness_StaleFollowsSettersAndOffsets :
    (∃ t, exec (.setWaveform 0#4 0#4) marked = .next t) ∧ (∃ t, exec (.computeOffset 1#32) marked = .next t) ∧
    (∃ t, exec (.computeOffset 0#32) marked = .next t) ∧ ∃ t, exec .readMain marked = .next t :=
  ⟨⟨_, rfl⟩, ⟨_, rfl⟩, ⟨_, rfl⟩, ⟨_, rfl⟩⟩

theorem witness_SequenceErrorOnlyFromStaleProcess :
    marked.status.stale = true ∧ ∃ t, exec (.process 0#32 wZero) marked = .next t := ⟨rfl, ⟨_, rfl⟩⟩

/-- A run of one step, a PROCESS with STALE = 0. -/
theorem witness_TheRuleOfUseKeepsSequenceErrorClear :
    let s := { State.reset with cmd := [0x05050000#32, 0#32, 0#32, 0#32, 0#32, 0#32] }
    nextIsProcess s = true ∧ s.status.errSeq = false ∧
      ∃ t, step s = .next t ∧ SafeRun s t := by
  refine ⟨by decide, rfl, _, rfl, .step (fun _ => rfl) rfl (.refl _)⟩

theorem witness_StatusWordLayout : ({ s0 with n := 4 } : State).n ≤ 4 := by decide

/-- Both clauses: no lane active and all lanes active; divisors at both ends of [1, 16]. -/
theorem witness_SetupSubConfiguresTheLanes :
    (0 ≤ 4 ∧ (0 : Nat) ≤ (0 : Fin 4).val) ∧ (4 ≤ 4 ∧ (3 : Fin 4).val < 4) ∧
    ∀ i, (1 ≤ (⟨1, 16, 2, 3⟩ : Lanes Nat).get i ∧ (⟨1, 16, 2, 3⟩ : Lanes Nat).get i ≤ 16) ∧ 1 ≤ dOne.get i ∧ dOne.get i ≤ 16 := by
  decide

theorem witness_SetupSubRejectsABadCount : 4 < 5 ∧ (Instr.setupSub 5 wZero dOne dOne).wf := by decide

theorem witness_SetupSubRejectsABadDivisor :
    (∃ i, (⟨1, 1, 1, 0⟩ : Lanes Nat).get i < 1) ∧ (∃ i, 16 < (⟨1, 1, 17, 1⟩ : Lanes Nat).get i) ∧ 4 ≤ 4 := by decide

/-- A NaN, a negative zero, infinity, the maximum itself and the smallest positive value. -/
theorem witness_SanitisedFrequencyIsInRange :
    isNaN 0x7F800001#32 = true ∧ fle 0x80000000#32 posZero = true ∧ flt 0x47C35000#32 0x7F800000#32 = true ∧
    (flt posZero 0x47C35000#32 = true ∧ fle 0x47C35000#32 0x47C35000#32 = true) ∧
    (flt posZero 0x00000001#32 = true ∧ fle 0x00000001#32 0x47C35000#32 = true) := by decide

theorem witness_SetPwStoresTheWidths :
    ∀ i, fle posZero ((⟨0x80000000#32, 0#32, 0x3F800000#32, 0x00000001#32⟩ : Lanes Word).get i) = true ∧
      fle ((⟨0x80000000#32, 0#32, 0x3F800000#32, 0x00000001#32⟩ : Lanes Word).get i) one = true := by decide

theorem witness_SetPwRejectsABadWidth :
    (∃ i, ¬ (fle posZero ((⟨0#32, 0#32, 0#32, 0x3F800001#32⟩ : Lanes Word).get i) = true ∧
      fle ((⟨0#32, 0#32, 0#32, 0x3F800001#32⟩ : Lanes Word).get i) one = true)) ∧
    (∃ i, ¬ (fle posZero ((⟨0x80000001#32, 0#32, 0#32, 0#32⟩ : Lanes Word).get i) = true ∧
      fle ((⟨0x80000001#32, 0#32, 0#32, 0#32⟩ : Lanes Word).get i) one = true)) ∧
    ∃ i, ¬ (fle posZero ((⟨0#32, 0x7FC00000#32, 0#32, 0#32⟩ : Lanes Word).get i) = true ∧
      fle ((⟨0#32, 0x7FC00000#32, 0#32, 0#32⟩ : Lanes Word).get i) one = true) := by decide

/-- The smallest and the largest legal time; a saw lane and a pulse lane. -/
theorem witness_ComputeOffsetWritesTheCompensations :
    (isFinite 0x00000001#32 = true ∧ flt posZero 0x00000001#32 = true) ∧
    (isFinite 0x7F7FFFFF#32 = true ∧ flt posZero 0x7F7FFFFF#32 = true) ∧
    (s0.lane 0).mainIsSaw = true ∧ (s0.lane 0).subIsSaw = true ∧
    ((setWaveform 0#4 0#4 s0).lane 0).mainIsSaw = false ∧ ((setWaveform 0#4 0#4 s0).lane 0).subIsSaw = false := by
  decide

theorem witness_ComputeOffsetRejectsABadTime :
    isNaN 0xFFC00000#32 = true ∧ isInf 0x7F800000#32 = true ∧ isZero 0x80000000#32 = true ∧
      flt 0x80000001#32 posZero = true := by decide

theorem witness_ComputeOffsetTwiceIsOnce :
    ∃ t u, exec (.computeOffset 0x3A800000#32) s0 = .next t ∧ exec (.computeOffset 0x3A800000#32) t = .next u :=
  ⟨_, _, rfl, rfl⟩

theorem witness_ProcessOnlyDrainsInactiveLanes : State.reset.n ≤ (0 : Fin 4).val ∧ ({ s0 with n := 3 } : State).n ≤ (3 : Fin 4).val := by
  decide

theorem witness_ProcessMainSourceOfAnActiveLane : (3 : Fin 4).val < ({ s0 with n := 4 } : State).n := by decide

theorem witness_ProcessSubSourceOfAnActiveLane :
    (0 : Fin 4).val < r243.n ∧ 1 ≤ (r243.lane 0).cnt.get .a ∧ 1 ≤ (r243.lane 0).cnt.get .b := by decide

/-- The two states differ in lane 1 and in STATUS. -/
theorem witness_LanesAreIndependent :
    let s' := { s0 with lanes := { s0.lanes with l1 := Lane.resetOf 4 }, status := ⟨true, false, false, true, 1#8⟩ }
    s0.lane 0 = s'.lane 0 ∧ s0.n = s'.n ∧ s0.pos = s'.pos ∧ s0.draws = s'.draws ∧ s0.lane 1 ≠ s'.lane 1 ∧
      (∃ t, exec .nop s0 = .next t) ∧ ∃ t', exec .nop s' = .next t' :=
  ⟨rfl, rfl, rfl, rfl, by decide, ⟨_, rfl⟩, ⟨_, rfl⟩⟩

theorem witness_PositionsAdvanceOnceForEachProcess :
    let s := { s0 with pos := ⟨31, 31, 31⟩ }
    s.pos.m = s.pos.a ∧ s.pos.a = s.pos.b ∧ step s = .next { s with cmd := [0x08000000#32], rsp := [0#32] } ∧
      ∃ t, exec (.process 0#32 wZero) s = .next t := ⟨rfl, rfl, rfl, ⟨_, rfl⟩⟩

theorem witness_AnUnconfiguredBlockIsSilent :
    State.reset.n = 0 ∧ State.reset.status = Status.cleared ∧
      ∀ i : Fin 4, (State.reset.lane i).outMain = posZero ∧ ∀ k, (State.reset.lane i).outSub.get k = posZero := by
  refine ⟨rfl, rfl, fun i => ?_⟩
  fin_cases i <;> exact ⟨rfl, fun k => by cases k <;> rfl⟩

/-- A state whose inactive lane 3 holds a cell that is not zero. -/
theorem witness_AnInactiveLaneDrains :
    let s : State := { State.reset with
      n := 3, pos := ⟨31, 0, 31⟩,
      lanes := { State.reset.lanes with l3 := { Lane.resetOf 32 with buf := Sources.all (List.replicate 32 one) } } }
    s.n ≤ (3 : Fin 4).val ∧ s.memory.wf 32 ∧ s.pos.m < 32 ∧ s.pos.a < 32 ∧ s.pos.b < 32 ∧
      (List.replicate 32 (0#32 : Word)).length = 32 := by decide

theorem witness_InsertionAddsEachTapToItsCell :
    ((Lane.resetOf 4).buf.get .a).length = tk1.ringLen ∧ ((State.reset.lane 0).buf.get .m).length = device.ringLen := by
  decide

theorem witness_ReadOutEmptiesARingInLCalls :
    (∀ i, ((State.reset.lane i).buf.get .b).length = device.ringLen) ∧
      ({ State.reset with pos := ⟨31, 31, 31⟩ } : State).pos.get .b < device.ringLen := by decide

/-- Both ends of the crossing's range, where the smallest crossing is passed as -1; an offset refused and both ends
accepted; and, for an increment of 0.5, crossings of 1 (inside), of 0.5 (inside), of 0 and of 1.5 (outside) at a rising
edge and at a wrap, with a pulse and a saw lane and counters that expire (1) and do not (2). -/
theorem witness_EveryInsertionOffsetIsLegal :
    (crossed one = true ∧ crossed 0x00000001#32 = true ∧ fsub posZero 0x00000001#32 one = negOne) ∧
    ((kbInsertAlone tk1 [] 0 .m 0x3F800000#32 two (Lane.resetOf 4)).isNone = true ∧
      (kbInsertAlone tk1 [] 0 .m negOne two (Lane.resetOf 4)).isSome = true ∧
      (kbInsertAlone tk1 [] 0 .m posZero two (Lane.resetOf 4)).isSome = true) ∧
    (crossed (pulseCross tk1 [0] half half half) = true ∧ pulseCross tk1 [0] half half half = one ∧
      crossed (pulseCross tk1 [0] half one half) = false ∧ crossed (pulseCross tk1 [0] half 0x3E800000#32 half) = false) ∧
    (paCross1 tk1 [1] one half = one ∧ crossed (paCross1 tk1 [1] 0x3FA00000#32 half) = true ∧
      crossed (paCross1 tk1 [1] 0x3FC00000#32 half) = false ∧ crossed (paCross1 tk1 [1] 0x3F400000#32 half) = false) ∧
    ((Lane.resetOf 4).cnt.get .a ≤ 1 ∧ ¬ ({ Lane.resetOf 4 with cnt := ⟨2, 2⟩ } : Lane).cnt.get .a ≤ 1) := by decide

theorem witness_StoredPhaseStaysBelowOne :
    (fle posZero 0x00000000#32 = true ∧ flt 0x00000000#32 one = true) ∧
      (fle posZero 0x3F7FFFFF#32 = true ∧ flt 0x3F7FFFFF#32 one = true) := by decide

theorem witness_ReductionIsTheFractionalPart :
    (signBit 0x3FFFFFFF#32 = false ∧ flt 0x3FFFFFFF#32 two = true) ∧ (signBit one = false ∧ flt one two = true) ∧
      (signBit 0x3F7FFFFF#32 = false ∧ flt 0x3F7FFFFF#32 one = true) := by decide

/-- A divisor of 1, for which the first clause is empty, and a divisor of 3. -/
theorem witness_CounterExpiresOnEveryDthTick :
    (1 ≤ (Lane.resetOf 4).div.get .a ∧ (Lane.resetOf 4).cnt.get .a = (Lane.resetOf 4).div.get .a) ∧
    (let ln := { Lane.resetOf 4 with div := ⟨3, 3⟩, cnt := ⟨3, 3⟩ }
     1 ≤ ln.div.get .b ∧ ln.cnt.get .b = ln.div.get .b ∧ 2 < ln.div.get .b) := by decide

theorem witness_NaiveSawIsBounded :
    (fle posZero 0x80000000#32 = true ∧ fle 0x80000000#32 one = true) ∧ (fle posZero one = true ∧ fle one one = true) := by
  decide

theorem witness_PulseSwitchesStrictlyAboveItsWidth :
    flt 0x3F000000#32 0x3F000001#32 = true ∧ flt 0x3F000000#32 0x3F000000#32 = false ∧ flt 0x3F7FFFFF#32 one = true := by
  decide

theorem witness_ZeroPulseWidthNeverRises :
    isZero 0x80000000#32 = true ∧ isZero 0x00000000#32 = true ∧ fle posZero 0x3F7FFFFF#32 = true ∧
      flt 0x3F7FFFFF#32 one = true := by decide

/-- Finite results of each operation; a subnormal product and a tie are among them. -/
theorem witness_ArithmeticRoundsToNearestEven :
    isFinite 0x3F800001#32 = true ∧ isFinite 0x33800000#32 = true ∧
    isFinite (fadd posZero 0x3F800001#32 0x33800000#32) = true ∧ fadd posZero 0x3F800001#32 0x33800000#32 = 0x3F800002#32 ∧
    isFinite (fmul posZero 0x00800000#32 0x33800000#32) = true ∧
    value 0x33800000#32 ≠ 0 ∧ isFinite (fdiv posZero 0x3F800001#32 0x33800000#32) = true := by decide

/-- An overflow and the largest sum that stays finite; sums other than zero and equal to zero; products and quotients of
nonzero operands that underflow to a zero, of either sign; zeros of both signs. -/
theorem witness_ArithmeticOverflowsAndSpecialValues :
    (isFinite 0x7F7FFFFF#32 = true ∧ fadd posZero 0x7F7FFFFF#32 0x73000000#32 = infOf false ∧
      fadd posZero 0x7F7FFFFF#32 0x72FFFFFF#32 = 0x7F7FFFFF#32) ∧
    (value one + value two ≠ 0 ∧ value one + value negOne = 0 ∧ value posZero + value negZero = 0) ∧
    (fmul posZero 0x00000001#32 0x80000001#32 = negZero ∧ isZero 0x00000001#32 = false ∧
      fdiv posZero 0x80000001#32 0xFF7FFFFF#32 = posZero ∧ isZero 0xFF7FFFFF#32 = false ∧ value 0xFF7FFFFF#32 ≠ 0) ∧
    (isZero negZero = true ∧ isZero posZero = true ∧ isZero one = false) := by decide

/-- The remaining clauses: an operand that is no NaN and not zero (an infinity is one), a NaN, and for each operation a pair
of operands that gives a NaN and one that does not. -/
theorem witness_ArithmeticOverflowsAndSpecialValues_special :
    (isNaN negOne = false ∧ isNaN (infOf true) = false ∧ isZero (infOf true) = false ∧ isFinite negZero = true ∧
      isNaN 0x7F800001#32 = true) ∧
    (isInf (infOf false) = true ∧ isInf (infOf true) = true ∧ signBit (infOf false) ≠ signBit (infOf true) ∧
      negate (infOf true) = infOf false) ∧
    (fadd 0x7FC00000#32 (infOf true) (infOf false) = 0x7FC00000#32 ∧ fmul 0x7FC00000#32 negZero (infOf true) = 0x7FC00000#32 ∧
      fdiv 0x7FC00000#32 posZero negZero = 0x7FC00000#32) ∧
    (isNaN (fadd 0x7FC00000#32 (infOf true) one) = false ∧ isNaN (fmul 0x7FC00000#32 one (infOf true)) = false ∧
      isNaN (fdiv 0x7FC00000#32 one posZero) = false) := by decide

/-- A NaN, finite values at both ends, the infinities themselves and the largest finite values beside them; crossings inside
the range, at its ends and outside. -/
theorem witness_ComparisonsAreThoseOfTheExtendedReals :
    (isNaN 0x7FC00000#32 = true ∧ isFinite 0xFF7FFFFF#32 = true ∧ isFinite 0x00000001#32 = true) ∧
    (isNaN (infOf false) = false ∧ isNaN (infOf true) = false ∧ isNaN 0x7F7FFFFF#32 = false ∧ isNaN 0xFF7FFFFF#32 = false) ∧
    (fle (infOf false) (infOf false) = true ∧ feq (infOf true) (infOf true) = true ∧ flt (infOf false) (infOf false) = false ∧
      fge (infOf true) 0xFF7FFFFF#32 = false) ∧
    (isInf (infOf true) = true ∧ crossed one = true ∧ crossed posZero = false ∧ crossed 0x3F800001#32 = false) := by decide

/-- Equal bounds, a NaN, both sides of the interval and its inside. -/
theorem witness_ClampIsTotalAndInRange :
    (isFinite one = true ∧ isFinite two = true ∧ fle one two = true ∧ fle one one = true) ∧ isNaN 0x7FC00000#32 = true ∧
    flt posZero one = true ∧ flt two 0x40400000#32 = true ∧ (fle one one = true ∧ fle one two = true) := by decide

theorem witness_IntegerConversionIsExact : 2 ^ 24 ≤ 2 ^ 24 ∧ itof 16777216 = 0x4B800000#32 := by decide

end Sys2Proof.Tests
end

/-! # What a command does to the state, to one lane and to STATUS

The facts the statements about the state (10_state.md) are assembled from. `CommandEffect` says once what each command
can answer; `laneAfter` says once what a command makes of one lane, from that lane and the shared scalars alone. -/

namespace Sys2Proof.Machine

/-! ## The answers of a command -/

/-- What a command can answer, one constructor for each path of its meaning: done, or rejected by a value check. -/
inductive CommandEffect (s : State) : Instr → State → Prop where
  | nop : CommandEffect s .nop s.done
  | setWaveform (m k : BitVec 4) : CommandEffect s (.setWaveform m k) (setWaveform m k s).done
  | setupSub {nn : Nat} {pitch : Lanes Word} {dA dB : Lanes Nat} (count : countLegal nn = true)
      (divisors : divisorsLegal dA dB = true) :
      CommandEffect s (.setupSub nn pitch dA dB) (setupState device nn pitch dA dB s).done
  | badCount {nn : Nat} {pitch : Lanes Word} {dA dB : Lanes Nat} (count : countLegal nn = false) :
      CommandEffect s (.setupSub nn pitch dA dB) (s.reject .cfgChannels)
  | badDivisor {nn : Nat} {pitch : Lanes Word} {dA dB : Lanes Nat} (count : countLegal nn = true)
      (divisors : divisorsLegal dA dB = false) : CommandEffect s (.setupSub nn pitch dA dB) (s.reject .cfgDivisor)
  | setPw {w : Lanes Word} (widths : pulseWidthsLegal w = true) : CommandEffect s (.setPw w) (setPulseWidths w s).done
  | badWidth {w : Lanes Word} (widths : pulseWidthsLegal w = false) :
      CommandEffect s (.setPw w) (s.reject .cfgPulseWidth)
  | computeOffset {tm : Word} (time : sampleTimeLegal tm = true) :
      CommandEffect s (.computeOffset tm) (offsetState device tm s).done
  | badTime {tm : Word} (time : sampleTimeLegal tm = false) :
      CommandEffect s (.computeOffset tm) (s.reject .cfgSampleTime)
  | process (tm : Word) (y : Lanes Word) : CommandEffect s (.process tm y) (processState device tm s).done
  | readMain : CommandEffect s .readMain (s.respond 0#8 (mainSamples s))
  | readSub (k : Sub) : CommandEffect s (.readSub k) (s.respond 0#8 (subSamples k s))
  | readStatus : CommandEffect s .readStatus (s.respond 0#8 [s.statusWord])

theorem setupSub_effect (nn : Nat) (pitch : Lanes Word) (dA dB : Lanes Nat) (s : State) :
    CommandEffect s (.setupSub nn pitch dA dB) (setupSub device nn pitch dA dB s) := by
  unfold setupSub
  cases hc : countLegal nn with
  | false => exact .badCount hc
  | true =>
    cases hd : divisorsLegal dA dB with
    | false => exact .badDivisor hc hd
    | true => exact .setupSub hc hd

theorem execSetPw_effect (w : Lanes Word) {s t : State} (h : execSetPw w s = .next t) :
    CommandEffect s (.setPw w) t := by
  unfold execSetPw at h
  cases hw : pulseWidthsLegal w with
  | false => rw [hw] at h; cases h; exact .badWidth hw
  | true => rw [hw] at h; cases h; exact .setPw hw

theorem computeOffset_effect (tm : Word) (s : State) :
    CommandEffect s (.computeOffset tm) (computeOffset device tm s) := by
  unfold computeOffset
  cases ht : sampleTimeLegal tm with
  | false => exact .badTime ht
  | true => exact .computeOffset ht

/-- The inversion lemma of `exec`. -/
theorem exec_effect {i : Instr} {s t : State} (h : exec i s = .next t) : CommandEffect s i t := by
  cases i with
  | nop => cases h; exact .nop
  | setWaveform m k => cases h; exact .setWaveform m k
  | setupSub nn pitch dA dB => cases h; exact setupSub_effect nn pitch dA dB s
  | setPw w => exact execSetPw_effect w h
  | computeOffset tm => cases h; exact computeOffset_effect tm s
  | process tm y => cases h; exact .process tm y
  | readMain => cases h; exact .readMain
  | readSub k => cases h; exact .readSub k
  | readStatus => cases h; exact .readStatus

/-! ## The value checks -/

theorem countLegal_iff {nn : Nat} : countLegal nn = true ↔ nn ≤ 4 := decide_eq_true_iff

theorem divisorLegal_iff {v : Nat} : divisorLegal v = true ↔ 1 ≤ v ∧ v ≤ 16 := by simp [divisorLegal]

theorem divisorsLegal_iff {dA dB : Lanes Nat} :
    divisorsLegal dA dB = true ↔ ∀ j, (1 ≤ dA.get j ∧ dA.get j ≤ 16) ∧ 1 ≤ dB.get j ∧ dB.get j ≤ 16 := by
  simp only [divisorsLegal, Bool.and_eq_true, Lanes.all_toList, divisorLegal_iff, forall_and]

theorem pulseWidthsLegal_iff {w : Lanes Word} :
    pulseWidthsLegal w = true ↔ ∀ j, fle posZero (w.get j) = true ∧ fle (w.get j) one = true := by
  simp only [pulseWidthsLegal, Lanes.all_toList, pulseWidthLegal, Bool.and_eq_true]

theorem divisorsLegal_eq_decide (dA dB : Lanes Nat) :
    divisorsLegal dA dB = decide (∀ j, (1 ≤ dA.get j ∧ dA.get j ≤ 16) ∧ 1 ≤ dB.get j ∧ dB.get j ≤ 16) :=
  Bool.eq_iff_iff.mpr (divisorsLegal_iff.trans decide_eq_true_iff.symm)

theorem pulseWidthsLegal_eq_decide (w : Lanes Word) :
    pulseWidthsLegal w = decide (∀ j, fle posZero (w.get j) = true ∧ fle (w.get j) one = true) :=
  Bool.eq_iff_iff.mpr (pulseWidthsLegal_iff.trans decide_eq_true_iff.symm)

/-! ## What a command makes of one lane -/

/-- Lane j after PROCESS, from the lane before it: moved when active, then sampled, its current cells cleared. -/
def sampledLane (c : Config) (d : Draw) (isActive : Bool) (pos : Sources Nat) (tm : Word) (ln : Lane) : Lane :=
  let moved := if isActive then processLane c d pos tm ln else ln
  outputLane c d isActive (bufRead moved .m pos.m) (bufRead moved .a pos.a) (bufRead moved .b pos.b)
    { moved with buf := ⟨moved.buf.m.set pos.m posZero, moved.buf.a.set pos.a posZero, moved.buf.b.set pos.b posZero⟩ }

theorem processState_lane_eq_sampledLane (c : Config) (tm : Word) (s : State) (j : Fin 4) :
    (processState c tm s).lane j = sampledLane c [j.val, s.draws] (active s.n j) s.pos tm (s.lane j) :=
  processState_lane c tm s j

/-- Lane j after a command, from the lane before it and the shared scalars. -/
def laneAfter (i : Instr) (n : Nat) (pos : Sources Nat) (draws : Nat) (j : Fin 4) (ln : Lane) : Lane :=
  match i with
  | .setWaveform m k => { ln with mainIsSaw := m.getLsbD j.val, subIsSaw := k.getLsbD j.val }
  | .setupSub nn pitch dA dB =>
    if countLegal nn && divisorsLegal dA dB then
      setupLane device [j.val, draws] (active nn j) (pitch.get j) (dA.get j) (dB.get j) ln
    else ln
  | .setPw w => if pulseWidthsLegal w then { ln with pw := w.get j } else ln
  | .computeOffset tm => if sampleTimeLegal tm then offsetLane device [j.val, draws] tm ln else ln
  | .process tm _ => sampledLane device [j.val, draws] (active n j) pos tm ln
  | _ => ln

/-- A command changes each lane by a function of that lane, the channel count, the positions and the draw counter (R20). -/
theorem exec_lane {i : Instr} {s t : State} (h : exec i s = .next t) (j : Fin 4) :
    t.lane j = laneAfter i s.n s.pos s.draws j (s.lane j) := by
  cases exec_effect h with
  | nop | readMain | readSub | readStatus => rfl
  | setWaveform m k => simp [State.lane, laneAfter]
  | setupSub count divisors => simp [State.lane, laneAfter, count, divisors]
  | badCount count => simp [State.lane, laneAfter, count]
  | badDivisor _ divisors => simp [State.lane, laneAfter, divisors]
  | setPw widths => simp [State.lane, laneAfter, widths]
  | badWidth widths => simp [State.lane, laneAfter, widths]
  | computeOffset time => simp [State.lane, laneAfter, time]
  | badTime time => simp [State.lane, laneAfter, time]
  | process tm y => exact processState_lane_eq_sampledLane device tm s j

/-! ## The shared scalars -/

/-- The channel count after a command. -/
def countAfter (i : Instr) (n : Nat) : Nat :=
  match i with
  | .setupSub nn _ dA dB => if countLegal nn && divisorsLegal dA dB then nn else n
  | _ => n

theorem exec_n {i : Instr} {s t : State} (h : exec i s = .next t) : t.n = countAfter i s.n := by
  cases exec_effect h with
  | nop | setWaveform | setPw | badWidth | computeOffset | badTime | process | readMain | readSub | readStatus => rfl
  | setupSub count divisors => simp [countAfter, count, divisors]
  | badCount count => simp [countAfter, count]
  | badDivisor _ divisors => simp [countAfter, divisors]

theorem countAfter_le {n : Nat} (i : Instr) (h : n ≤ 4) : countAfter i n ≤ 4 := by
  cases i with
  | setupSub nn pitch dA dB =>
    simp only [countAfter]
    split
    · rename_i hc
      exact countLegal_iff.mp (Bool.and_eq_true_iff.mp hc).1
    · exact h
  | nop | setWaveform | setPw | computeOffset | process | readMain | readSub | readStatus => exact h

theorem processState_pos (tm : Word) (s : State) (src : Source) :
    (processState device tm s).pos.get src = (s.pos.get src + 1) % 32 := by
  rw [processState_eq]
  cases src <;> rfl

/-- A position after a command, from the position before it (R36). -/
def positionAfter (i : Instr) (p : Nat) : Nat :=
  match i with
  | .process _ _ => (p + 1) % 32
  | _ => p

theorem exec_pos {i : Instr} {s t : State} (h : exec i s = .next t) (src : Source) :
    t.pos.get src = positionAfter i (s.pos.get src) := by
  cases exec_effect h with
  | process tm y => exact processState_pos tm s src
  | nop | setWaveform | setupSub | badCount | badDivisor | setPw | badWidth | computeOffset | badTime | readMain
  | readSub | readStatus => rfl

theorem positionAfter_lt {p : Nat} (i : Instr) (h : p < 32) : positionAfter i p < 32 := by
  cases i with
  | process tm y => exact Nat.mod_lt _ (by decide)
  | nop | setWaveform | setupSub | setPw | computeOffset | readMain | readSub | readStatus => exact h

theorem exec_pos_eq {i : Instr} {s t : State} (h : exec i s = .next t) {src src' : Source}
    (hs : s.pos.get src = s.pos.get src') : t.pos.get src = t.pos.get src' := by
  rw [exec_pos h, exec_pos h, hs]

/-- A step leaves lanes and positions alone, or executes a command from the same ones. -/
theorem step_registers_cases {s t : State} (h : step s = .next t) :
    (t.lanes = s.lanes ∧ t.pos = s.pos) ∨ ∃ i rest, exec i (s.consumed rest) = .next t := by
  rcases step_cases h with ⟨-, rfl⟩ | ⟨c, rest, -, -, rfl⟩ | ⟨i, rest, -, hx⟩
  · exact .inl ⟨rfl, rfl⟩
  · exact .inl ⟨rfl, rfl⟩
  · exact .inr ⟨i, rest, hx⟩

/-! ## STATUS -/

/-- STALE after a command, from STALE before it (R41, R300). -/
def staleAfter (i : Instr) (stale : Bool) : Bool :=
  match i with
  | .setWaveform _ _ => true
  | .setupSub nn _ dA dB => stale || (countLegal nn && divisorsLegal dA dB)
  | .setPw w => stale || pulseWidthsLegal w
  | .computeOffset tm => stale && !sampleTimeLegal tm
  | _ => stale

theorem exec_stale {i : Instr} {s t : State} (h : exec i s = .next t) :
    t.status.stale = staleAfter i s.status.stale := by
  cases exec_effect h with
  | nop | setWaveform | process | readMain | readSub | readStatus => rfl
  | setupSub count divisors => simp [staleAfter, count, divisors]
  | badCount count => simp [staleAfter, count]
  | badDivisor _ divisors => simp [staleAfter, divisors]
  | setPw widths => simp [staleAfter, widths]
  | badWidth widths => simp [staleAfter, widths]
  | computeOffset time => simp [staleAfter, time]
  | badTime time => simp [staleAfter, time]

/-- The bits of the STATUS word, by the rows of the table of R41. -/
theorem statusWord_getLsbD (s : State) {k : Nat} (hk : k < 32) :
    s.statusWord.getLsbD k =
      if k < 4 then [s.status.errIllegal, s.status.errCfg, s.status.errSeq, s.status.stale].getD k false
      else if k < 7 then (BitVec.ofNat 3 s.n).getLsbD (k - 4)
      else if k < 8 then false
      else s.status.lastCause.getLsbD (k - 8) := by
  simp only [State.statusWord, BitVec.getLsbD_append]
  interval_cases k <;> simp

theorem statusWord_count (s : State) : s.statusWord.extractLsb' 4 3 = BitVec.ofNat 3 s.n := by
  apply BitVec.eq_of_getLsbD_eq
  intro i hi
  rw [BitVec.getLsbD_extractLsb', statusWord_getLsbD s (by omega), if_neg (by omega), if_pos (by omega)]
  simp [hi]

theorem statusWord_cause (s : State) : s.statusWord.extractLsb' 8 8 = s.status.lastCause := by
  apply BitVec.eq_of_getLsbD_eq
  intro i hi
  rw [BitVec.getLsbD_extractLsb', statusWord_getLsbD s (by omega), if_neg (by omega), if_neg (by omega),
    if_neg (by omega)]
  simp [hi]

theorem statusWord_high (s : State) : s.statusWord.extractLsb' 16 16 = 0#16 := by
  apply BitVec.eq_of_getLsbD_eq
  intro i hi
  rw [BitVec.getLsbD_extractLsb', statusWord_getLsbD s (by omega), if_neg (by omega), if_neg (by omega),
    if_neg (by omega), BitVec.getLsbD_of_ge _ _ (by omega)]
  simp

/-! ## The form of the rings -/

@[simp] theorem ringLengths_sampledLane (c : Config) (d : Draw) (isActive : Bool) (pos : Sources Nat) (tm : Word)
    (ln : Lane) : ringLengths (sampledLane c d isActive pos tm ln) = ringLengths ln := by
  have cleared : ∀ m : Lane, ringLengths { m with
      buf := ⟨m.buf.m.set pos.m posZero, m.buf.a.set pos.a posZero, m.buf.b.set pos.b posZero⟩ } = ringLengths m := by
    intro m; simp [ringLengths]
  unfold sampledLane
  cases isActive with
  | false => simp [cleared]
  | true => simp [cleared]

@[simp] theorem ringLengths_laneAfter (i : Instr) (n : Nat) (pos : Sources Nat) (draws : Nat) (j : Fin 4) (ln : Lane) :
    ringLengths (laneAfter i n pos draws j ln) = ringLengths ln := by
  cases i with
  | nop | setWaveform | readMain | readSub | readStatus => rfl
  | setupSub nn pitch dA dB => simp only [laneAfter]; split <;> simp
  | setPw w => simp only [laneAfter]; split <;> rfl
  | computeOffset tm => simp only [laneAfter]; split <;> rfl
  | process tm y => exact ringLengths_sampledLane _ _ _ _ _ _

/-! ## The invariant of a lane, and of STATUS -/

/-- R46 (b) to (f), (h) and R34 for lane j of an engine with channel count n. -/
structure Lane.Ok (n : Nat) (j : Fin 4) (ln : Lane) : Prop where
  counters : ln.CountersOk
  pulseWidth : pulseWidthLegal ln.pw = true
  frequencies : ln.FrequenciesOk
  phases : ln.PhasesOk
  silent : n ≤ j.val → ln.Silent
  sync : ln.syncDir = one
  rings : ringLengths ln = Sources.all 32

/-- R41, R261: LAST_CAUSE is a code of the table, and 0 exactly when nothing has been rejected. -/
def Status.CausesOk (st : Status) : Prop :=
  st.lastCause.toNat ≤ 7 ∧ (st.lastCause = 0#8 ↔ st.errIllegal = false ∧ st.errCfg = false)

/-- The invariants between commands, lane by lane. -/
theorem State.inv_iff (s : State) :
    s.Inv ↔ s.n ≤ 4 ∧ (∀ j, (s.lane j).Ok s.n j) ∧ (s.pos.a = s.pos.m ∧ s.pos.b = s.pos.m ∧ s.pos.m < 32) ∧
      frameCommand s.frame = none ∧ s.status.CausesOk := by
  constructor
  · rintro ⟨count, counters, widths, frequencies, phases, inactive, positions, sync, rings, framing, causes⟩
    exact ⟨count, fun j => ⟨counters j, widths j, frequencies j, phases j, inactive j, sync j,
      (Memory.wf_iff s 32).mp rings j⟩, positions, framing, causes⟩
  · rintro ⟨count, lanes, positions, framing, causes⟩
    exact ⟨count, fun j => (lanes j).counters, fun j => (lanes j).pulseWidth, fun j => (lanes j).frequencies,
      fun j => (lanes j).phases, fun j => (lanes j).silent, positions, fun j => (lanes j).sync,
      (Memory.wf_iff s 32).mpr fun j => (lanes j).rings, framing, causes⟩

theorem Status.CausesOk.rejected (st : Status) (c : Cause) : (st.rejected c).CausesOk := by
  cases c <;> simp [Status.CausesOk, causeCode, causeIsCfg]

theorem exec_causesOk {i : Instr} {s t : State} (h : exec i s = .next t) (hs : s.status.CausesOk) :
    t.status.CausesOk := by
  cases exec_effect h with
  | badCount | badDivisor | badWidth | badTime => exact .rejected _ _
  | nop | setWaveform | setupSub | setPw | computeOffset | process | readMain | readSub | readStatus => exact hs

end Sys2Proof.Machine

/-! # Phases and frequencies stay in their ranges

The arithmetic behind R46 (d) and (e): every bound is one on `orderKey`, which comparisons compare and rounding keeps. -/

namespace Sys2Proof.Machine

/-! ## The ranges as ranges of the order key -/

theorem isNaN_eq_false_of_orderKey {x : Word} (h : 0 ≤ orderKey x) (h' : orderKey x ≤ 0x7F800000) : isNaN x = false := by
  rw [← Bool.not_eq_true, isNaN_iff_orderKey]; omega

theorem unitPhase_iff {x : Word} : unitPhase x = true ↔ 0 ≤ orderKey x ∧ orderKey x < orderKey one := by
  have hz : isNaN posZero = false := by decide
  have ho : isNaN one = false := by decide
  have kz : orderKey posZero = 0 := by decide
  have ko : orderKey one = 0x3F800000 := by decide
  constructor
  · intro h
    obtain ⟨hl, hr⟩ := Bool.and_eq_true_iff.mp h
    exact ⟨kz ▸ orderKey_le_of_fle hl, orderKey_lt_of_flt hr⟩
  · rintro ⟨hl, hr⟩
    have hx : isNaN x = false := isNaN_eq_false_of_orderKey hl (by omega)
    exact Bool.and_eq_true_iff.mpr ⟨(fle_iff hz hx).mpr (kz ▸ hl), (flt_iff hx ho).mpr hr⟩

theorem finiteNonneg_iff {x : Word} : finiteNonneg x = true ↔ 0 ≤ orderKey x ∧ orderKey x < 0x7F800000 := by
  have hz : isNaN posZero = false := by decide
  have kz : orderKey posZero = 0 := by decide
  rw [finiteNonneg, Bool.and_eq_true, isFinite_iff_orderKey]
  constructor
  · rintro ⟨hf, hl⟩
    have := orderKey_le_of_fle hl
    omega
  · rintro ⟨hl, hr⟩
    have hx : isNaN x = false := isNaN_eq_false_of_orderKey hl (by omega)
    exact ⟨by omega, (fle_iff hz hx).mpr (kz ▸ hl)⟩

theorem isFinite_of_finiteNonneg {x : Word} (h : finiteNonneg x = true) : isFinite x = true :=
  (Bool.and_eq_true_iff.mp h).1

theorem finiteNonneg_of_unitPhase {x : Word} (h : unitPhase x = true) : finiteNonneg x = true := by
  have ko : orderKey one = 0x3F800000 := by decide
  have := unitPhase_iff.mp h
  exact finiteNonneg_iff.mpr ⟨this.1, by omega⟩

theorem value_nonneg_iff (x : Word) : 0 ≤ value x ↔ 0 ≤ orderKey x := by
  have hv : value posZero = 0 := by decide
  have hk : orderKey posZero = 0 := by decide
  have h := value_le_iff posZero x
  rwa [hv, hk] at h

theorem roundKey_nonneg {v : Int} {den : Nat} (h : 0 ≤ v) : 0 ≤ roundKey v den := by
  rw [roundKey, if_neg (by omega)]; omega

/-- Rounding a value that is at most a representable one does not pass it. -/
theorem roundKey_le_orderKey {v : Int} {x : Word} (hx : isFinite x = true) (h : v ≤ value x) :
    roundKey v 1 ≤ orderKey x := by
  rw [← roundKey_value hx]
  exact roundKey_mono one_pos one_pos (by simpa using h)

/-! ## Frequencies (R227) -/

theorem fsan_device_range (f : Word) :
    finiteNonneg (fsan device f) = true ∧ fle (fsan device f) device.freqMax = true := by
  unfold fsan
  split
  · exact ⟨by decide, by decide⟩
  · rename_i hpos
    split
    · exact ⟨by decide, by decide⟩
    · rename_i hmax
      have hz : isNaN posZero = false := by decide
      have hm : isNaN device.freqMax = false := by decide
      have kz : orderKey posZero = 0 := by decide
      have km : orderKey device.freqMax = 0x47C35000 := by decide
      simp only [Bool.or_eq_true, not_or, Bool.not_eq_true] at hpos
      obtain ⟨hf, hpos⟩ := hpos
      rw [← Bool.not_eq_true, fle_iff hf hz] at hpos
      rw [fgt, flt_iff hm hf] at hmax
      exact ⟨finiteNonneg_iff.mpr ⟨by omega, by omega⟩, (fle_iff hf hm).mpr (by omega)⟩

/-! ## Division by a divisor (R99, R187, R224) -/

theorem itof_divisor {dv : Nat} (h₁ : 1 ≤ dv) (h₂ : dv ≤ 16) :
    isFinite (itof dv) = true ∧ signBit (itof dv) = false ∧ magnitude (itof dv) = dv * 2 ^ 149 := by
  interval_cases dv <;> decide

/-- A finite value that is not negative, over a divisor: no larger, and not negative. -/
theorem fdiv_itof_range {q x : Word} {dv : Nat} (hx : finiteNonneg x = true) (h₁ : 1 ≤ dv) (h₂ : dv ≤ 16) :
    0 ≤ orderKey (fdiv q x (itof dv)) ∧ orderKey (fdiv q x (itof dv)) ≤ orderKey x := by
  obtain ⟨hf, hs, hm⟩ := itof_divisor h₁ h₂
  have hpos : 0 < magnitude (itof dv) := by rw [hm]; positivity
  have hx' := isFinite_of_finiteNonneg hx
  obtain ⟨-, sign, low⟩ := fdiv_finite (q := q) hx' hf (by simp [isZero]; omega)
  have hlow : low31 (fdiv q x (itof dv)) ≤ low31 x := by
    calc low31 (fdiv q x (itof dv)) = packMagnitude (magnitude x * 2 ^ 149) (magnitude (itof dv)) := low
      _ ≤ packMagnitude (magOfBits (low31 x)) 1 := by
        rw [magnitude_eq x]
        refine packMagnitude_mono hpos one_pos ?_
        rw [hm, mul_one, ← mul_assoc, mul_right_comm]
        exact Nat.le_mul_of_pos_right _ h₁
      _ = low31 x := packMagnitude_magOfBits _ ((isFinite_iff x).mp hx')
  have hk := (finiteNonneg_iff.mp hx).1
  simp only [orderKey_eq, sign, hs, Bool.bne_false] at hk ⊢
  split_ifs at hk ⊢ <;> omega

theorem finiteNonneg_fdiv_itof {q x : Word} {dv : Nat} (hx : finiteNonneg x = true) (h₁ : 1 ≤ dv) (h₂ : dv ≤ 16) :
    finiteNonneg (fdiv q x (itof dv)) = true := by
  have := finiteNonneg_iff.mp hx
  have := fdiv_itof_range (q := q) hx h₁ h₂
  exact finiteNonneg_iff.mpr ⟨by omega, by omega⟩

/-! ## Phases (R160, R164, R165, R187) -/

/-- The clamp's range, for bounds in order that are no NaN (R116). -/
theorem fclamp_range {x lo hi : Word} (h : fle lo hi = true) :
    fle lo (fclamp x lo hi) = true ∧ fle (fclamp x lo hi) hi = true := by
  obtain ⟨hlo, hhi⟩ := not_nan_of_fle h
  unfold fclamp
  split
  · exact ⟨(fle_iff hlo hlo).mpr le_rfl, h⟩
  · rename_i hx
    simp only [Bool.or_eq_true, not_or, Bool.not_eq_true] at hx
    obtain ⟨hn, hl⟩ := hx
    split
    · exact ⟨h, (fle_iff hhi hhi).mpr le_rfl⟩
    · rename_i hg
      rw [← Bool.not_eq_true, flt_iff hn hlo] at hl
      rw [fgt, flt_iff hhi hn] at hg
      exact ⟨(fle_iff hlo hn).mpr (by omega), (fle_iff hn hhi).mpr (by omega)⟩

theorem increment_range (d : Draw) (f tm : Word) :
    fle device.dphMin (increment device d f tm) = true ∧ fle (increment device d f tm) device.dphMax = true :=
  fclamp_range (by decide)

/-- A phase in [0, 1) and one increment: the unwrapped phase is in [0, 1.5) (R166). -/
theorem paAdvance_range {d : Draw} {ph f tm : Word} (h : unitPhase ph = true) :
    0 ≤ orderKey (paAdvance device d ph f tm).2 ∧ orderKey (paAdvance device d ph f tm).2 < 0x3FC00000 := by
  obtain ⟨hmin, hmax⟩ := increment_range d f tm
  have kmin : 0 ≤ orderKey device.dphMin := by decide
  have kmax : orderKey device.dphMax < 0x7F800000 := by decide
  have hmin := orderKey_le_of_fle hmin
  have hmax := orderKey_le_of_fle hmax
  obtain ⟨h0, h1⟩ := unitPhase_iff.mp h
  have hph := isFinite_of_finiteNonneg (finiteNonneg_of_unitPhase h)
  have hdl : isFinite (increment device d f tm) = true := (isFinite_iff_orderKey _).mpr (by omega)
  have key : orderKey (paAdvance device d ph f tm).2 = roundKey (value ph + value (increment device d f tm)) 1 :=
    (fadd_finite hph hdl).2
  have v0 : 0 ≤ value ph := (value_nonneg_iff _).mpr h0
  have v0' : 0 ≤ value (increment device d f tm) := (value_nonneg_iff _).mpr (by omega)
  have v1 : value ph ≤ value one := (value_le_iff _ _).mpr h1.le
  have v1' : value (increment device d f tm) ≤ value device.dphMax := (value_le_iff _ _).mpr hmax
  have top : value one + value device.dphMax ≤ value 0x3FBFFFFF#32 := by decide
  rw [key]
  refine ⟨roundKey_nonneg (by omega), ?_⟩
  have := roundKey_le_orderKey (x := 0x3FBFFFFF#32) (by decide) (le_trans (add_le_add v1 v1') top)
  have k : orderKey 0x3FBFFFFF#32 = 0x3FBFFFFF := by decide
  omega

/-- The reduction brings an unwrapped phase back into [0, 1) (R164). -/
theorem unitPhase_paReduce {c : Config} {d : Draw} {phi : Word} (h0 : 0 ≤ orderKey phi)
    (h1 : orderKey phi < 0x3FC00000) : unitPhase (paReduce c d phi) = true := by
  have ho : isNaN one = false := by decide
  have hn : isNaN phi = false := isNaN_eq_false_of_orderKey h0 (by omega)
  have hf : isFinite phi = true := (isFinite_iff_orderKey _).mpr (by omega)
  unfold paReduce
  rw [unitPhase_iff]
  split
  · rename_i hge
    have v1 : value one ≤ value phi := (value_le_iff _ _).mpr (orderKey_le_of_fle hge)
    have k : orderKey 0x3FC00000#32 = 0x3FC00000 := by decide
    have v2 : value phi ≤ value 0x3FC00000#32 := (value_le_iff _ _).mpr (by omega)
    have top : value 0x3FC00000#32 - value one ≤ value half := by decide
    have below : orderKey half < orderKey one := by decide
    rw [(fsub_finite hf (by decide)).2]
    exact ⟨roundKey_nonneg (by omega), lt_of_le_of_lt (roundKey_le_orderKey (by decide) (by omega)) below⟩
  · rename_i hge
    rw [fge, fle_iff ho hn] at hge
    exact ⟨h0, by omega⟩

theorem unitPhase_paReduce_of_unitPhase {c : Config} {d : Draw} {phi : Word} (h : unitPhase phi = true) :
    unitPhase (paReduce c d phi) = true := by
  have ko : orderKey one = 0x3F800000 := by decide
  obtain ⟨h0, h1⟩ := unitPhase_iff.mp h
  exact unitPhase_paReduce h0 (by omega)

/-- A phase in [0, 1) has floor zero. -/
theorem value_ffloor_of_unitPhase {x : Word} (h : unitPhase x = true) :
    isFinite (ffloor x) = true ∧ value (ffloor x) = 0 := by
  obtain ⟨h0, h1⟩ := unitPhase_iff.mp h
  have hf := isFinite_of_finiteNonneg (finiteNonneg_of_unitPhase h)
  have v0 : 0 ≤ value x := (value_nonneg_iff _).mpr h0
  have v1 : value x < 2 ^ 149 := lt_of_lt_of_eq ((value_lt_iff _ _).mpr h1) (by decide)
  unfold ffloor
  rw [if_pos hf]
  split
  · rename_i hm
    exact ⟨hf, by simp [value, hm]⟩
  · rw [if_pos (Int.ediv_eq_zero_of_lt v0 v1)]
    exact ⟨by decide, by decide⟩

/-- The fractional part of a phase in [0, 1) is the same number. -/
theorem orderKey_ffrac_of_unitPhase {q x : Word} (h : unitPhase x = true) : orderKey (ffrac q x) = orderKey x := by
  obtain ⟨hfl, hv⟩ := value_ffloor_of_unitPhase h
  have hf := isFinite_of_finiteNonneg (finiteNonneg_of_unitPhase h)
  rw [ffrac, (fsub_finite hf hfl).2, hv, sub_zero, roundKey_value hf]

theorem unitPhase_resync {c : Config} {d : Draw} {ph : Word} {dv : Nat} (h : unitPhase ph = true) (h₁ : 1 ≤ dv)
    (h₂ : dv ≤ 16) : unitPhase (resync c d ph dv) = true := by
  have hk : orderKey (ffrac (c.nan (1 :: d)) ph) = orderKey ph := orderKey_ffrac_of_unitPhase h
  have hu : unitPhase (ffrac (c.nan (1 :: d)) ph) = true := by
    rw [unitPhase_iff, hk]; exact unitPhase_iff.mp h
  obtain ⟨-, hlt⟩ := unitPhase_iff.mp h
  obtain ⟨lo, hi⟩ := fdiv_itof_range (q := c.nan (0 :: d)) (finiteNonneg_of_unitPhase hu) h₁ h₂
  exact unitPhase_iff.mpr ⟨lo, by rw [resync]; omega⟩

end Sys2Proof.Machine

/-! # A command keeps the invariant of every lane -/

namespace Sys2Proof.Machine

/-! ## The sample -/

theorem tickCount_range {ln : Lane} (h : ln.CountersOk) (k : Sub) (wrapped : Bool) :
    1 ≤ tickCount ln k wrapped ∧ tickCount ln k wrapped ≤ ln.div.get k := by
  obtain ⟨hlo, hhi, -⟩ := h k
  unfold tickCount expires
  cases wrapped with
  | false => exact ⟨hlo, hhi⟩
  | true => simp only [Bool.true_and, decide_eq_true_eq, if_true]; split <;> omega

theorem unitPhase_phaseAfter {d : Draw} {tm : Word} {ln : Lane} (h : unitPhase ln.phase = true) :
    unitPhase (phaseAfter device d tm ln) = true := by
  obtain ⟨lo, hi⟩ := paAdvance_range (d := 0 :: d) (f := ln.freq) (tm := tm) h
  exact unitPhase_paReduce lo hi

theorem subAdvance_range {d : Draw} {tm : Word} {ln : Lane} (k : Sub) (h : unitPhase (ln.subPhase.get k) = true) :
    0 ≤ orderKey (subAdvance device d tm k ln).2 ∧ orderKey (subAdvance device d tm k ln).2 < 0x3FC00000 := by
  cases k with
  | a => exact paAdvance_range h
  | b => exact paAdvance_range h

/-- The stored sub-phase is the reduced advanced one, or the reduced resync value. -/
theorem unitPhase_subPhaseAfter {d : Draw} {k : Sub} {wrapped : Bool} {ph sigma : Word} {ln : Lane}
    (hc : ln.CountersOk) (hph : unitPhase ph = true) (h0 : 0 ≤ orderKey sigma) (h1 : orderKey sigma < 0x3FC00000) :
    unitPhase (subPhaseAfter device d k wrapped ph sigma ln) = true := by
  obtain ⟨hlo, hle, hhi⟩ := hc k
  unfold subPhaseAfter
  split
  · exact unitPhase_paReduce_of_unitPhase (unitPhase_resync hph (hlo.trans hle) hhi)
  · exact unitPhase_paReduce h0 h1

theorem processLane_countersOk {d : Draw} {pos : Sources Nat} {tm : Word} {ln : Lane} (h : ln.CountersOk) :
    (processLane device d pos tm ln).CountersOk := by
  rw [processLane_eq]
  intro k
  obtain ⟨-, -, hdiv⟩ := h k
  cases k with
  | a => exact ⟨(tickCount_range h .a _).1, (tickCount_range h .a _).2, hdiv⟩
  | b => exact ⟨(tickCount_range h .b _).1, (tickCount_range h .b _).2, hdiv⟩

theorem processLane_phasesOk {d : Draw} {pos : Sources Nat} {tm : Word} {ln : Lane} (hc : ln.CountersOk)
    (hp : ln.PhasesOk) : (processLane device d pos tm ln).PhasesOk := by
  obtain ⟨hmain, hsub⟩ := hp
  have hphase := unitPhase_phaseAfter (d := d) (tm := tm) hmain
  have sub : ∀ k e wrapped,
      unitPhase (subPhaseAfter device e k wrapped (phaseAfter device d tm ln) (subAdvance device d tm k ln).2 ln)
        = true := by
    intro k e wrapped
    obtain ⟨lo, hi⟩ := subAdvance_range (d := d) (tm := tm) k (hsub k)
    exact unitPhase_subPhaseAfter hc hphase lo hi
  rw [processLane_eq]
  refine ⟨hphase, fun k => ?_⟩
  cases k with
  | a => exact sub .a _ _
  | b => exact sub .b _ _

/-- Moving an active lane keeps its invariant; its outputs are not yet written. -/
theorem Lane.Ok.moved {n : Nat} {j : Fin 4} {ln : Lane} (h : ln.Ok n j) (hact : j.val < n) (d : Draw)
    (pos : Sources Nat) (tm : Word) : (processLane device d pos tm ln).Ok n j where
  counters := processLane_countersOk h.counters
  pulseWidth := by rw [processLane_eq]; exact h.pulseWidth
  frequencies := by rw [processLane_eq]; exact h.frequencies
  phases := processLane_phasesOk h.counters h.phases
  silent hn := absurd hact (by omega)
  sync := by rw [processLane_eq]; exact h.sync
  rings := by rw [ringLengths_processLane]; exact h.rings

/-- Clearing cells and writing outputs keeps the invariant of a lane; the outputs of an inactive one are +0.0. -/
theorem Lane.Ok.outputs {n : Nat} {j : Fin 4} {ln : Lane} (h : ln.Ok n j) (c : Config) (d : Draw)
    (kM kA kB : Word) (buf : Sources (List Word)) (hbuf : ringLengths { ln with buf := buf } = ringLengths ln) :
    (outputLane c d (active n j) kM kA kB { ln with buf := buf }).Ok n j := by
  by_cases hact : j.val < n
  · rw [active, decide_eq_true hact]
    exact ⟨h.counters, h.pulseWidth, h.frequencies, h.phases, fun hn => absurd hact (by omega), h.sync,
      (ringLengths_outputLane ..).trans (hbuf.trans h.rings)⟩
  · rw [active, decide_eq_false hact]
    refine ⟨h.counters, h.pulseWidth, h.frequencies, h.phases, fun hn => ?_, h.sync,
      (ringLengths_outputLane ..).trans (hbuf.trans h.rings)⟩
    obtain ⟨hfreq, hphase, -, hsub⟩ := h.silent hn
    exact ⟨hfreq, hphase, rfl, fun k => ⟨(hsub k).1, (hsub k).2.1, Subs.get_all _ _⟩⟩

theorem Lane.Ok.sampled {n : Nat} {j : Fin 4} {ln : Lane} (h : ln.Ok n j) (d : Draw) (pos : Sources Nat)
    (tm : Word) : (sampledLane device d (active n j) pos tm ln).Ok n j := by
  have moved : (if active n j then processLane device d pos tm ln else ln).Ok n j := by
    by_cases hact : j.val < n
    · rw [if_pos (by simp [active, hact])]; exact h.moved hact d pos tm
    · rw [if_neg (by simp [active, hact])]; exact h
  exact moved.outputs device d _ _ _ _ (by simp [ringLengths])

/-! ## The control-rate commands -/

theorem setDivisors_countersOk {dA dB : Nat} {ln : Lane} (h : ln.CountersOk) (hA : 1 ≤ dA ∧ dA ≤ 16)
    (hB : 1 ≤ dB ∧ dB ≤ 16) : (setDivisors dA dB ln).CountersOk := by
  intro k
  obtain ⟨hlo, -, -⟩ := h k
  cases k with
  | a => exact ⟨le_min hlo hA.1, min_le_right _ _, hA.2⟩
  | b => exact ⟨le_min hlo hB.1, min_le_right _ _, hB.2⟩

theorem setFrequencies_frequenciesOk {d : Draw} {pitch : Word} {dA dB : Nat} {ln : Lane} (hA : 1 ≤ dA ∧ dA ≤ 16)
    (hB : 1 ≤ dB ∧ dB ≤ 16) : (setFrequencies device d pitch dA dB ln).FrequenciesOk := by
  obtain ⟨hf, hmax⟩ := fsan_device_range (device.p2f pitch)
  refine ⟨hf, hmax, fun k => ?_⟩
  cases k with
  | a => exact finiteNonneg_fdiv_itof hf hA.1 hA.2
  | b => exact finiteNonneg_fdiv_itof hf hB.1 hB.2

theorem silence_frequenciesOk (ln : Lane) : (silence ln).FrequenciesOk :=
  ⟨by rw [silence_freq]; decide, by rw [silence_freq]; decide, fun k => by rw [silence_subFreq, Subs.get_all]; decide⟩

theorem silence_phasesOk (ln : Lane) : (silence ln).PhasesOk :=
  ⟨by rw [silence_phase]; decide, fun k => by rw [silence_subPhase, Subs.get_all]; decide⟩

theorem silence_silent (ln : Lane) : (silence ln).Silent :=
  ⟨rfl, rfl, rfl, fun k => ⟨Subs.get_all _ k, Subs.get_all _ k, Subs.get_all _ k⟩⟩

/-- A legal SETUP_SUB gives a lane the invariant of the new channel count. -/
theorem Lane.Ok.configured {n nn : Nat} {j : Fin 4} {ln : Lane} (h : ln.Ok n j) (d : Draw) (pitch : Word) {dA dB : Nat}
    (hA : 1 ≤ dA ∧ dA ≤ 16) (hB : 1 ≤ dB ∧ dB ≤ 16) :
    (setupLane device d (active nn j) pitch dA dB ln).Ok nn j := by
  have counters : (setDivisors dA dB ln).CountersOk := setDivisors_countersOk h.counters hA hB
  by_cases hact : j.val < nn
  · rw [active, decide_eq_true hact]
    exact ⟨counters, h.pulseWidth, setFrequencies_frequenciesOk hA hB, h.phases, fun hn => absurd hact (by omega),
      h.sync, h.rings⟩
  · rw [active, decide_eq_false hact]
    exact ⟨counters, h.pulseWidth, silence_frequenciesOk _, silence_phasesOk _, fun _ => silence_silent _, h.sync,
      h.rings⟩

/-! ## Every command -/

/-- Every command keeps the invariant of every lane, for the channel count it leaves. -/
theorem Lane.Ok.after {n : Nat} {j : Fin 4} {ln : Lane} (h : ln.Ok n j) (i : Instr) (pos : Sources Nat)
    (draws : Nat) : (laneAfter i n pos draws j ln).Ok (countAfter i n) j := by
  cases i with
  | nop | readMain | readSub | readStatus => exact h
  | setWaveform m k =>
    exact ⟨h.counters, h.pulseWidth, h.frequencies, h.phases, h.silent, h.sync, h.rings⟩
  | setupSub nn pitch dA dB =>
    simp only [laneAfter, countAfter]
    split
    · rename_i legal
      obtain ⟨hA, hB⟩ := divisorsLegal_iff.mp (Bool.and_eq_true_iff.mp legal).2 j
      exact h.configured _ _ hA hB
    · exact h
  | setPw w =>
    simp only [laneAfter, countAfter]
    split
    · rename_i legal
      have width : pulseWidthLegal (w.get j) = true := Bool.and_eq_true_iff.mpr (pulseWidthsLegal_iff.mp legal j)
      exact ⟨h.counters, width, h.frequencies, h.phases, h.silent, h.sync, h.rings⟩
    · exact h
  | computeOffset tm =>
    simp only [laneAfter, countAfter]
    split
    · exact ⟨h.counters, h.pulseWidth, h.frequencies, h.phases, h.silent, h.sync, h.rings⟩
    · exact h
  | process tm y => exact h.sampled _ pos tm

/-- A command executed at a command boundary keeps the invariants. -/
theorem State.Inv.of_exec {i : Instr} {s t : State} (hs : s.Inv) (h : exec i s = .next t) : t.Inv := by
  obtain ⟨count, lanes, positions, framing, causes⟩ := (State.inv_iff s).mp hs
  refine (State.inv_iff t).mpr ⟨?_, fun j => ?_, ?_, ?_, exec_causesOk h causes⟩
  · rw [exec_n h]; exact countAfter_le i count
  · rw [exec_n h, exec_lane h j]; exact (lanes j).after i s.pos s.draws
  · obtain ⟨ha, hb, hm⟩ := positions
    refine ⟨exec_pos_eq h (src := .a) (src' := .m) ha, exec_pos_eq h (src := .b) (src' := .m) hb, ?_⟩
    exact lt_of_eq_of_lt (exec_pos h .m) (positionAfter_lt i hm)
  · rw [(exec_stream h).1]; exact framing

theorem State.Inv.consumed {s : State} (hs : s.Inv) (rest : List Word) : (s.consumed rest).Inv := by
  obtain ⟨count, lanes, positions, -, causes⟩ := (State.inv_iff s).mp hs
  exact (State.inv_iff _).mpr ⟨count, lanes, positions, rfl, causes⟩

theorem State.Inv.reject {s : State} (hs : s.Inv) (c : Cause) : (s.reject c).Inv := by
  obtain ⟨count, lanes, positions, framing, -⟩ := (State.inv_iff s).mp hs
  exact (State.inv_iff _).mpr ⟨count, lanes, positions, framing, .rejected _ _⟩

theorem State.Inv.await {s : State} (hs : s.Inv) (h : frameCommand s.stream = none) : s.await.Inv := by
  obtain ⟨count, lanes, positions, -, causes⟩ := (State.inv_iff s).mp hs
  exact (State.inv_iff _).mpr ⟨count, lanes, positions, h, causes⟩

/-! ## Reset -/

theorem reset_lane (j : Fin 4) : State.reset.lane j = Lane.resetOf 32 := Lanes.get_all _ j

/-- The reset lane has the invariant of a lane of an engine with no active lane (R45). -/
theorem resetLane_ok (j : Fin 4) : (Lane.resetOf 32).Ok 0 j where
  counters k := by cases k <;> decide
  pulseWidth := by decide
  frequencies := ⟨by decide, by decide, fun k => by cases k <;> decide⟩
  phases := ⟨by decide, fun k => by cases k <;> decide⟩
  silent _ := ⟨rfl, rfl, rfl, fun k => ⟨Subs.get_all _ k, Subs.get_all _ k, Subs.get_all _ k⟩⟩
  sync := rfl
  rings := by decide

end Sys2Proof.Machine

/-! # The statements of 10_state.md -/

namespace Sys2Proof.Proofs.StateFamily

open Sys2Proof Sys2Proof.Machine

/-- Settles O3: a step waits, rejects or executes, and each of the three keeps the invariants. -/
theorem everyStepKeepsTheInvariants : Obligations.EveryStepKeepsTheInvariants := by
  intro s t hs h
  rcases step_cases h with ⟨hf, rfl⟩ | ⟨c, rest, -, -, rfl⟩ | ⟨i, rest, -, hx⟩
  · exact hs.await hf
  · exact (hs.consumed rest).reject c
  · exact (hs.consumed rest).of_exec hx

/-- Settles O4: no command changes the length of a ring of a lane. -/
theorem everyStepKeepsTheRingForm : Obligations.EveryStepKeepsTheRingForm := by
  intro s t hs h
  refine Memory.wf_of_ringLengths (fun j => ?_) hs
  rcases step_registers_cases h with ⟨hl, -⟩ | ⟨i, rest, hx⟩
  · simp only [State.lane, hl]
  · rw [exec_lane hx j]; exact ringLengths_laneAfter ..

/-- Settles O18: `staleAfter` with the value checks written out. -/
theorem staleFollowsSettersAndOffsets : Obligations.StaleFollowsSettersAndOffsets := by
  intro i s t h
  rw [exec_stale h]
  cases i with
  | setupSub nn pitch dA dB => rw [staleAfter, divisorsLegal_eq_decide]; rfl
  | setPw w => rw [staleAfter, pulseWidthsLegal_eq_decide]
  | nop | setWaveform | computeOffset | process | readMain | readSub | readStatus => rfl

/-- Settles O38: a lane after a command is a function of the lane and the shared scalars. -/
theorem lanesAreIndependent : Obligations.LanesAreIndependent := by
  intro i s s' t t' j hlane hn hpos hdraws h h'
  calc t.lane j = laneAfter i s.n s.pos s.draws j (s.lane j) := exec_lane h j
    _ = laneAfter i s'.n s'.pos s'.draws j (s'.lane j) := by rw [hlane, hn, hpos, hdraws]
    _ = t'.lane j := (exec_lane h' j).symm

/-- Settles O39: a command moves all positions or none, and a step that executes none moves none. -/
theorem positionsAdvanceOnceForEachProcess : Obligations.PositionsAdvanceOnceForEachProcess := by
  refine ⟨fun i s t h src => (exec_pos h src).trans (by cases i <;> rfl), fun s t hma hab h => ?_⟩
  rcases step_registers_cases h with ⟨-, hp⟩ | ⟨i, rest, hx⟩
  · rw [hp]; exact ⟨hma, hab⟩
  · exact ⟨exec_pos_eq hx (src := .m) (src' := .a) hma, exec_pos_eq hx (src := .a) (src' := .b) hab⟩

/-- Settles O1, field by field of the reset lane. -/
theorem resetStateHoldsTheResetValues : Obligations.ResetStateHoldsTheResetValues := by
  refine ⟨fun i => ?_, fun src => Sources.get_all _ _, rfl, rfl⟩
  rw [reset_lane]
  exact ⟨rfl, fun _ => Subs.get_all _ _, rfl, fun _ => Subs.get_all _ _, fun _ => Subs.get_all _ _,
    fun _ => Subs.get_all _ _, rfl, rfl, rfl, rfl, fun _ => Subs.get_all _ _, rfl, fun _ => Subs.get_all _ _, rfl,
    fun _ => Sources.get_all _ _⟩

/-- Settles O2: the reset lane has the invariant of a lane, for no active lane. -/
theorem resetMeetsTheInvariants : Obligations.ResetMeetsTheInvariants := by
  refine ⟨(State.inv_iff _).mpr ⟨by decide, fun j => ?_, by decide, rfl, by decide, by decide⟩, rfl, rfl, rfl⟩
  rw [reset_lane]
  exact resetLane_ok j

/-- Settles O21, from the bits and the fields of the word. -/
theorem statusWordLayout : Obligations.StatusWordLayout := by
  intro s
  have bit0 : s.statusWord.getLsbD 0 = s.status.errIllegal := statusWord_getLsbD s (by decide)
  have bit1 : s.statusWord.getLsbD 1 = s.status.errCfg := statusWord_getLsbD s (by decide)
  have bit2 : s.statusWord.getLsbD 2 = s.status.errSeq := statusWord_getLsbD s (by decide)
  refine ⟨bit0, bit1, bit2, statusWord_getLsbD s (by decide), fun hn => ?_, statusWord_getLsbD s (by decide),
    statusWord_cause s, statusWord_high s, ?_⟩
  · rw [statusWord_count, BitVec.toNat_ofNat, Nat.mod_eq_of_lt (by omega)]
  · rw [bit0, bit1, bit2]; rfl

end Sys2Proof.Proofs.StateFamily

/-! # The encoding of a command

Decoding is taken apart into three facts: framing gives a header and its operand words; the header fits a row of the
opcode map (`HeaderFits`, in the bytes of R83 or as match and mask of R88); the operands assemble to a command of that
row, and `assemble` is inverse to the operands and the immediate of the encoder. -/

namespace Sys2Proof

/-! ## The opcode map -/

theorem opcodeOf_eq_some_iff {b : BitVec 8} {o : Opcode} : opcodeOf b = some o ↔ opcodeByte o = b :=
  ⟨opcodeByte_of_opcodeOf, fun h => h ▸ opcodeOf_opcodeByte o⟩

theorem opcodeByte_injective {o o' : Opcode} (h : opcodeByte o = opcodeByte o') : o = o' :=
  Option.some.inj (by rw [← opcodeOf_opcodeByte o, h, opcodeOf_opcodeByte])

/-- The header passes the checks (1) to (3) of R83 for the row `o`. -/
structure HeaderFits (o : Opcode) (h : Word) : Prop where
  opcode : opcodeByte o = hdrOpc h
  count : hdrNW h = operandWords o
  reserved : hdrRsv h = 0#8
  immediate : hdrImm h &&& unusedImm o = 0#8

theorem HeaderFits.unique {o o' : Opcode} {h : Word} (ho : HeaderFits o h) (ho' : HeaderFits o' h) : o = o' :=
  opcodeByte_injective (ho.opcode.trans ho'.opcode.symm)

/-! ## Match and mask (R88) -/

/-- A word is its four header fields. -/
theorem header_ext {h h' : Word} (opcode : hdrOpc h = hdrOpc h') (count : hdrNW h = hdrNW h')
    (reserved : hdrRsv h = hdrRsv h') (immediate : hdrImm h = hdrImm h') : h = h' := by
  have bytes : ∀ w : Word, w = hdrOpc w ++ (w.extractLsb' 16 8 ++ (hdrRsv w ++ hdrImm w)) := by
    intro w
    simp only [hdrOpc, hdrRsv, hdrImm]
    rw [BitVec.extractLsb'_append_extractLsb'_eq_extractLsb' (show 8 = 0 + 8 from rfl),
      BitVec.extractLsb'_append_extractLsb'_eq_extractLsb' (show 16 = 0 + 16 from rfl),
      BitVec.extractLsb'_append_extractLsb'_eq_extractLsb' (show 24 = 0 + 24 from rfl), BitVec.extractLsb'_eq_self]
  rw [bytes h, bytes h', opcode, BitVec.eq_of_toNat_eq count, reserved, immediate]

theorem hdrOpc_and_headerMask (h : Word) (o : Opcode) : hdrOpc (h &&& headerMask o) = hdrOpc h := by
  have mask : hdrOpc (headerMask o) = BitVec.allOnes 8 := by cases o <;> rfl
  rw [hdrOpc, BitVec.extractLsb'_and, ← hdrOpc, ← hdrOpc, mask, BitVec.and_allOnes]

theorem hdrNW_and_headerMask (h : Word) (o : Opcode) : hdrNW (h &&& headerMask o) = hdrNW h := by
  have mask : (headerMask o).extractLsb' 16 8 = BitVec.allOnes 8 := by cases o <;> rfl
  rw [hdrNW, BitVec.extractLsb'_and, mask, BitVec.and_allOnes, hdrNW]

theorem hdrRsv_and_headerMask (h : Word) (o : Opcode) : hdrRsv (h &&& headerMask o) = hdrRsv h := by
  have mask : hdrRsv (headerMask o) = BitVec.allOnes 8 := by cases o <;> rfl
  rw [hdrRsv, BitVec.extractLsb'_and, ← hdrRsv, ← hdrRsv, mask, BitVec.and_allOnes]

theorem hdrImm_and_headerMask (h : Word) (o : Opcode) :
    hdrImm (h &&& headerMask o) = hdrImm h &&& unusedImm o := by
  have mask : hdrImm (headerMask o) = unusedImm o := by cases o <;> rfl
  rw [hdrImm, BitVec.extractLsb'_and, ← hdrImm, ← hdrImm, mask]

/-- The match of a row is the header of that row with a zero immediate. -/
theorem headerMatch_eq_mkHeader (o : Opcode) :
    headerMatch o = mkHeader (opcodeByte o) (BitVec.ofNat 8 (operandWords o)) 0#8 := by
  cases o <;> rfl

theorem hdrNW_headerMatch (o : Opcode) : hdrNW (headerMatch o) = operandWords o := by cases o <;> rfl

/-- The checks of R83 and the match and mask of R88 accept the same headers. -/
theorem headerFits_iff_mask {o : Opcode} {h : Word} : HeaderFits o h ↔ h &&& headerMask o = headerMatch o := by
  have opcode : hdrOpc (headerMatch o) = opcodeByte o := by rw [headerMatch_eq_mkHeader, hdrOpc_mkHeader]
  have reserved : hdrRsv (headerMatch o) = 0#8 := by rw [headerMatch_eq_mkHeader, hdrRsv_mkHeader]
  have immediate : hdrImm (headerMatch o) = 0#8 := by rw [headerMatch_eq_mkHeader, hdrImm_mkHeader]
  constructor
  · intro fits
    apply header_ext
    · rw [hdrOpc_and_headerMask, opcode, fits.opcode]
    · rw [hdrNW_and_headerMask, hdrNW_headerMatch, fits.count]
    · rw [hdrRsv_and_headerMask, reserved, fits.reserved]
    · rw [hdrImm_and_headerMask, immediate, fits.immediate]
  · intro eq
    exact
      { opcode := by rw [← opcode, ← eq, hdrOpc_and_headerMask]
        count := by rw [← hdrNW_headerMatch, ← eq, hdrNW_and_headerMask]
        reserved := by rw [← reserved, ← eq, hdrRsv_and_headerMask]
        immediate := by rw [← immediate, ← eq, hdrImm_and_headerMask] }

/-! ## Operands -/

theorem lanesOf_eq_some_iff {ws : List Word} {v : Lanes Word} : lanesOf ws = some v ↔ ws = v.toList := by
  constructor
  · intro h
    unfold lanesOf at h
    split at h
    · cases h; rfl
    · cases h
  · rintro rfl; rfl

theorem assembleSetup_eq_some {nn : Nat} {ops : List Word} {i : Instr} (h : assembleSetup nn ops = some i) :
    ∃ (pitch : Lanes Word) (a b : Word), ops = pitch.toList ++ [a, b] ∧
      i = .setupSub nn pitch (divisorFields a) (divisorFields b) := by
  unfold assembleSetup at h
  split at h
  · rename_i p0 p1 p2 p3 a b
    cases h
    exact ⟨⟨p0, p1, p2, p3⟩, a, b, rfl, rfl⟩
  · cases h

theorem assembleOffset_eq_some {ops : List Word} {i : Instr} (h : assembleOffset ops = some i) :
    ∃ tm, ops = [tm] ∧ i = .computeOffset tm := by
  unfold assembleOffset at h
  split at h
  · rename_i tm
    cases h
    exact ⟨tm, rfl, rfl⟩
  · cases h

theorem assembleProcess_eq_some {ops : List Word} {i : Instr} (h : assembleProcess ops = some i) :
    ∃ tm y, ops = tm :: Lanes.toList y ∧ i = .process tm y := by
  unfold assembleProcess at h
  split at h
  · rename_i tm ys
    obtain ⟨y, hy, rfl⟩ := Option.map_eq_some_iff.mp h
    exact ⟨tm, y, by rw [lanesOf_eq_some_iff.mp hy], rfl⟩
  · cases h

/-- The operands of a well-formed command assemble to it. -/
theorem assemble_operands {i : Instr} (wf : i.wf) : assemble i.opcode i.immByte i.operands = some i := by
  cases i with
  | nop | setPw | computeOffset | process | readMain | readStatus => rfl
  | setWaveform m k =>
    simp only [assemble, Instr.opcode, Instr.immByte, Instr.operands, if_true]
    rw [BitVec.extractLsb'_append_eq_right, BitVec.extractLsb'_append_eq_left]
  | setupSub nn pitch dA dB =>
    obtain ⟨count, fitA, fitB⟩ := wf
    have imm : (((0#5) ++ BitVec.ofNat 3 nn : BitVec 8).extractLsb' 0 3).toNat = nn := by
      rw [BitVec.extractLsb'_append_eq_right, BitVec.toNat_ofNat, Nat.mod_eq_of_lt count]
    calc assemble .setupSub ((0#5) ++ BitVec.ofNat 3 nn) (pitch.toList ++ [divisorWord dA, divisorWord dB])
        = some (.setupSub (((0#5) ++ BitVec.ofNat 3 nn : BitVec 8).extractLsb' 0 3).toNat pitch
            (divisorFields (divisorWord dA)) (divisorFields (divisorWord dB))) := rfl
      _ = some (.setupSub nn pitch dA dB) := by
        rw [imm, divisorFields_divisorWord fitA, divisorFields_divisorWord fitB]
  | readSub k => cases k <;> rfl

/-! ## Immediates: one whose unused bits are zero is given by its used bits (R85, R90, R91, R97) -/

theorem imm_eq_zero_of_unused {imm : BitVec 8} (h : imm &&& 0xFF#8 = 0#8) : imm = 0#8 := by
  rw [← h]; exact (BitVec.and_allOnes (x := imm)).symm

theorem imm_eq_masks (imm : BitVec 8) : imm.extractLsb' 4 4 ++ imm.extractLsb' 0 4 = imm :=
  BitVec.extractLsb'_append_extractLsb' (w := 4) (len := 4) (x := imm)

theorem imm_eq_count_of_unused : ∀ {imm : BitVec 8}, imm &&& 0xF8#8 = 0#8 →
    (0#5) ++ BitVec.ofNat 3 (imm.extractLsb' 0 3).toNat = imm := by decide

theorem imm_eq_sub_of_unused : ∀ {imm : BitVec 8}, imm &&& 0xFE#8 = 0#8 →
    (Instr.readSub (subOfBit (imm.getLsbD 0))).immByte = imm := by decide

/-- What `assemble` answers for an immediate whose unused bits are zero, said once: a well-formed command of the row
with this immediate and these operands. -/
theorem assemble_eq_some {o : Opcode} {imm : BitVec 8} {ops : List Word} {i : Instr} (unused : imm &&& unusedImm o = 0#8)
    (h : assemble o imm ops = some i) : i.wf ∧ i.opcode = o ∧ i.immByte = imm ∧ i.operands = ops := by
  cases o with
  | nop | readMain | readStatus =>
    obtain ⟨rfl, ⟨⟩⟩ := Option.ite_none_right_eq_some.mp h
    exact ⟨trivial, rfl, (imm_eq_zero_of_unused unused).symm, rfl⟩
  | setWaveform =>
    obtain ⟨rfl, ⟨⟩⟩ := Option.ite_none_right_eq_some.mp h
    exact ⟨trivial, rfl, imm_eq_masks imm, rfl⟩
  | setupSub =>
    obtain ⟨pitch, a, b, rfl, rfl⟩ := assembleSetup_eq_some h
    refine ⟨⟨BitVec.isLt _, divisorFields_fit a, divisorFields_fit b⟩, rfl, imm_eq_count_of_unused unused, ?_⟩
    simp only [Instr.operands, divisorWord_divisorFields]
  | setPw =>
    obtain ⟨w, hw, rfl⟩ := Option.map_eq_some_iff.mp h
    exact ⟨trivial, rfl, (imm_eq_zero_of_unused unused).symm, (lanesOf_eq_some_iff.mp hw).symm⟩
  | computeOffset =>
    obtain ⟨tm, rfl, rfl⟩ := assembleOffset_eq_some h
    exact ⟨trivial, rfl, (imm_eq_zero_of_unused unused).symm, rfl⟩
  | process =>
    obtain ⟨tm, y, rfl, rfl⟩ := assembleProcess_eq_some h
    exact ⟨trivial, rfl, (imm_eq_zero_of_unused unused).symm, rfl⟩
  | readSub =>
    obtain ⟨rfl, ⟨⟩⟩ := Option.ite_none_right_eq_some.mp h
    exact ⟨trivial, rfl, imm_eq_sub_of_unused unused, rfl⟩

/-! ## The decoder's answers -/

/-- A command is accepted exactly when its header fits a row and its operands assemble. -/
theorem decodeCommand_eq_ok_iff {h : Word} {ops : List Word} {i : Instr} :
    decodeCommand h ops = .ok i ↔ ∃ o, HeaderFits o h ∧ assemble o (hdrImm h) ops = some i := by
  constructor
  · intro hd
    unfold decodeCommand at hd
    split at hd
    · cases hd
    · rename_i o ho
      split_ifs at hd with count checks
      obtain ⟨reserved, immediate⟩ := not_or.mp checks
      split at hd
      · rename_i j hj
        cases hd
        exact ⟨o, ⟨opcodeByte_of_opcodeOf ho, not_not.mp count, not_not.mp reserved, not_not.mp immediate⟩, hj⟩
      · cases hd
  · rintro ⟨o, ⟨opcode, count, reserved, immediate⟩, ha⟩
    simp [decodeCommand, opcodeOf_eq_some_iff.mpr opcode, count, reserved, immediate, ha]

/-- The row of an accepted command is that of its header. -/
theorem headerFits_of_decodeCommand {h : Word} {ops : List Word} {i : Instr} (hd : decodeCommand h ops = .ok i) :
    HeaderFits i.opcode h := by
  obtain ⟨o, fits, ha⟩ := decodeCommand_eq_ok_iff.mp hd
  obtain ⟨-, rfl, -, -⟩ := assemble_eq_some fits.immediate ha
  exact fits

/-- An accepted command is well-formed, and its header and operand words are those of the encoder. -/
theorem encoding_of_decodeCommand {h : Word} {ops : List Word} {i : Instr} (hd : decodeCommand h ops = .ok i) :
    i.wf ∧ h = i.header ∧ ops = i.operands := by
  obtain ⟨o, fits, ha⟩ := decodeCommand_eq_ok_iff.mp hd
  obtain ⟨wf, rfl, imm, rfl⟩ := assemble_eq_some fits.immediate ha
  refine ⟨wf, ?_, rfl⟩
  rw [Instr.header, imm, fits.opcode, ← fits.count, mkHeader_fields fits.reserved]

theorem encodingFits (i : Instr) : Laws.EncodingFits.Statement i := by
  cases i with
  | nop => exact Laws.EncodingFits.nop
  | setWaveform m k => exact Laws.EncodingFits.setWaveform m k
  | setupSub nn pitch dA dB => exact Laws.EncodingFits.setupSub nn pitch dA dB
  | setPw w => exact Laws.EncodingFits.setPw w
  | computeOffset tm => exact Laws.EncodingFits.computeOffset tm
  | process tm y => exact Laws.EncodingFits.process tm y
  | readMain => exact Laws.EncodingFits.readMain
  | readSub k => exact Laws.EncodingFits.readSub k
  | readStatus => exact Laws.EncodingFits.readStatus

theorem decodeCommand_header_operands {i : Instr} (wf : i.wf) : decodeCommand i.header i.operands = .ok i := by
  obtain ⟨opcode, count, length, reserved, immediate, unused⟩ := encodingFits i
  refine decodeCommand_eq_ok_iff.mpr ⟨i.opcode, ⟨opcode.symm, count.trans length, reserved, ?_⟩, ?_⟩
  · rw [immediate]; exact unused
  · rw [immediate]; exact assemble_operands wf

/-- The cause of a malformed command is one of the decode checks. -/
theorem decodeCommand_error_cause {h : Word} {ops : List Word} {c : Cause} (hl : ops.length = hdrNW h)
    (hd : decodeCommand h ops = .error c) : c = .illegalOpcode ∨ c = .badLength ∨ c = .reservedNonzero := by
  rcases decodeCommand_cases h ops hl with
    ⟨-, he⟩ | ⟨o, -, ⟨-, he⟩ | ⟨-, -, he⟩ | ⟨-, -, -, i, -, he⟩⟩ <;> rw [he] at hd <;> cases hd <;> simp

theorem decodeCommand_eq_illegalOpcode_iff {h : Word} {ops : List Word} (hl : ops.length = hdrNW h) :
    decodeCommand h ops = .error .illegalOpcode ↔ 8 < (hdrOpc h).toNat := by
  rw [← opcodeOf_eq_none_iff]
  rcases decodeCommand_cases h ops hl with
    ⟨ho, he⟩ | ⟨o, ho, ⟨-, he⟩ | ⟨-, -, he⟩ | ⟨-, -, -, i, -, he⟩⟩ <;> simp [ho, he]

/-- The answers of the checks (2) and (3) of R83, for a header with the opcode of the row `o`. -/
theorem decodeCommand_of_opcode {h : Word} {ops : List Word} {o : Opcode} (hl : ops.length = hdrNW h)
    (ho : opcodeByte o = hdrOpc h) :
    (hdrNW h ≠ operandWords o ∧ decodeCommand h ops = .error .badLength) ∨
    (hdrNW h = operandWords o ∧ (hdrRsv h ≠ 0#8 ∨ hdrImm h &&& unusedImm o ≠ 0#8) ∧
      decodeCommand h ops = .error .reservedNonzero) ∨
    (hdrNW h = operandWords o ∧ hdrRsv h = 0#8 ∧ hdrImm h &&& unusedImm o = 0#8 ∧
      ∃ i, decodeCommand h ops = .ok i) := by
  have row := opcodeOf_eq_some_iff.mpr ho
  rcases decodeCommand_cases h ops hl with ⟨noRow, -⟩ | ⟨o', row', answer⟩
  · rw [noRow] at row; cases row
  · obtain rfl : o' = o := Option.some.inj (row'.symm.trans row)
    rcases answer with bad | bad | ⟨count, reserved, immediate, i, -, he⟩
    · exact .inl bad
    · exact .inr (.inl bad)
    · exact .inr (.inr ⟨count, reserved, immediate, i, he⟩)

/-! ## Streams -/

/-- A stream that begins with a whole command. -/
theorem decode_append {h : Word} {ops rest : List Word} (hl : ops.length = hdrNW h) :
    decode (h :: (ops ++ rest)) = some (decodeCommand h ops, rest) := by
  rw [decode, frameCommand_append hl]

theorem decode_eq_some {ws rest : List Word} {r : Except Cause Instr} (hd : decode ws = some (r, rest)) :
    ∃ h ops, ws = h :: (ops ++ rest) ∧ decodeCommand h ops = r := by
  unfold decode at hd
  split at hd
  · cases hd
  · rename_i h ops rest' hf
    cases hd
    exact ⟨h, ops, (frameCommand_eq_some hf).1, rfl⟩

theorem decode_encode {i : Instr} (wf : i.wf) (rest : List Word) :
    decode (encode i ++ rest) = some (.ok i, rest) := by
  obtain ⟨-, count, -⟩ := encodingFits i
  rw [encode, List.cons_append, decode_append count.symm, decodeCommand_header_operands wf]

theorem decode_of_encode_eq {i : Instr} {ws : List Word} (wf : i.wf) (h : encode i = ws) :
    decode ws = some (.ok i, []) := by
  rw [← h, ← List.append_nil (encode i)]; exact decode_encode wf []

end Sys2Proof

/-! # A step reads one command, and a command gives one response -/

namespace Sys2Proof.Machine

/-! ## Steps, by what the stream decodes to -/

theorem step_of_accepted {s : State} {i : Instr} {rest : List Word} (h : decode s.stream = some (.ok i, rest)) :
    step s = exec i (s.consumed rest) := by
  simp only [step, h]

theorem step_of_rejected {s : State} {c : Cause} {rest : List Word} (h : decode s.stream = some (.error c, rest)) :
    step s = .next ((s.consumed rest).reject c) := by
  simp only [step, h]

theorem step_of_unfinished {s : State} (h : frameCommand s.stream = none) : step s = .next s.await := by
  simp only [step, decode, h]

/-- Every command answers a next state (R281). -/
theorem exec_answers (i : Instr) (s : State) : ∃ t, exec i s = .next t := by
  cases i with
  | setPw w =>
    simp only [exec, execSetPw]
    split
    · exact ⟨_, rfl⟩
    · exact ⟨_, rfl⟩
  | nop | setWaveform | setupSub | computeOffset | process | readMain | readSub | readStatus => exact ⟨_, rfl⟩

/-! ## The rejection of a malformed command (R266) -/

/-- The causes of the decode checks are of the class ERR_ILLEGAL (R261). -/
theorem rejected_of_decode_cause {c : Cause} (h : c = .illegalOpcode ∨ c = .badLength ∨ c = .reservedNonzero)
    (st : Status) : st.rejected c = { st with errIllegal := true, lastCause := causeCode c } := by
  have illegal : causeIsCfg c = false := by rcases h with rfl | rfl | rfl <;> rfl
  simp [Status.rejected, illegal]

/-! ## Responses (R86, R87) -/

/-- The status word of a response as a number. -/
theorem responseWord_eq_ofNat (cause : BitVec 8) {nd : Nat} (h : nd < 256) :
    responseWord cause nd = BitVec.ofNat 32 (cause.toNat + 256 * nd) := by
  have hc := cause.isLt
  apply BitVec.eq_of_toNat_eq
  simp only [responseWord, BitVec.toNat_append, BitVec.toNat_ofNat, Nat.zero_mod, Nat.zero_shiftLeft, Nat.zero_or]
  rw [← Nat.shiftLeft_add_eq_or_of_lt hc, Nat.shiftLeft_eq]
  omega

theorem responseWord_without_data (cause : BitVec 8) : responseWord cause 0 = cause.setWidth 32 :=
  (responseWord_eq_ofNat cause (by decide)).trans (BitVec.ofNat_toNat 32 cause)

theorem causeCode_le (c : Cause) : (causeCode c).toNat ≤ 7 := by cases c <;> decide

/-- From `s` to `t` one response has been appended, with a cause of R261 and `nd` data words. -/
def Responds (s t : State) (nd : Nat) : Prop :=
  ∃ (cause : BitVec 8) (data : List Word), t.rsp = s.rsp ++ responseWord cause data.length :: data ∧
    cause.toNat ≤ 7 ∧ data.length = nd

theorem Responds.reject (s : State) (c : Cause) : Responds s (s.reject c) 0 :=
  ⟨causeCode c, [], rfl, causeCode_le c, rfl⟩

theorem Responds.data (s : State) (data : List Word) : Responds s (s.respond 0#8 data) data.length :=
  ⟨0#8, data, rfl, by decide, rfl⟩

/-- A command that has touched no response ends with an empty one. -/
theorem Responds.done {s u : State} (h : u.rsp = s.rsp) : Responds s u.done 0 :=
  ⟨0#8, [], by rw [State.done_rsp, h]; rfl, by decide, rfl⟩

/-- The number of data words of a command's response. -/
def dataWordCount : Instr → Nat
  | .readMain => 4
  | .readSub _ => 4
  | .readStatus => 1
  | _ => 0

theorem exec_responds {i : Instr} {s t : State} (h : exec i s = .next t) : Responds s t (dataWordCount i) := by
  cases exec_effect h with
  | badCount | badDivisor | badWidth | badTime => exact .reject s _
  | nop | setWaveform | setupSub | setPw | computeOffset => exact .done rfl
  | process tm y => exact .done (by rw [processState_eq])
  | readMain => exact .data s (mainSamples s)
  | readSub k => exact .data s (subSamples k s)
  | readStatus => exact .data s [s.statusWord]

theorem dataWordCount_lt (i : Instr) : dataWordCount i < 256 := by cases i <;> simp [dataWordCount]

end Sys2Proof.Machine

/-! # The statements of 30_encoding.md -/

namespace Sys2Proof.Proofs.EncodingFamily

open Sys2Proof Sys2Proof.Machine

/-- Settles O9: the encoder's header fits its row and its operands assemble. -/
theorem decodeOfEncodeIsTheCommand : Obligations.DecodeOfEncodeIsTheCommand :=
  fun _ rest wf => decode_encode wf rest

/-- Settles O10: an accepted header is put together from its fields, and the operand words from theirs. -/
theorem acceptedWordsAreTheEncoding : Obligations.AcceptedWordsAreTheEncoding := by
  intro ws rest i hd
  obtain ⟨h, ops, rfl, hc⟩ := decode_eq_some hd
  obtain ⟨wf, rfl, rfl⟩ := encoding_of_decodeCommand hc
  exact ⟨wf, rfl⟩

/-- Settles O7: whatever a whole command decodes to, its words are consumed; an unfinished one is only read. -/
theorem framingFollowsTheCountAlone : Obligations.FramingFollowsTheCountAlone := by
  refine ⟨fun s h ops rest hs hl => ?_, fun s hs => step_of_unfinished (frameCommand_eq_none.mpr hs)⟩
  have hd : decode s.stream = some (decodeCommand h ops, rest) := by rw [State.stream, hs, decode_append hl]
  cases hc : decodeCommand h ops with
  | error c =>
    rw [hc] at hd
    exact ⟨_, step_of_rejected hd, rfl, rfl⟩
  | ok i =>
    rw [hc] at hd
    obtain ⟨u, hx⟩ := exec_answers i (s.consumed rest)
    obtain ⟨frame, cmd⟩ := exec_stream hx
    exact ⟨u, (step_of_accepted hd).trans hx, frame, cmd⟩

/-- Settles O8: the step is the rejection, and a decode cause is of the class ERR_ILLEGAL. -/
theorem stepRejectsAMalformedCommand : Obligations.StepRejectsAMalformedCommand := by
  intro s h ops rest c hs hl hc
  have cause := decodeCommand_error_cause hl hc
  have hd : decode s.stream = some (.error c, rest) := by rw [State.stream, hs, decode_append hl, hc]
  refine ⟨cause, (step_of_rejected hd).trans ?_⟩
  rw [← responseWord_without_data, ← rejected_of_decode_cause cause]
  rfl

/-- Settles O11: the decode checks are the match and mask of a row. -/
theorem aHeaderSelectsItsRow : Obligations.AHeaderSelectsItsRow := by
  refine ⟨fun h ops hl => ⟨?_, ?_⟩, fun h ops i hd => ?_, fun h o o' ho ho' => ?_⟩
  · rintro ⟨i, hd⟩
    exact ⟨i.opcode, headerFits_iff_mask.mp (headerFits_of_decodeCommand hd)⟩
  · rintro ⟨o, ho⟩
    have fits := headerFits_iff_mask.mpr ho
    obtain ⟨i, hi⟩ := assemble_isSome (imm := hdrImm h) (hl.trans fits.count)
    exact ⟨i, decodeCommand_eq_ok_iff.mpr ⟨o, fits, hi⟩⟩
  · exact headerFits_iff_mask.mp (headerFits_of_decodeCommand hd)
  · exact (headerFits_iff_mask.mpr ho).unique (headerFits_iff_mask.mpr ho')

/-- Settles O12, by the answers of the checks for the opcode of the header. -/
theorem decodeChecksRunInOrder : Obligations.DecodeChecksRunInOrder := by
  intro h ops hl
  refine ⟨decodeCommand_eq_illegalOpcode_iff hl, fun o ho => ?_⟩
  rcases decodeCommand_of_opcode hl ho with
    ⟨count, he⟩ | ⟨count, nonzero, he⟩ | ⟨count, reserved, immediate, i, he⟩
  · simp [he, count]
  · simp [he, count, nonzero]
  · simp [he, count, reserved, immediate]

/-- Settles O14: `Responds` with the status word as a number. -/
theorem eachCommandGivesOneResponse : Obligations.EachCommandGivesOneResponse := by
  intro i s
  obtain ⟨u, hx⟩ := exec_answers i s
  obtain ⟨cause, data, rsp, code, length⟩ := exec_responds hx
  refine ⟨u, cause, data, hx, ?_, code, ?_⟩
  · rw [rsp, responseWord_eq_ofNat cause (length ▸ dataWordCount_lt i)]
  · rw [length]; cases i <;> rfl

/-- Settles O6, by the round trip of O9. -/
theorem stepRunsTheDecodedCommand : Obligations.StepRunsTheDecodedCommand := by
  intro s i rest wf hs
  have hd : decode s.stream = some (.ok i, rest) := by rw [State.stream, hs, decode_encode wf]
  exact step_of_accepted hd

/-- Settles O13: each stream is the encoding of its command. -/
theorem exampleWordsDecode : Obligations.ExampleWordsDecode :=
  ⟨decode_of_encode_eq trivial rfl, decode_of_encode_eq trivial rfl, decode_of_encode_eq (by decide) rfl,
    decode_of_encode_eq trivial rfl, decode_of_encode_eq trivial rfl, decode_of_encode_eq trivial rfl,
    decode_of_encode_eq trivial rfl, decode_of_encode_eq trivial rfl, decode_of_encode_eq trivial rfl⟩

end Sys2Proof.Proofs.EncodingFamily

/-! # Rounding to nearest, and what each operation rounds

`packMagnitude` rounds to nearest with ties to even: no bit pattern is nearer to the exact quotient
(`two_mul_le_of_packMagnitude_lt`, `le_two_mul_of_lt_packMagnitude`). `RoundsTo` says of a result that it is the rounded
exact quotient; every operation on finite operands meets it, and R112 is derived from it. -/

namespace Sys2Proof.Machine

/-! ## The grid of a magnitude -/

/-- The magnitude of a significand `r` on the grid of exponent `e`, the significand 2^24 included. -/
theorem magOfBits_grid {e r : Nat} (hr : r ≤ 2 ^ 24) (he : e = 0 ∨ 2 ^ 23 ≤ r) :
    magOfBits (e * 2 ^ 23 + r) = r * 2 ^ e := by
  unfold magOfBits
  rcases Nat.lt_or_ge r (2 ^ 23) with subnormal | normal
  · have he : e = 0 := by omega
    rw [he, if_pos (by omega)]
    omega
  · rcases hr.lt_or_eq with below | top
    · rw [if_neg (by omega), show (e * 2 ^ 23 + r) / 2 ^ 23 - 1 = e by omega,
        show 2 ^ 23 + (e * 2 ^ 23 + r) % 2 ^ 23 = r by omega]
    · rw [top, if_neg (by omega), show (e * 2 ^ 23 + 2 ^ 24) / 2 ^ 23 - 1 = e + 1 by omega,
        show 2 ^ 23 + (e * 2 ^ 23 + 2 ^ 24) % 2 ^ 23 = 2 ^ 23 by omega, pow_succ]
      ring

/-- The next larger magnitude is at least one grid step away. -/
theorem succ_mul_le_magOfBits {e r c : Nat} (hr : r ≤ 2 ^ 24) (he : e = 0 ∨ 2 ^ 23 ≤ r) (hc : e * 2 ^ 23 + r < c) :
    (r + 1) * 2 ^ e ≤ magOfBits c := by
  refine le_trans ?_ (magOfBits_strictMono.monotone (Nat.succ_le_of_lt hc))
  rcases hr.lt_or_eq with below | rfl
  · rw [Nat.succ_eq_add_one, add_assoc, magOfBits_grid (by omega) (by omega)]
  · rw [show Nat.succ (e * 2 ^ 23 + 2 ^ 24) = (e + 1) * 2 ^ 23 + (2 ^ 23 + 1) by omega,
      magOfBits_grid (by omega) (by omega), pow_succ]
    have : 0 < 2 ^ e := by positivity
    omega

/-- The next smaller magnitude is at least one grid step away, where the grid below is no finer. -/
theorem magOfBits_le_pred_mul {e r c : Nat} (hr : r ≤ 2 ^ 24) (he : e = 0 ∨ 2 ^ 23 < r) (hc : c < e * 2 ^ 23 + r) :
    magOfBits c ≤ (r - 1) * 2 ^ e := by
  rw [← magOfBits_grid (e := e) (r := r - 1) (by omega) (by omega)]
  exact magOfBits_strictMono.monotone (by omega)

/-- The two forms of a rounded magnitude: infinity, or a significand on the grid of the exact quotient, which is not below
the grid's first normal magnitude. -/
theorem packMagnitude_cases (num den : Nat) (hd : 0 < den) :
    (packMagnitude num den = 0x7F800000 ∧ magOfBits 0x7F800000 * den ≤ num) ∨
    ∃ e, packMagnitude num den = e * 2 ^ 23 + roundQuot num (den * 2 ^ e) ∧ roundQuot num (den * 2 ^ e) ≤ 2 ^ 24 ∧
      (e = 0 ∨ 2 ^ 23 ≤ roundQuot num (den * 2 ^ e) ∧ 2 ^ 23 * (den * 2 ^ e) ≤ num) := by
  have floor_ge : ∀ k, k ≤ (num / den).log2 → 1 ≤ k → 2 ^ k * den ≤ num := fun k hk h1 =>
    (Nat.le_div_iff_mul_le hd).mp <| (Nat.le_log2 (by intro h0; rw [h0] at hk; simp at hk; omega)).mp hk
  by_cases big : 277 ≤ (num / den).log2
  · refine .inl ⟨by simp [packMagnitude, big], ?_⟩
    rw [show 0x7F800000 = 254 * 2 ^ 23 + 2 ^ 23 by norm_num, magOfBits_grid (by norm_num) (by norm_num), ← pow_add]
    exact floor_ge _ big (by norm_num)
  · refine .inr ⟨gridExp (num / den), ?_, ?_, ?_⟩
    · simp [packMagnitude, big, Nat.shiftLeft_eq]
    · simpa only [Nat.shiftLeft_eq] using significand_le num den hd
    · rcases Nat.eq_zero_or_pos (gridExp (num / den)) with h0 | h1
      · exact .inl h0
      · refine .inr ⟨by simpa only [Nat.shiftLeft_eq] using le_significand num den hd h1, ?_⟩
        have h := floor_ge (gridExp (num / den) + 23) (by unfold gridExp at *; omega) (by omega)
        calc 2 ^ 23 * (den * 2 ^ gridExp (num / den)) = 2 ^ (gridExp (num / den) + 23) * den := by rw [pow_add]; ring
          _ ≤ num := h

/-! ## No magnitude is nearer, and a tie is even -/

/-- The exact quotient is not above the middle between its rounded magnitude and a larger one. -/
theorem two_mul_le_of_packMagnitude_lt {num den c : Nat} (hd : 0 < den) (finite : packMagnitude num den < 0x7F800000)
    (hc : packMagnitude num den < c) :
    2 * num ≤ magOfBits (packMagnitude num den) * den + magOfBits c * den ∧
    (2 * num = magOfBits (packMagnitude num den) * den + magOfBits c * den → packMagnitude num den % 2 = 0) := by
  rcases packMagnitude_cases num den hd with ⟨inf, -⟩ | ⟨e, hp, hr, he⟩
  · omega
  · have hD : 0 < den * 2 ^ e := by positivity
    have le := le_roundQuot num (den * 2 ^ e) hD
    have tie := roundQuot_even_of_tie num (den * 2 ^ e) hD
    rw [hp] at hc ⊢
    generalize roundQuot num (den * 2 ^ e) = r at *
    have self : magOfBits (e * 2 ^ 23 + r) * den = r * (den * 2 ^ e) := by rw [magOfBits_grid hr (by omega)]; ring
    have next : r * (den * 2 ^ e) + den * 2 ^ e ≤ magOfBits c * den := by
      calc r * (den * 2 ^ e) + den * 2 ^ e = (r + 1) * 2 ^ e * den := by ring
        _ ≤ magOfBits c * den := Nat.mul_le_mul_right _ (succ_mul_le_magOfBits hr (by omega) hc)
    rw [self]
    exact ⟨by omega, fun h => by have := tie (.inl (by omega)); omega⟩

/-- The exact quotient is not below the middle between its rounded magnitude and a smaller one. -/
theorem le_two_mul_of_lt_packMagnitude {num den c : Nat} (hd : 0 < den) (hc : c < packMagnitude num den) :
    magOfBits c * den + magOfBits (packMagnitude num den) * den ≤ 2 * num ∧
    (magOfBits c * den + magOfBits (packMagnitude num den) * den = 2 * num → packMagnitude num den % 2 = 0) := by
  have below : magOfBits c * den < magOfBits (packMagnitude num den) * den :=
    Nat.mul_lt_mul_of_pos_right (magOfBits_strictMono hc) hd
  rcases packMagnitude_cases num den hd with ⟨inf, hn⟩ | ⟨e, hp, hr, he⟩
  · rw [inf] at below ⊢
    omega
  · have hD : 0 < den * 2 ^ e := by positivity
    have le := roundQuot_le num (den * 2 ^ e) hD
    have tie := roundQuot_even_of_tie num (den * 2 ^ e) hD
    rw [hp] at hc below ⊢
    generalize roundQuot num (den * 2 ^ e) = r at *
    have self : magOfBits (e * 2 ^ 23 + r) * den = r * (den * 2 ^ e) := by rw [magOfBits_grid hr (by omega)]; ring
    rw [self] at below ⊢
    by_cases edge : e ≠ 0 ∧ r = 2 ^ 23
    · obtain ⟨he0, rfl⟩ := edge
      omega
    · have prev : magOfBits c * den + den * 2 ^ e ≤ r * (den * 2 ^ e) := by
        calc magOfBits c * den + den * 2 ^ e ≤ (r - 1) * 2 ^ e * den + den * 2 ^ e :=
              Nat.add_le_add_right (Nat.mul_le_mul_right _ (magOfBits_le_pred_mul hr (by omega) hc)) _
          _ = (r - 1 + 1) * (den * 2 ^ e) := by ring
          _ = r * (den * 2 ^ e) := by rw [Nat.sub_add_cancel (by omega)]
      exact ⟨by omega, fun h => by have := tie (.inr (by omega)); omega⟩

/-- R112 for magnitudes: a finite rounded magnitude is a nearest one, and even when another is equally near. -/
theorem packMagnitude_nearest {num den : Nat} (hd : 0 < den) (finite : packMagnitude num den < 0x7F800000) (c : Nat) :
    |(num : Int) - magOfBits (packMagnitude num den) * den| ≤ |(num : Int) - magOfBits c * den| ∧
    (|(num : Int) - magOfBits (packMagnitude num den) * den| = |(num : Int) - magOfBits c * den| →
      c ≠ packMagnitude num den → packMagnitude num den % 2 = 0) := by
  rcases lt_trichotomy c (packMagnitude num den) with below | rfl | above
  · obtain ⟨le, tie⟩ := le_two_mul_of_lt_packMagnitude hd below
    have := Nat.mul_lt_mul_of_pos_right (magOfBits_strictMono below) hd
    zify at *
    grind
  · exact ⟨le_rfl, fun _ h => absurd rfl h⟩
  · obtain ⟨le, tie⟩ := two_mul_le_of_packMagnitude_lt hd finite above
    have := Nat.mul_lt_mul_of_pos_right (magOfBits_strictMono above) hd
    zify at *
    grind

/-- R112: a magnitude overflows from half a unit above the largest finite one. -/
theorem packMagnitude_overflows_iff {num den : Nat} (hd : 0 < den) :
    packMagnitude num den = 0x7F800000 ↔ (2 ^ 25 - 1) * 2 ^ 252 * den ≤ num := by
  have middle : magOfBits 0x7F7FFFFF + magOfBits 0x7F800000 = 2 * ((2 ^ 25 - 1) * 2 ^ 252) := by decide
  have middle : magOfBits 0x7F7FFFFF * den + magOfBits 0x7F800000 * den = 2 * ((2 ^ 25 - 1) * 2 ^ 252 * den) := by
    rw [← add_mul, middle, mul_assoc]
  constructor
  · intro h
    have := (le_two_mul_of_lt_packMagnitude (c := 0x7F7FFFFF) (num := num) hd (by omega)).1
    rw [h] at this
    omega
  · intro h
    by_contra finite
    have finite := lt_of_le_of_ne (packMagnitude_le num den hd) finite
    obtain ⟨le, tie⟩ := two_mul_le_of_packMagnitude_lt (num := num) hd finite finite
    have := Nat.mul_le_mul_right den (magOfBits_strictMono.monotone (Nat.le_pred_of_lt finite))
    have last : packMagnitude num den = 0x7F7FFFFF := by
      by_contra hne
      have := Nat.mul_lt_mul_of_pos_right (magOfBits_strictMono (show packMagnitude num den < 0x7F7FFFFF by omega)) hd
      omega
    have := tie (by rw [last] at le ⊢; omega)
    omega

/-! ## What a result rounds -/

/-- `r` is the binary32 value R112 gives for the exact result `v / den` (units of 2^-149). -/
structure RoundsTo (v : Int) (den : Nat) (r : Word) : Prop where
  low : low31 r = packMagnitude v.natAbs den
  sign : v ≠ 0 → signBit r = decide (v < 0)

theorem RoundsTo.negate {v : Int} {den : Nat} {r : Word} (h : RoundsTo v den r) : RoundsTo (-v) den (negate r) where
  low := by rw [low31_negate, Int.natAbs_neg, h.low]
  sign hv := by
    rw [signBit_negate, h.sign (by omega), ← decide_not, decide_eq_decide]
    omega

theorem RoundsTo.value_of_nonneg {num den : Nat} {r : Word} (hd : 0 < den) (h : RoundsTo num den r) :
    value r = magOfBits (packMagnitude num den) := by
  have low := h.low
  rw [Int.natAbs_natCast] at low
  rw [value_eq, low]
  rcases Nat.eq_zero_or_pos num with rfl | pos
  · simp [packMagnitude_zero den hd]
  · rw [h.sign (by omega), if_neg (by simp)]

theorem RoundsTo.isFinite_iff {v : Int} {den : Nat} {r : Word} (h : RoundsTo v den r) :
    isFinite r = true ↔ packMagnitude v.natAbs den < 0x7F800000 := by
  rw [Machine.isFinite_iff, h.low]

theorem getLsbD_zero_eq_low31 (x : Word) : x.getLsbD 0 = decide (low31 x % 2 = 1) := by
  rw [low31_eq, BitVec.getLsbD, Nat.testBit_zero, decide_eq_decide]
  omega

theorem abs_value (x : Word) : |value x| = magOfBits (low31 x) := by
  rw [value_eq]
  split <;> simp

/-- A value of the other sign is no nearer than zero is. -/
theorem RoundsTo.nearest_of_nonneg {num den : Nat} {r : Word} (hd : 0 < den) (h : RoundsTo num den r)
    (finite : isFinite r = true) (x : Word) :
    |(num : Int) - value r * den| ≤ |(num : Int) - value x * den| ∧
    (|(num : Int) - value r * den| = |(num : Int) - value x * den| → value x ≠ value r → r.getLsbD 0 = false) := by
  have nearest := packMagnitude_nearest (num := num) hd (h.isFinite_iff.mp finite)
  have low : low31 r = packMagnitude num den := h.low
  rw [h.value_of_nonneg hd, getLsbD_zero_eq_low31, low, decide_eq_false_iff_not]
  rcases le_or_gt 0 (value x) with nonneg | neg
  · have hx : value x = magOfBits (low31 x) := by rw [← abs_value, abs_of_nonneg nonneg]
    obtain ⟨le, tie⟩ := nearest (low31 x)
    rw [hx]
    refine ⟨le, fun eq ne => ?_⟩
    have := tie eq (by rintro same; rw [same] at ne; exact ne rfl)
    omega
  · obtain ⟨le, -⟩ := nearest 0
    have : |(num : Int) - magOfBits 0 * den| < |(num : Int) - value x * den| := by
      have : value x * den < 0 := mul_neg_of_neg_of_pos neg (by exact_mod_cast hd)
      rw [magOfBits_zero, Nat.cast_zero, zero_mul, abs_of_nonneg (by omega), abs_of_nonneg (by omega)]
      omega
    exact ⟨by omega, fun eq => by omega⟩

/-- R112: no binary32 value is nearer, and when another is equally near, the last bit is 0. -/
theorem RoundsTo.nearest {v : Int} {den : Nat} {r : Word} (hd : 0 < den) (h : RoundsTo v den r)
    (finite : isFinite r = true) (x : Word) :
    |v - value r * den| ≤ |v - value x * den| ∧
    (|v - value r * den| = |v - value x * den| → value x ≠ value r → r.getLsbD 0 = false) := by
  rcases le_or_gt 0 v with nonneg | neg
  · obtain ⟨num, rfl⟩ := Int.eq_ofNat_of_zero_le nonneg
    exact h.nearest_of_nonneg hd finite x
  · obtain ⟨num, hnum⟩ := Int.eq_ofNat_of_zero_le (show 0 ≤ -v by omega)
    have mirrored : RoundsTo num den (Machine.negate r) := hnum ▸ h.negate
    have mirror : ∀ y, |(num : Int) - value (Machine.negate y) * den| = |v - value y * den| := fun y => by
      rw [← hnum, value_negate, ← abs_neg]; ring_nf
    have := mirrored.nearest_of_nonneg hd (by rwa [isFinite_negate]) (Machine.negate x)
    rwa [mirror, mirror, getLsbD_zero_eq_low31, low31_negate, ← getLsbD_zero_eq_low31, value_negate, value_negate,
      ne_eq, neg_inj] at this

theorem eq_infOf_iff {x : Word} {s : Bool} : x = infOf s ↔ low31 x = 0x7F800000 ∧ signBit x = s := by
  have low : low31 (infOf s) = 0x7F800000 := by cases s <;> decide
  have sign : signBit (infOf s) = s := by cases s <;> decide
  exact ⟨fun h => h ▸ ⟨low, sign⟩, fun ⟨hl, hs⟩ => word_ext (hs.trans sign.symm) (hl.trans low.symm)⟩

theorem eq_zeroOf_iff {x : Word} {s : Bool} : x = zeroOf s ↔ low31 x = 0 ∧ signBit x = s := by
  have low : low31 (zeroOf s) = 0 := by cases s <;> decide
  have sign : signBit (zeroOf s) = s := by cases s <;> decide
  exact ⟨fun h => h ▸ ⟨low, sign⟩, fun ⟨hl, hs⟩ => word_ext (hs.trans sign.symm) (hl.trans low.symm)⟩

/-- R112: a result overflows from half a unit above the largest finite value, to the infinity of its sign. -/
theorem RoundsTo.overflows {v : Int} {den : Nat} {r : Word} (hd : 0 < den) (h : RoundsTo v den r) :
    (isFinite r = false ↔ ((2 ^ 25 - 1) * 2 ^ 252 * den : Int) ≤ |v|) ∧
    (isFinite r = false → r = infOf (decide (v < 0))) := by
  have bound := packMagnitude_le v.natAbs den hd
  have infinite : isFinite r = false ↔ packMagnitude v.natAbs den = 0x7F800000 := by
    rw [← Bool.not_eq_true, h.isFinite_iff]; omega
  have threshold : (2 ^ 25 - 1) * 2 ^ 252 * den ≤ v.natAbs ↔ ((2 ^ 25 - 1) * 2 ^ 252 * den : Int) ≤ |v| := by
    zify
    norm_num
  refine ⟨infinite.trans ((packMagnitude_overflows_iff hd).trans threshold), fun hr => ?_⟩
  have top := infinite.mp hr
  have nonzero : v ≠ 0 := by rintro rfl; simp [packMagnitude_zero den hd] at top
  exact eq_infOf_iff.mpr ⟨h.low.trans top, h.sign nonzero⟩

/-! ## The operations on finite operands -/

theorem roundsTo_pack {v : Int} {den : Nat} {s : Bool} (hd : 0 < den) (hs : v ≠ 0 → s = decide (v < 0)) :
    RoundsTo v den (pack s v.natAbs den) where
  low := low31_pack _ _ _ hd
  sign hv := (signBit_pack _ _ _ hd).trans (hs hv)

theorem natAbs_value (x : Word) : (value x).natAbs = magnitude x := by
  unfold value
  split <;> simp

theorem value_eq_zero_iff {x : Word} : value x = 0 ↔ magnitude x = 0 := by
  rw [← natAbs_value, Int.natAbs_eq_zero]

/-- A value other than zero has the sign of its sign bit. -/
theorem decide_value_neg {x : Word} (h : value x ≠ 0) : decide (value x < 0) = signBit x := by
  have : magnitude x ≠ 0 := mt value_eq_zero_iff.mpr h
  cases hs : signBit x with
  | false => simp [value, hs]
  | true => simp only [value, hs, if_true, decide_eq_true_eq]; omega

/-- The sign of a product is the exclusive-or of the signs. -/
theorem decide_mul_neg {v w : Int} (hv : v ≠ 0) (hw : w ≠ 0) :
    decide (v * w < 0) = (decide (v < 0) != decide (w < 0)) := by
  rw [Bool.eq_iff_iff]
  simp only [decide_eq_true_eq, mul_neg_iff, bne_iff_ne, ne_eq, decide_eq_decide]
  omega

theorem fadd_of_finite {q a b : Word} (ha : isFinite a = true) (hb : isFinite b = true) :
    fadd q a b = if value a + value b = 0 then zeroOf (signBit a && signBit b)
      else pack (decide (value a + value b < 0)) (value a + value b).natAbs 1 := by
  simp [fadd, isNaN_of_finite ha, isNaN_of_finite hb, isInf_of_finite ha, isInf_of_finite hb]

theorem fadd_roundsTo {q a b : Word} (ha : isFinite a = true) (hb : isFinite b = true) :
    RoundsTo (value a + value b) 1 (fadd q a b) := by
  rw [fadd_of_finite ha hb]
  split
  · rename_i h0
    rw [h0]
    exact ⟨by simp [(eq_zeroOf_iff.mp rfl).1], fun h => absurd rfl h⟩
  · exact roundsTo_pack one_pos fun _ => rfl

theorem fmul_roundsTo {q a b : Word} (ha : isFinite a = true) (hb : isFinite b = true) :
    RoundsTo (value a * value b) (2 ^ 149) (fmul q a b) := by
  obtain ⟨-, sign, low⟩ := fmul_finite (q := q) ha hb
  refine ⟨by rw [low, Int.natAbs_mul, natAbs_value, natAbs_value], fun h => ?_⟩
  obtain ⟨ha0, hb0⟩ := mul_ne_zero_iff.mp h
  rw [sign, decide_mul_neg ha0 hb0, decide_value_neg ha0, decide_value_neg hb0]

theorem isZero_iff_value {x : Word} (h : isFinite x = true) : isZero x = true ↔ value x = 0 := by
  rw [isZero, h, Bool.true_and, beq_iff_eq, value_eq_zero_iff]

theorem fdiv_roundsTo {q a b : Word} (ha : isFinite a = true) (hb : isFinite b = true) (h0 : value b ≠ 0) :
    RoundsTo (value a * 2 ^ 149 * (value b).sign) (value b).natAbs (fdiv q a b) := by
  obtain ⟨-, sign, low⟩ := fdiv_finite (q := q) ha hb (by rwa [← Bool.not_eq_true, isZero_iff_value hb])
  constructor
  · rw [low, Int.natAbs_mul, Int.natAbs_mul, natAbs_value, natAbs_value, Int.natAbs_sign_of_ne_zero h0, mul_one]
    rfl
  · intro h
    obtain ⟨h', hb0⟩ := mul_ne_zero_iff.mp h
    have ha0 := left_ne_zero_of_mul h'
    rw [sign, decide_mul_neg h' hb0, decide_mul_neg ha0 (by norm_num), decide_value_neg ha0,
      ← decide_value_neg h0]
    simp

end Sys2Proof.Machine

/-! # Zeros, infinities and NaNs in arithmetic -/

namespace Sys2Proof.Machine

/-! ## Classes -/

@[simp] theorem isNaN_infOf (s : Bool) : isNaN (infOf s) = false := by cases s <;> decide
@[simp] theorem isInf_infOf (s : Bool) : isInf (infOf s) = true := by cases s <;> decide
@[simp] theorem isFinite_infOf (s : Bool) : isFinite (infOf s) = false := by cases s <;> decide
@[simp] theorem isZero_infOf (s : Bool) : isZero (infOf s) = false := by cases s <;> decide
@[simp] theorem signBit_infOf (s : Bool) : signBit (infOf s) = s := by cases s <;> decide
@[simp] theorem negate_infOf (s : Bool) : negate (infOf s) = infOf (!s) := by cases s <;> decide

theorem isInf_iff_eq_infOf (x : Word) : isInf x = true ↔ x = infOf (signBit x) := by
  rw [isInf_iff, eq_infOf_iff, and_iff_left rfl]

/-- A value that is no NaN is finite or one of the infinities. -/
theorem finite_or_infOf {x : Word} (h : isNaN x = false) : isFinite x = true ∨ ∃ s, x = infOf s := by
  cases hi : isInf x with
  | false => exact .inl ((finite_iff_not x).mpr ⟨h, hi⟩)
  | true => exact .inr ⟨_, (isInf_iff_eq_infOf x).mp hi⟩

theorem isFinite_of_isZero {x : Word} (h : isZero x = true) : isFinite x = true := (Bool.and_eq_true_iff.mp h).1

theorem magnitude_of_isZero {x : Word} (h : isZero x = true) : magnitude x = 0 := by
  simpa using (Bool.and_eq_true_iff.mp h).2

/-! ## Zeros -/

theorem fsub_eq_fadd_negate (q a : Word) {b : Word} (hb : isNaN b = false) : fsub q a b = fadd q a (negate b) := by
  simp [fsub, hb]

theorem fsub_self {q a : Word} (ha : isFinite a = true) : fsub q a a = posZero := by
  rw [fsub_eq_fadd_negate q a (isNaN_of_finite ha), fadd_of_finite ha (by rwa [isFinite_negate]), value_negate,
    if_pos (by omega), signBit_negate, Bool.and_not_self]
  rfl

theorem fmul_of_isZero {q a b : Word} (ha : isFinite a = true) (hb : isFinite b = true)
    (h : isZero a = true ∨ isZero b = true) : fmul q a b = zeroOf (signBit a != signBit b) := by
  obtain ⟨-, sign, low⟩ := fmul_finite (q := q) ha hb
  have product : magnitude a * magnitude b = 0 :=
    mul_eq_zero.mpr (h.imp magnitude_of_isZero magnitude_of_isZero)
  rw [product, packMagnitude_zero _ (by positivity)] at low
  exact eq_zeroOf_iff.mpr ⟨low, sign⟩

theorem fdiv_of_isZero_left {q a b : Word} (hb : isFinite b = true) (h0 : isZero b = false) (h : isZero a = true) :
    fdiv q a b = zeroOf (signBit a != signBit b) := by
  obtain ⟨-, sign, low⟩ := fdiv_finite (q := q) (isFinite_of_isZero h) hb h0
  have divisor : 0 < magnitude b := by
    rw [Nat.pos_iff_ne_zero]
    intro hm
    simp [isZero, hb, hm] at h0
  rw [magnitude_of_isZero h, zero_mul, packMagnitude_zero _ divisor] at low
  exact eq_zeroOf_iff.mpr ⟨low, sign⟩

theorem fdiv_of_isZero_right {q a b : Word} (ha : isFinite a = true) (h0 : isZero a = false) (h : isZero b = true) :
    fdiv q a b = infOf (signBit a != signBit b) := by
  have hb := isFinite_of_isZero h
  simp [fdiv, isNaN_of_finite, isInf_of_finite, ha, hb, h0, h]

/-! ## Infinite operands -/

theorem fadd_infOf_infOf (q : Word) (s t : Bool) : fadd q (infOf s) (infOf t) = if s = t then infOf s else q := by
  cases s <;> cases t <;> simp [fadd]

theorem fadd_infOf_right {q a : Word} (ha : isFinite a = true) (s : Bool) : fadd q a (infOf s) = infOf s := by
  simp [fadd, isNaN_of_finite ha, isInf_of_finite ha]

theorem fadd_infOf_left {q a : Word} (ha : isFinite a = true) (s : Bool) : fadd q (infOf s) a = infOf s := by
  simp [fadd, isNaN_of_finite ha, isInf_of_finite ha]

theorem fmul_infOf_right {q a : Word} (ha : isNaN a = false) (s : Bool) :
    fmul q a (infOf s) = if isZero a then q else infOf (signBit a != s) := by
  simp [fmul, ha]

theorem fmul_infOf_left {q a : Word} (ha : isNaN a = false) (s : Bool) :
    fmul q (infOf s) a = if isZero a then q else infOf (s != signBit a) := by
  simp [fmul, ha]

theorem fdiv_infOf_infOf (q : Word) (s t : Bool) : fdiv q (infOf s) (infOf t) = q := by
  simp [fdiv]

theorem fdiv_infOf_right {q a : Word} (ha : isFinite a = true) (s : Bool) :
    fdiv q a (infOf s) = zeroOf (signBit a != s) := by
  simp [fdiv, isNaN_of_finite ha, isInf_of_finite ha]

theorem fdiv_infOf_left {q a : Word} (ha : isFinite a = true) (s : Bool) :
    fdiv q (infOf s) a = infOf (s != signBit a) := by
  simp [fdiv, isNaN_of_finite ha, isInf_of_finite ha]

/-! ## NaNs (R113) -/

/-- A NaN operand gives the drawn NaN. -/
theorem operations_of_isNaN {q a b : Word} (h : isNaN a = true ∨ isNaN b = true) :
    fadd q a b = q ∧ fsub q a b = q ∧ fmul q a b = q ∧ fdiv q a b = q := by
  rcases h with h | h <;> simp [fadd, fsub, fmul, fdiv, h]

/-- Infinities of OppositeInfs signs. -/
def OppositeInfs (a b : Word) : Prop := isInf a = true ∧ isInf b = true ∧ signBit a ≠ signBit b

/-- A zero and an infinity, in either order. -/
def ZeroTimesInf (a b : Word) : Prop := (isZero a = true ∧ isInf b = true) ∨ (isInf a = true ∧ isZero b = true)

/-- Two zeros or two infinities. -/
def ZeroOrInfTwice (a b : Word) : Prop := (isZero a = true ∧ isZero b = true) ∨ (isInf a = true ∧ isInf b = true)

theorem fadd_of_oppositeInfs {q a b : Word} (h : OppositeInfs a b) : fadd q a b = q := by
  obtain ⟨ha, hb, hs⟩ := h
  rw [(isInf_iff_eq_infOf a).mp ha, (isInf_iff_eq_infOf b).mp hb, fadd_infOf_infOf, if_neg hs]

theorem isNaN_fadd {q a b : Word} (ha : isNaN a = false) (hb : isNaN b = false) (h : ¬ OppositeInfs a b) :
    isNaN (fadd q a b) = false := by
  rcases finite_or_infOf ha with fa | ⟨s, rfl⟩ <;> rcases finite_or_infOf hb with fb | ⟨t, rfl⟩
  · exact (fadd_finite fa fb).1
  · rw [fadd_infOf_right fa, isNaN_infOf]
  · rw [fadd_infOf_left fb, isNaN_infOf]
  · have same : s = t := by simpa [OppositeInfs] using h
    rw [fadd_infOf_infOf, if_pos same, isNaN_infOf]

theorem fmul_of_zeroTimesInf {q a b : Word} (h : ZeroTimesInf a b) : fmul q a b = q := by
  rcases h with ⟨ha, hb⟩ | ⟨ha, hb⟩
  · rw [(isInf_iff_eq_infOf b).mp hb, fmul_infOf_right (isNaN_of_finite (isFinite_of_isZero ha)), if_pos ha]
  · rw [(isInf_iff_eq_infOf a).mp ha, fmul_infOf_left (isNaN_of_finite (isFinite_of_isZero hb)), if_pos hb]

theorem isNaN_fmul {q a b : Word} (ha : isNaN a = false) (hb : isNaN b = false) (h : ¬ ZeroTimesInf a b) :
    isNaN (fmul q a b) = false := by
  rcases finite_or_infOf ha with fa | ⟨s, rfl⟩
  · rcases finite_or_infOf hb with fb | ⟨t, rfl⟩
    · exact (fmul_finite fa fb).1
    · have nonzero : isZero a ≠ true := fun h0 => h (.inl ⟨h0, isInf_infOf t⟩)
      rw [fmul_infOf_right ha, if_neg nonzero, isNaN_infOf]
  · have nonzero : isZero b ≠ true := fun h0 => h (.inr ⟨isInf_infOf s, h0⟩)
    rw [fmul_infOf_left hb, if_neg nonzero, isNaN_infOf]

theorem fdiv_of_zeroOrInfTwice {q a b : Word} (h : ZeroOrInfTwice a b) : fdiv q a b = q := by
  rcases h with ⟨ha, hb⟩ | ⟨ha, hb⟩
  · have fa := isFinite_of_isZero ha
    have fb := isFinite_of_isZero hb
    simp [fdiv, isNaN_of_finite, isInf_of_finite, fa, fb, ha, hb]
  · rw [(isInf_iff_eq_infOf a).mp ha, (isInf_iff_eq_infOf b).mp hb, fdiv_infOf_infOf]

theorem isNaN_fdiv {q a b : Word} (ha : isNaN a = false) (hb : isNaN b = false) (h : ¬ ZeroOrInfTwice a b) :
    isNaN (fdiv q a b) = false := by
  rcases finite_or_infOf ha with fa | ⟨s, rfl⟩ <;> rcases finite_or_infOf hb with fb | ⟨t, rfl⟩
  · cases hb0 : isZero b with
    | false => exact (fdiv_finite fa fb hb0).1
    | true =>
      have nonzero : isZero a = false := by
        rw [← Bool.not_eq_true]
        exact fun ha0 => h (.inl ⟨ha0, hb0⟩)
      rw [fdiv_of_isZero_right fa nonzero hb0, isNaN_infOf]
  · rw [fdiv_infOf_right fa, isNaN_zeroOf]
  · rw [fdiv_infOf_left fb, isNaN_infOf]
  · exact absurd (.inr ⟨isInf_infOf s, isInf_infOf t⟩) h

end Sys2Proof.Machine

/-! # Comparisons, the clamp and the conversion of integers -/

namespace Sys2Proof.Machine

/-! ## Comparisons (R115) -/

theorem feq_iff {a b : Word} (ha : isNaN a = false) (hb : isNaN b = false) :
    feq a b = true ↔ orderKey a = orderKey b := by
  simp [feq, comparable, ha, hb]

theorem value_eq_iff (x y : Word) : value x = value y ↔ orderKey x = orderKey y := by
  rw [value_eq_valueOfKey, value_eq_valueOfKey, valueOfKey_strictMono.injective.eq_iff]

theorem comparisons_of_isNaN {a b : Word} (h : isNaN a = true ∨ isNaN b = true) :
    flt a b = false ∧ fle a b = false ∧ fgt a b = false ∧ fge a b = false ∧ feq a b = false := by
  rcases h with h | h <;> simp [fgt, fge, flt, fle, feq, comparable, h]

theorem comparisons_of_finite {a b : Word} (ha : isFinite a = true) (hb : isFinite b = true) :
    (flt a b = true ↔ value a < value b) ∧ (fle a b = true ↔ value a ≤ value b) ∧
    (fgt a b = true ↔ value b < value a) ∧ (fge a b = true ↔ value b ≤ value a) ∧
    (feq a b = true ↔ value a = value b) := by
  have na := isNaN_of_finite ha
  have nb := isNaN_of_finite hb
  simp only [value_lt_iff, value_le_iff, value_eq_iff]
  exact ⟨flt_iff na nb, fle_iff na nb, flt_iff nb na, fle_iff nb na, feq_iff na nb⟩

theorem orderKey_posInf : orderKey (infOf false) = 0x7F800000 := by decide

theorem orderKey_negInf : orderKey (infOf true) = -0x7F800000 := by decide

/-- A value that is no NaN has a key between those of the infinities. -/
theorem orderKey_range {a : Word} (h : isNaN a = false) : -0x7F800000 ≤ orderKey a ∧ orderKey a ≤ 0x7F800000 := by
  rw [← Bool.not_eq_true, isNaN_iff_orderKey] at h
  omega

/-- An infinity is known by its key, which no other word has. -/
theorem eq_infOf_iff_orderKey {a : Word} {s : Bool} : a = infOf s ↔ orderKey a = orderKey (infOf s) := by
  refine ⟨congrArg orderKey, fun h => eq_infOf_iff.mpr ?_⟩
  have sign : orderKey a = if signBit a then -(low31 a : Int) else low31 a := orderKey_eq a
  cases s with
  | false => rw [orderKey_posInf] at h; grind
  | true => rw [orderKey_negInf] at h; grind

theorem crossed_of_not_finite {x : Word} (h : isNaN x = true ∨ isInf x = true) : crossed x = false := by
  rcases h with h | h
  · rw [crossed, (comparisons_of_isNaN (.inr h)).1, Bool.false_and]
  · rw [(isInf_iff_eq_infOf x).mp h]
    cases signBit x <;> decide

theorem crossed_iff {x : Word} (h : isFinite x = true) : crossed x = true ↔ 0 < value x ∧ value x ≤ value one := by
  obtain ⟨lt, -⟩ := comparisons_of_finite (a := posZero) (by decide) h
  obtain ⟨-, le, -⟩ := comparisons_of_finite (b := one) h (by decide)
  rw [crossed, Bool.and_eq_true, lt, le]
  rfl

/-! ## The clamp (R116) -/

theorem fclamp_eq_lo {x lo hi : Word} (h : isNaN x = true ∨ flt x lo = true) : fclamp x lo hi = lo := by
  rw [fclamp, if_pos (Bool.or_eq_true_iff.mpr h)]

theorem fclamp_eq_hi {x lo hi : Word} (ordered : fle lo hi = true) (h : flt hi x = true) : fclamp x lo hi = hi := by
  obtain ⟨hn, xn⟩ := not_nan_of_flt h
  obtain ⟨ln, -⟩ := not_nan_of_fle ordered
  have above : flt x lo ≠ true := by
    have := orderKey_le_of_fle ordered
    have := orderKey_lt_of_flt h
    rw [ne_eq, flt_iff xn ln]
    omega
  rw [fclamp, if_neg (by simp [xn, above]), fgt, if_pos h]

theorem fclamp_eq_self {x lo hi : Word} (hl : fle lo x = true) (hh : fle x hi = true) : fclamp x lo hi = x := by
  obtain ⟨ln, xn⟩ := not_nan_of_fle hl
  obtain ⟨-, hn⟩ := not_nan_of_fle hh
  have not_below : flt x lo ≠ true := by
    have := orderKey_le_of_fle hl
    rw [ne_eq, flt_iff xn ln]
    omega
  have not_above : fgt x hi ≠ true := by
    have := orderKey_le_of_fle hh
    rw [ne_eq, fgt, flt_iff hn xn]
    omega
  rw [fclamp, if_neg (by simp [xn, not_below]), if_neg not_above]

theorem flt_infOf_of_finite {x : Word} (h : isFinite x = true) :
    flt x (infOf false) = true ∧ flt (infOf true) x = true := by
  have nx := isNaN_of_finite h
  rw [isFinite_iff_orderKey] at h
  rw [flt_iff nx (isNaN_infOf _), flt_iff (isNaN_infOf _) nx, orderKey_posInf, orderKey_negInf]
  omega

/-! ## Exact results (R118, R126) -/

/-- An exact quotient that is a magnitude rounds to its bits. -/
theorem packMagnitude_eq_of_exact {num den b : Nat} (hd : 0 < den) (hb : b < 0x7F800000)
    (h : num = magOfBits b * den) : packMagnitude num den = b := by
  have same : num * 1 = magOfBits b * den := by rw [h, mul_one]
  calc packMagnitude num den = packMagnitude (magOfBits b) 1 :=
        le_antisymm (packMagnitude_mono hd one_pos same.le) (packMagnitude_mono one_pos hd same.ge)
    _ = b := packMagnitude_magOfBits b hb

theorem fmul_one {q x : Word} (hx : isFinite x = true) : fmul q x one = x := by
  obtain ⟨-, sign, low⟩ := fmul_finite (q := q) hx (show isFinite one = true by decide)
  have unit : magnitude one = 2 ^ 149 := by decide
  have unrounded : packMagnitude (magnitude x * 2 ^ 149) (2 ^ 149) = low31 x :=
    packMagnitude_eq_of_exact (by positivity) ((isFinite_iff x).mp hx) (by rw [magnitude_eq])
  have positive : signBit one = false := by decide
  rw [unit, unrounded] at low
  rw [positive, Bool.bne_false] at sign
  exact word_ext sign low

/-- An integer up to 2^24, shifted to 24 bits, is a significand on a grid. -/
theorem exists_magOfBits_eq {k : Nat} (hk : k ≤ 2 ^ 24) : ∃ b < 0x7F800000, magOfBits b = k * 2 ^ 149 := by
  rcases Nat.eq_zero_or_pos k with rfl | pos
  · exact ⟨0, by norm_num, by simp⟩
  · have low : 2 ^ k.log2 ≤ k := Nat.log2_self_le pos.ne'
    have high : k < 2 ^ (k.log2 + 1) := Nat.lt_log2_self
    have bound : k.log2 ≤ 24 := (Nat.pow_le_pow_iff_right (by norm_num)).mp (low.trans hk)
    have shift : ∃ j ≤ 23, 2 ^ 23 ≤ k * 2 ^ j ∧ k * 2 ^ j ≤ 2 ^ 24 := by
      refine ⟨23 - k.log2, by omega, ?_, ?_⟩
      · calc 2 ^ 23 ≤ 2 ^ (k.log2 + (23 - k.log2)) := Nat.pow_le_pow_right (by norm_num) (by omega)
          _ ≤ k * 2 ^ (23 - k.log2) := by rw [pow_add]; exact Nat.mul_le_mul_right _ low
      · rcases bound.lt_or_eq with small | top
        · calc k * 2 ^ (23 - k.log2) ≤ 2 ^ (k.log2 + 1) * 2 ^ (23 - k.log2) := Nat.mul_le_mul_right _ high.le
            _ = 2 ^ 24 := by rw [← pow_add]; congr 1; omega
        · rw [top]
          simpa using hk
    obtain ⟨j, hj, normal, fits⟩ := shift
    refine ⟨(149 - j) * 2 ^ 23 + k * 2 ^ j, by omega, ?_⟩
    rw [magOfBits_grid fits (.inr normal), mul_assoc, ← pow_add]
    congr 2
    omega

theorem itof_exact {k : Nat} (hk : k ≤ 2 ^ 24) : isFinite (itof k) = true ∧ value (itof k) = k * 2 ^ 149 := by
  obtain ⟨b, hb, hm⟩ := exists_magOfBits_eq hk
  have low : low31 (itof k) = b :=
    (low31_pack _ _ _ one_pos).trans (packMagnitude_eq_of_exact one_pos hb (by rw [hm, mul_one]))
  have sign : signBit (itof k) = false := signBit_pack _ _ _ one_pos
  refine ⟨(isFinite_iff _).mpr (by omega), ?_⟩
  rw [value_eq, low, hm, sign]
  push_cast
  rfl

theorem ftoiFloor_of_value {x : Word} {k : Nat} (h : value x = k * 2 ^ 149) : ftoiFloor x = k := by
  rw [ftoiFloor, h, Int.mul_ediv_cancel _ (by norm_num), Int.toNat_natCast]

end Sys2Proof.Machine

/-! # The statements of 40_numerics.md -/

namespace Sys2Proof.Proofs.NumericsFamily

open Sys2Proof Sys2Proof.Machine

/-- Settles O56: each operation rounds the exact result, and rounding gives a nearest value. -/
theorem arithmeticRoundsToNearestEven : Obligations.ArithmeticRoundsToNearestEven := by
  intro q a b ha hb
  refine ⟨fun hr x _ => ?_, fun hr x _ => ?_, fun h0 hr x _ => ?_⟩
  · exact (fadd_roundsTo ha hb).nearest one_pos hr x
  · exact (fmul_roundsTo ha hb).nearest (by positivity) hr x
  · exact (fdiv_roundsTo ha hb h0).nearest (Int.natAbs_pos.mpr h0) hr x

/-- Settles O57: rounding and signs of finite operands, then the operations on zeros, infinities and NaNs by class. -/
theorem arithmeticOverflowsAndSpecialValues : Obligations.ArithmeticOverflowsAndSpecialValues := by
  refine ⟨fun q a b ha hb => ?_, fun q a b => fsub_eq_fadd_negate q a, isInf_iff_eq_infOf, negate_infOf,
    fun q neg => ⟨?_, ?_, ?_, ?_, fun a ha => ?_, fun a ha h0 => ?_⟩, fun q a b => operations_of_isNaN,
    fun q a b ha hb => ?_⟩
  · exact ⟨(fadd_roundsTo ha hb).overflows one_pos, (fmul_roundsTo ha hb).overflows (by positivity),
      fun h0 => (fdiv_roundsTo ha hb h0).overflows (Int.natAbs_pos.mpr h0), (fadd_roundsTo ha hb).sign,
      (fmul_finite ha hb).2.1, fun h0 => (fdiv_finite ha hb h0).2.1,
      fun h0 => (fadd_of_finite ha hb).trans (if_pos h0), fsub_self ha, fmul_of_isZero ha hb,
      fun ha0 hb0 => fdiv_of_isZero_left hb hb0 ha0, fdiv_of_isZero_right ha⟩
  · rw [fadd_infOf_infOf, if_pos rfl]
  · rw [fadd_infOf_infOf, if_neg (by simp)]
  · rw [fsub_eq_fadd_negate _ _ (isNaN_infOf _), negate_infOf, fadd_infOf_infOf, if_neg (by simp)]
  · rw [fsub_eq_fadd_negate _ _ (isNaN_infOf _), negate_infOf, Bool.not_not, fadd_infOf_infOf, if_pos rfl]
  · refine ⟨fadd_infOf_right ha neg, fadd_infOf_left ha neg, ?_, ?_, fdiv_infOf_right ha neg, fdiv_infOf_left ha neg⟩
    · rw [fsub_eq_fadd_negate _ _ (isNaN_infOf _), negate_infOf, fadd_infOf_right ha]
    · rw [fsub_eq_fadd_negate _ _ (isNaN_of_finite ha), fadd_infOf_left (by rwa [isFinite_negate])]
  · have nonzero : ¬ isZero a = true := by simp [h0]
    exact ⟨(fmul_infOf_right ha neg).trans (if_neg nonzero), (fmul_infOf_left ha neg).trans (if_neg nonzero)⟩
  · rw [fsub_eq_fadd_negate q a hb]
    have hb' : isNaN (negate b) = false := by rwa [isNaN_negate]
    exact ⟨fadd_of_oppositeInfs, isNaN_fadd ha hb, fadd_of_oppositeInfs, isNaN_fadd ha hb', fmul_of_zeroTimesInf,
      isNaN_fmul ha hb, fdiv_of_zeroOrInfTwice, isNaN_fdiv ha hb⟩

/-- Settles O58: comparisons compare order keys, and the infinities have the ends of the range of keys. -/
theorem comparisonsAreThoseOfTheExtendedReals : Obligations.ComparisonsAreThoseOfTheExtendedReals := by
  refine ⟨fun a b => comparisons_of_isNaN, by decide, fun a b => comparisons_of_finite, fun a ha => ?_, fun a ha => ?_,
    fun neg => ⟨isInf_infOf neg, isNaN_infOf neg⟩,
    fun x => ⟨crossed_of_not_finite, crossed_iff, finite_iff_not x⟩⟩
  · have := orderKey_range ha
    have inf := isNaN_infOf false
    simp only [fgt, fge, ← Bool.not_eq_true, flt_iff ha inf, fle_iff ha inf, feq_iff ha inf, flt_iff inf ha,
      fle_iff inf ha, feq_iff inf ha, ne_eq, eq_infOf_iff_orderKey, orderKey_posInf, true_and]
    omega
  · have := orderKey_range ha
    have inf := isNaN_infOf true
    simp only [fgt, fge, ← Bool.not_eq_true, flt_iff ha inf, fle_iff ha inf, feq_iff ha inf, flt_iff inf ha,
      fle_iff inf ha, feq_iff inf ha, ne_eq, eq_infOf_iff_orderKey, orderKey_negInf, true_and]
    omega

/-- Settles O59: the three cases of the clamp, its range, and the infinities as values outside it. -/
theorem clampIsTotalAndInRange : Obligations.ClampIsTotalAndInRange := by
  intro lo hi hlo hhi ordered
  refine ⟨fun x => ?_, fclamp_eq_hi ordered (flt_infOf_of_finite hhi).1,
    fclamp_eq_lo (.inr (flt_infOf_of_finite hlo).2)⟩
  obtain ⟨above, below⟩ := fclamp_range (x := x) ordered
  exact ⟨fclamp_eq_lo, fclamp_eq_hi ordered, fclamp_eq_self, (not_nan_of_fle above).2, above, below⟩

/-- Settles O60: the integer is a magnitude on its grid, so the conversion rounds nothing. -/
theorem integerConversionIsExact : Obligations.IntegerConversionIsExact := by
  intro k hk
  obtain ⟨finite, equal⟩ := itof_exact hk
  exact ⟨finite, equal, ftoiFloor_of_value equal⟩

/-- Settles O52: multiplication by 1.0 is exact. -/
theorem jumpHeightsAreExactlyTwo : Obligations.JumpHeightsAreExactlyTwo :=
  fun _ => ⟨fmul_one (by decide), fmul_one (by decide)⟩

end Sys2Proof.Proofs.NumericsFamily

/-! # What the kernel buffers hold

Read-outs are followed cell by cell, in the order of play: cell `j` of a ring is the one at `ringIndex c pos j`, `j`
steps ahead of the position. Insertions are followed by the lane they leave: behind a tested crossing, `insertAt` is
the insertion that KB_INSERT on its own accepts. -/

namespace Sys2Proof.Machine

/-! ## Insertion (R143) -/

/-- An insertion adds each tap to its own cell, once. -/
theorem bufRead_kbInsert {c : Config} {src : Source} {ln : Lane} (hr : (ln.buf.get src).length = c.ringLen) (d : Draw)
    (pos : Nat) (p h : Word) {j : Nat} (hj : j < c.ringLen) :
    bufRead (kbInsert c d pos src p h ln) src (ringIndex c pos j) =
      fadd (c.nan (8 :: j :: d)) (bufRead ln src (ringIndex c pos j)) (kbTap c (j :: d) p h j) := by
  rw [kbInsert_eq, bufRead, Sources.get_set_self]
  exact getD_ringInsert c d pos p h _ hr j hj

/-! ## Read-out (R146, R148) -/

theorem bufRead_bufWrite_self {ln : Lane} {src : Source} {a : Nat} (v : Word) (ha : a < (ln.buf.get src).length)
    (b : Nat) : bufRead (bufWrite ln src a v) src b = if a = b then v else bufRead ln src b := by
  rw [bufRead, bufWrite_buf, Sources.get_set_self]
  exact getD_set _ _ _ _ _ ha

/-- Every cell of a ring is some number of steps ahead of any position. -/
theorem exists_ringIndex_eq {c : Config} (pos : Nat) {a : Nat} (ha : a < c.ringLen) :
    ∃ j < c.ringLen, ringIndex c pos j = a := by
  have hp : pos % c.ringLen < c.ringLen := Nat.mod_lt _ (by omega)
  refine ⟨(a + (c.ringLen - pos % c.ringLen)) % c.ringLen, Nat.mod_lt _ (by omega), ?_⟩
  calc ringIndex c pos ((a + (c.ringLen - pos % c.ringLen)) % c.ringLen)
      = (pos % c.ringLen + (a + (c.ringLen - pos % c.ringLen))) % c.ringLen := by
        rw [ringIndex, Nat.add_mod_mod, Nat.mod_add_mod]
    _ = (a + c.ringLen) % c.ringLen := by congr 1; omega
    _ = a := by rw [Nat.add_mod_right, Nat.mod_eq_of_lt ha]

/-- The state after `m` read-outs of one source with no insertion between them. -/
def afterReadOuts (c : Config) (src : Source) (s : State) (m : Nat) : State :=
  (List.range m).foldl (fun u _ => (kbProcess c src u).2) s

theorem afterReadOuts_succ (c : Config) (src : Source) (s : State) (m : Nat) :
    afterReadOuts c src s (m + 1) = (kbProcess c src (afterReadOuts c src s m)).2 := by
  rw [afterReadOuts, List.range_succ, List.foldl_append]
  rfl

theorem afterReadOuts_pos {c : Config} {src : Source} {s : State} (hp : s.pos.get src < c.ringLen) (m : Nat) :
    (afterReadOuts c src s m).pos.get src = ringIndex c (s.pos.get src) m := by
  induction m with
  | zero => exact (Nat.mod_eq_of_lt hp).symm
  | succ m ih =>
    rw [afterReadOuts_succ, kbProcess_pos, Sources.get_set_self, ih]
    exact Nat.mod_add_mod _ _ _

theorem ringLengths_afterReadOuts (c : Config) (src : Source) (s : State) (m : Nat) (i : Fin 4) :
    ringLengths ((afterReadOuts c src s m).lane i) = ringLengths (s.lane i) := by
  induction m with
  | zero => rfl
  | succ m ih => rw [afterReadOuts_succ, kbProcess_lane, ringLengths_bufWrite, ih]

theorem length_afterReadOuts (c : Config) (src : Source) (s : State) (m : Nat) (i : Fin 4) :
    (((afterReadOuts c src s m).lane i).buf.get src).length = ((s.lane i).buf.get src).length := by
  rw [← ringLengths_get, ringLengths_afterReadOuts, ringLengths_get]

/-- After `m` read-outs the first `m` cells in the order of play are +0.0, the others are untouched. -/
theorem bufRead_afterReadOuts {c : Config} {src : Source} {s : State} {i : Fin 4}
    (hr : ((s.lane i).buf.get src).length = c.ringLen) (hp : s.pos.get src < c.ringLen) {j : Nat} (hj : j < c.ringLen)
    {m : Nat} (hm : m ≤ c.ringLen) :
    bufRead ((afterReadOuts c src s m).lane i) src (ringIndex c (s.pos.get src) j) =
      if j < m then posZero else bufRead (s.lane i) src (ringIndex c (s.pos.get src) j) := by
  induction m with
  | zero => rfl
  | succ m ih =>
    have inside : ringIndex c (s.pos.get src) m < (((afterReadOuts c src s m).lane i).buf.get src).length := by
      rw [length_afterReadOuts, hr]; exact ringIndex_lt (by omega) _ _
    rw [afterReadOuts_succ, kbProcess_lane, afterReadOuts_pos hp, bufRead_bufWrite_self _ inside, ih (by omega)]
    by_cases same : j = m
    · rw [if_pos (by rw [same]), if_pos (by omega)]
    · rw [if_neg fun e => same (ringIndex_inj (by omega) hj e).symm]
      simp only [show j < m + 1 ↔ j < m by omega]

/-- The (m+1)-th read-out plays the cell `m` steps ahead of the first position. -/
theorem kbProcess_afterReadOuts {c : Config} {src : Source} {s : State} {i : Fin 4}
    (hr : ((s.lane i).buf.get src).length = c.ringLen) (hp : s.pos.get src < c.ringLen) {m : Nat}
    (hm : m < c.ringLen) :
    (kbProcess c src (afterReadOuts c src s m)).1.get i =
      bufRead (s.lane i) src (ringIndex c (s.pos.get src) m) := by
  rw [kbProcess_value, afterReadOuts_pos hp, bufRead_afterReadOuts hr hp hm hm.le, if_neg (lt_irrefl m)]

/-- A ring whose cells all read +0.0 is the empty ring. -/
theorem ring_eq_replicate {ln : Lane} {src : Source} {l : Nat} (hl : (ln.buf.get src).length = l)
    (h : ∀ a < l, bufRead ln src a = posZero) : ln.buf.get src = List.replicate l posZero := by
  refine List.eq_replicate_iff.mpr ⟨hl, fun v hv => ?_⟩
  obtain ⟨a, ha, rfl⟩ := List.mem_iff_getElem.mp hv
  rw [← h a (hl ▸ ha), bufRead, List.getD_eq_getElem _ _ ha]

/-- `L` read-outs empty the ring of every lane. -/
theorem ring_afterReadOuts_ringLen {c : Config} {src : Source} {s : State} {i : Fin 4}
    (hr : ((s.lane i).buf.get src).length = c.ringLen) (hp : s.pos.get src < c.ringLen) :
    ((afterReadOuts c src s c.ringLen).lane i).buf.get src = List.replicate c.ringLen posZero := by
  refine ring_eq_replicate ((length_afterReadOuts ..).trans hr) fun a ha => ?_
  obtain ⟨j, hj, rfl⟩ := exists_ringIndex_eq (s.pos.get src) ha
  rw [bufRead_afterReadOuts hr hp hj le_rfl, if_pos hj]

/-! ## The offset of an insertion (R142, R149) -/

theorem isFinite_of_crossed {x : Word} (h : crossed x = true) : isFinite x = true := by
  have excluded : ¬ (isNaN x = true ∨ isInf x = true) := fun hx => by
    rw [crossed_of_not_finite hx] at h; cases h
  rw [finite_iff_not]
  simpa [not_or] using excluded

/-- Rounding a value that is at least a representable one does not fall below it. -/
theorem orderKey_le_roundKey {v : Int} {x : Word} (hx : isFinite x = true) (h : value x ≤ v) :
    orderKey x ≤ roundKey v 1 := by
  rw [← roundKey_value hx]
  exact roundKey_mono one_pos one_pos (by simpa using h)

/-- A crossing in (0, 1], less 1, is in [-1, 0] whatever the rounding. -/
theorem offset_range_of_crossed {q x : Word} (h : crossed x = true) :
    fle negOne (fsub q x one) = true ∧ fle (fsub q x one) posZero = true := by
  have hx := isFinite_of_crossed h
  obtain ⟨above, below⟩ := (crossed_iff hx).mp h
  obtain ⟨number, key⟩ := fsub_finite (q := q) hx (show isFinite one = true by decide)
  have least : value negOne = -value one := by decide
  have greatest : value posZero = 0 := by decide
  rw [fle_iff (by decide) number, fle_iff number (by decide), key]
  exact ⟨orderKey_le_roundKey (by decide) (by omega), roundKey_le_orderKey (by decide) (by omega)⟩

theorem offsetLegal_iff {p : Word} : offsetLegal p = true ↔ fle negOne p = true ∧ fle p posZero = true :=
  Bool.and_eq_true_iff

theorem kbInsertAlone_eq_none_iff {c : Config} {d : Draw} {pos : Nat} {src : Source} {p h : Word} {ln : Lane} :
    kbInsertAlone c d pos src p h ln = none ↔ ¬ (fle negOne p = true ∧ fle p posZero = true) := by
  simp [kbInsertAlone, ← offsetLegal_iff]

/-- The insertion at a tested crossing is one that KB_INSERT on its own accepts. -/
theorem kbInsertAlone_of_crossed {x : Word} (hx : crossed x = true) (c : Config) (d : Draw) (pos : Nat) (src : Source)
    (h : Word) (ln : Lane) :
    kbInsertAlone c (0 :: d) pos src (fsub (c.nan (1 :: d)) x one) h ln = some (insertAt c d pos src x h ln) :=
  if_pos (offsetLegal_iff.mpr (offset_range_of_crossed hx))

/-! ## The call sites (R204, R205, R183, R240) -/

theorem wsRise_of_crossed {c : Config} {d : Draw} {pos : Nat} {src : Source} {phi dl : Word} {isSaw : Bool} {ln : Lane}
    (h : isSaw = false ∧ crossed (pulseCross c (0 :: d) ln.pw phi dl) = true) :
    wsRise c d pos src phi dl isSaw ln =
      insertAt c (1 :: d) pos src (pulseCross c (0 :: d) ln.pw phi dl) (fmul (c.nan (2 :: d)) two ln.syncDir) ln :=
  if_pos (by simp [h.1, h.2])

theorem wsRise_of_not_crossed {c : Config} {d : Draw} {pos : Nat} {src : Source} {phi dl : Word} {isSaw : Bool}
    {ln : Lane} (h : ¬ (isSaw = false ∧ crossed (pulseCross c (0 :: d) ln.pw phi dl) = true)) :
    wsRise c d pos src phi dl isSaw ln = ln :=
  if_neg (by simpa using h)

@[simp] theorem wsRise_syncDir (c : Config) (d : Draw) (pos : Nat) (src : Source) (phi dl : Word) (isSaw : Bool)
    (ln : Lane) : (wsRise c d pos src phi dl isSaw ln).syncDir = ln.syncDir := by
  rw [wsRise_eq]

theorem processMain_of_crossed {c : Config} {d : Draw} {pos : Nat} {dl phi : Word} {ln : Lane}
    (h : crossed (paCross1 c (1 :: d) phi dl) = true) :
    processMain c d pos dl phi ln =
      { insertAt c (0 :: 2 :: d) pos .m (paCross1 c (1 :: d) phi dl) (fmul (c.nan (1 :: 2 :: d)) negTwo ln.syncDir)
          (wsRise c (0 :: d) pos .m phi dl ln.mainIsSaw ln) with phase := paReduce c (3 :: d) phi } := by
  rw [processMain, if_pos h, wsFallMain, wsRise_syncDir]

theorem processMain_of_not_crossed {c : Config} {d : Draw} {pos : Nat} {dl phi : Word} {ln : Lane}
    (h : ¬ crossed (paCross1 c (1 :: d) phi dl) = true) :
    processMain c d pos dl phi ln =
      { wsRise c (0 :: d) pos .m phi dl ln.mainIsSaw ln with phase := paReduce c (3 :: d) phi } := by
  rw [processMain, if_neg h]

theorem expires_iff {ln : Lane} {k : Sub} {wrapped : Bool} :
    expires ln k wrapped = true ↔ wrapped = true ∧ ln.cnt.get k ≤ 1 := by
  rw [expires, Bool.and_eq_true, decide_eq_true_iff, Nat.sub_eq_zero_iff_le]

/-- The rings after step 5 of a sub whose counter expires: those of the falling edge inserted after the rising one. -/
theorem processSub_buf_of_expires {c : Config} {d : Draw} {pos : Nat} {k : Sub} {wrapped : Bool}
    {wc ph dl sigma : Word} {ln : Lane} (h : expires ln k wrapped = true) :
    (processSub c d pos k wrapped wc ph dl sigma ln).buf =
      (insertAt c (0 :: 1 :: d) pos k.source wc (fmul (c.nan (1 :: 1 :: d)) negTwo ln.syncDir)
        (wsRise c (0 :: d) pos k.source sigma dl ln.subIsSaw ln)).buf := by
  rw [processSub_eq, insertAt_eq, wsRise_eq, Sources.set_set, Sources.get_set_self, subRing, if_pos h, fallRing]

/-- The rings after step 5 of a sub whose counter does not expire: those of the rising edge. -/
theorem processSub_buf_of_not_expires {c : Config} {d : Draw} {pos : Nat} {k : Sub} {wrapped : Bool}
    {wc ph dl sigma : Word} {ln : Lane} (h : ¬ expires ln k wrapped = true) :
    (processSub c d pos k wrapped wc ph dl sigma ln).buf =
      (wsRise c (0 :: d) pos k.source sigma dl ln.subIsSaw ln).buf := by
  rw [processSub_eq, wsRise_eq, subRing, if_neg h]

end Sys2Proof.Machine

/-! # The statements of 41_kernel_buffer.md -/

namespace Sys2Proof.Proofs.KernelBufferFamily

open Sys2Proof Sys2Proof.Machine

/-- Settles O45: an insertion rewrites one ring, and each tap lands in its own cell of it. -/
theorem insertionAddsEachTapToItsCell : Obligations.InsertionAddsEachTapToItsCell := by
  intro c d pos src p h ln hr
  refine ⟨fun j hj => bufRead_kbInsert hr d pos p h hj, ?_, fun other ho => ?_, ?_⟩
  · rw [← ringLengths_get, ringLengths_kbInsert, ringLengths_get, hr]
  · rw [kbInsert_eq]; exact Sources.get_set_ne _ _ ho
  · rw [kbInsert_eq]

/-- Settles O46: by induction on the number of read-outs, which play and clear the cells in order. -/
theorem readOutEmptiesARingInLCalls : Obligations.ReadOutEmptiesARingInLCalls := by
  intro c src s hr hp
  refine ⟨fun j hj i => kbProcess_afterReadOuts (hr i) hp hj, fun i => ring_afterReadOuts_ringLen (hr i) hp, ?_⟩
  calc (afterReadOuts c src s c.ringLen).pos.get src = ringIndex c (s.pos.get src) c.ringLen := afterReadOuts_pos hp _
    _ = s.pos.get src := (Nat.add_mod_right _ _).trans (Nat.mod_eq_of_lt hp)

/-- Settles O47: a tested crossing gives a legal offset, and each call site makes `insertAt` behind such a test. -/
theorem everyInsertionOffsetIsLegal : Obligations.EveryInsertionOffsetIsLegal := by
  refine ⟨fun q x => offset_range_of_crossed, fun c d pos src p h ln => kbInsertAlone_eq_none_iff,
    fun c d pos src phi dl isSaw ln => ?rise, fun c d pos dl phi ln => ?wrap,
    fun c d pos k wc ph dl sigma ln => ?fall, fun c d pos t ln => ?lane⟩
  case rise =>
    dsimp only
    split
    · rename_i edge
      rw [wsRise_of_crossed edge]
      exact kbInsertAlone_of_crossed edge.2 ..
    · rename_i noEdge
      exact wsRise_of_not_crossed noEdge
  case wrap =>
    dsimp only
    split
    · rename_i edge
      exact ⟨_, kbInsertAlone_of_crossed edge .., by rw [processMain_of_crossed edge]⟩
    · rename_i noEdge
      rw [processMain_of_not_crossed noEdge]
  case fall =>
    dsimp only
    split
    · rename_i edge
      exact ⟨_, kbInsertAlone_of_crossed edge.1 .., processSub_buf_of_expires (expires_iff.mpr edge)⟩
    · rename_i noEdge
      exact processSub_buf_of_not_expires (mt expires_iff.mp noEdge)
  case lane =>
    simp only [processLane_eq, processMain_eq, processSub_eq]
    rfl

end Sys2Proof.Proofs.KernelBufferFamily

/-! # The phase accumulator

The main source of a lane is followed through one sample (R240): the subs' steps do not touch it, so the lane's main
phase and ring are those `processMain` leaves. The reduction is compared with the fractional part floor by floor: below
2 the floor is +0.0 or 1.0, and a subtraction of finite values draws nothing. -/

namespace Sys2Proof.Machine

/-! ## The main source through a sample (R240) -/

/-- Step 5 leaves the main source of the lane as steps 2 to 4 have made it. -/
theorem processLane_main (c : Config) (d : Draw) (pos : Sources Nat) (t : Word) (ln : Lane) :
    (processLane c d pos t ln).phase =
        (processMain c (3 :: d) pos.m (mainAdvance c d t ln).1 (mainAdvance c d t ln).2 ln).phase ∧
      (processLane c d pos t ln).buf.m =
        (processMain c (3 :: d) pos.m (mainAdvance c d t ln).1 (mainAdvance c d t ln).2 ln).buf.m := by
  rw [processLane_eq, processMain_eq]
  exact ⟨rfl, rfl⟩

/-- Steps 1 to 5 keep what selects and compensates the main output. -/
theorem processLane_mainSettings (c : Config) (d : Draw) (pos : Sources Nat) (t : Word) (ln : Lane) :
    (processLane c d pos t ln).mainIsSaw = ln.mainIsSaw ∧ (processLane c d pos t ln).pw = ln.pw ∧
      (processLane c d pos t ln).dcMain = ln.dcMain := by
  rw [processLane_eq]
  exact ⟨rfl, rfl, rfl⟩

/-- The main source of an active lane after steps 6 and 7: its phase as moved, its current cell cleared, its output made
of that phase and that cell. -/
theorem sampledLane_main (c : Config) (d : Draw) (pos : Sources Nat) (t : Word) (ln : Lane) :
    let moved := processLane c d pos t ln
    let sampled := sampledLane c d true pos t ln
    sampled.phase = moved.phase ∧ sampled.buf.m = moved.buf.m.set pos.m posZero ∧
      sampled.outMain = wsOut c (6 :: d) ln.mainIsSaw moved.phase (moved.buf.m.getD pos.m posZero) ln.pw ln.dcMain := by
  obtain ⟨saw, width, compensation⟩ := processLane_mainSettings c d pos t ln
  refine ⟨rfl, rfl, ?_⟩
  rw [← saw, ← width, ← compensation]
  rfl

/-! ## The fractional part below 2 (R117, R164) -/

/-- A difference of finite values does not depend on the NaN that was drawn. -/
theorem fsub_draw_of_finite {a b : Word} (ha : isFinite a = true) (hb : isFinite b = true) (q q' : Word) :
    fsub q a b = fsub q' a b := by
  have hb' : isFinite (negate b) = true := by rwa [isFinite_negate]
  rw [fsub_eq_fadd_negate _ _ (isNaN_of_finite hb), fsub_eq_fadd_negate _ _ (isNaN_of_finite hb),
    fadd_of_finite ha hb', fadd_of_finite ha hb']

/-- Subtracting +0.0 keeps every bit of a finite value, the sign of a zero included. -/
theorem fsub_posZero {q x : Word} (hx : isFinite x = true) : fsub q x posZero = x := by
  have hz : isFinite negZero = true := by decide
  have sum : value x + value negZero = value x := by rw [show value negZero = 0 by decide, add_zero]
  rw [fsub_eq_fadd_negate q x (by decide), show negate posZero = negZero by decide]
  have rounds := fadd_roundsTo (q := q) hx hz
  rw [sum] at rounds
  refine word_ext ?sign ?low
  case low =>
    rw [rounds.low, natAbs_value, magnitude_eq, packMagnitude_magOfBits _ ((isFinite_iff x).mp hx)]
  case sign =>
    by_cases h0 : value x = 0
    · rw [fadd_of_finite hx hz, if_pos (sum.trans h0), show signBit negZero = true by decide, Bool.and_true]
      exact (eq_zeroOf_iff.mp rfl).2
    · rw [rounds.sign h0, decide_value_neg h0]

/-- The floor below 1, with the sign of the zero. -/
theorem ffloor_of_lt_one {x : Word} (hs : signBit x = false) (hlt : flt x one = true) :
    isFinite x = true ∧ ffloor x = posZero := by
  have nonneg : 0 ≤ orderKey x := by rw [orderKey_eq, hs]; exact Int.natCast_nonneg _
  have unit : unitPhase x = true := unitPhase_iff.mpr ⟨nonneg, orderKey_lt_of_flt hlt⟩
  have finite := isFinite_of_finiteNonneg (finiteNonneg_of_unitPhase unit)
  have below : value x < 2 ^ 149 := lt_of_lt_of_eq ((value_lt_iff _ _).mpr (orderKey_lt_of_flt hlt)) (by decide)
  refine ⟨finite, ?_⟩
  rw [ffloor, if_pos finite]
  split
  · rename_i hm
    have zero : isZero x = true := by rw [isZero, finite, hm]; rfl
    exact eq_zeroOf_iff (s := false).mpr ⟨(isZero_iff x).mp zero, hs⟩
  · exact if_pos (Int.ediv_eq_zero_of_lt ((value_nonneg_iff x).mpr nonneg) below)

/-- The floor in [1, 2). -/
theorem ffloor_of_one_le {x : Word} (hge : fge x one = true) (hlt : flt x two = true) :
    isFinite x = true ∧ ffloor x = one := by
  have least : 0x3F800000 ≤ orderKey x := orderKey_le_of_fle hge
  have greatest : orderKey x < 0x40000000 := orderKey_lt_of_flt hlt
  have finite : isFinite x = true := (isFinite_iff_orderKey x).mpr (by omega)
  have from_one : 2 ^ 149 ≤ value x := le_of_eq_of_le (by decide) ((value_le_iff one x).mpr least)
  have below_two : value x < 2 * 2 ^ 149 := lt_of_lt_of_eq ((value_lt_iff x two).mpr greatest) (by decide)
  have nonzero : magnitude x ≠ 0 := mt value_eq_zero_iff.mpr (by omega)
  have floor : value x / 2 ^ 149 = 1 := by omega
  refine ⟨finite, ?_⟩
  rw [ffloor, if_pos finite, if_neg nonzero, floor]
  decide

theorem ffrac_of_lt_one {q x : Word} (hs : signBit x = false) (hlt : flt x one = true) : ffrac q x = x := by
  obtain ⟨finite, floor⟩ := ffloor_of_lt_one hs hlt
  rw [ffrac, floor, fsub_posZero finite]

theorem ffrac_of_one_le {q x : Word} (hge : fge x one = true) (hlt : flt x two = true) :
    ffrac q x = fsub q x one := by
  rw [ffrac, (ffloor_of_one_le hge hlt).2]

/-- For numbers, "not at least 1" is "below 1". -/
theorem flt_of_not_fge {a b : Word} (ha : isNaN a = false) (hb : isNaN b = false) (h : ¬ fge a b = true) :
    flt a b = true := by
  rw [fge, fle_iff hb ha] at h
  exact (flt_iff ha hb).mpr (by omega)

end Sys2Proof.Machine

/-! # The statements of 42_phase_accumulator.md -/

namespace Sys2Proof.Proofs.PhaseAccumulatorFamily

open Sys2Proof Sys2Proof.Machine

/-- Settles O35: the sampled lane's main source is the moved one's, and only steps 2 to 4 move it. -/
theorem processMainSourceOfAnActiveLane : Obligations.ProcessMainSourceOfAnActiveLane := by
  intro t y s
  refine ⟨(processState device t s).done, rfl, fun i hi => ?_⟩
  have isActive : active s.n i = true := decide_eq_true hi
  have lane : ((processState device t s).done).lane i
      = sampledLane device [i.val, s.draws] true s.pos t (s.lane i) := by
    rw [← isActive]
    exact processState_lane_eq_sampledLane device t s i
  obtain ⟨phase, ring, output⟩ := sampledLane_main device [i.val, s.draws] s.pos t (s.lane i)
  obtain ⟨movedPhase, movedRing⟩ := processLane_main device [i.val, s.draws] s.pos t (s.lane i)
  dsimp only
  rw [lane, output, ring, phase, movedRing, movedPhase]
  exact ⟨rfl, rfl, rfl⟩

/-- Settles O48: the clamp's range, for the device's bounds. -/
theorem incrementIsAlwaysClamped : Obligations.IncrementIsAlwaysClamped :=
  increment_range

/-- Settles O49: the advance stays in [0, 1.5), which the reduction brings back into [0, 1). -/
theorem storedPhaseStaysBelowOne : Obligations.StoredPhaseStaysBelowOne := by
  intro d d' ph f t hlo hhi
  have unit : unitPhase ph = true := Bool.and_eq_true_iff.mpr ⟨hlo, hhi⟩
  obtain ⟨nonneg, below⟩ := paAdvance_range (d := d) (f := f) (tm := t) unit
  have number : isNaN (paAdvance device d ph f t).2 = false := isNaN_eq_false_of_orderKey nonneg (by omega)
  have stored : unitPhase (paReduce device d' (paAdvance device d ph f t).2) = true := unitPhase_paReduce nonneg below
  exact ⟨(flt_iff number (by decide)).mpr below, Bool.and_eq_true_iff.mp stored⟩

/-- Settles O50: by the two values of the floor, as the reduction's own test splits them. -/
theorem reductionIsTheFractionalPart : Obligations.ReductionIsTheFractionalPart := by
  intro c d q phi hs hlt
  refine ⟨?_, ffrac_of_lt_one hs⟩
  rw [paReduce]
  split
  · rename_i wraps
    rw [ffrac_of_one_le wraps hlt]
    exact fsub_draw_of_finite (ffloor_of_one_le wraps hlt).1 (by decide) _ _
  · rename_i stays
    have below := flt_of_not_fge (not_nan_of_flt hlt).1 (by decide) stays
    exact (ffrac_of_lt_one hs below).symm

end Sys2Proof.Proofs.PhaseAccumulatorFamily

/-! # The sub-harmonic divider

A sub is followed through one sample as the main source is: the other steps do not touch it, so its counter, phase and
ring are those `processSub` leaves on the lane before the sample. Its counter is followed through a run of ticks as one
register of an otherwise unchanged lane, until the tick that reloads it. -/

namespace Sys2Proof

@[simp] theorem Subs.set_set {α : Type} (v : Subs α) (k : Sub) (x y : α) : (v.set k x).set k y = v.set k y := by
  cases k <;> rfl

end Sys2Proof

namespace Sys2Proof.Machine

/-! ## A sub through a sample (R240 step 5) -/

/-- For a counter in its range (R181) an expiry is a wrap at a counter of 1. -/
theorem expires_eq_of_pos {ln : Lane} {k : Sub} {wrapped : Bool} (h : 1 ≤ ln.cnt.get k) :
    expires ln k wrapped = (wrapped && decide (ln.cnt.get k = 1)) := by
  have atOne : ln.cnt.get k - 1 = 0 ↔ ln.cnt.get k = 1 := by omega
  rw [expires, decide_eq_decide.mpr atOne]

/-- The rings after step 5 of a sub: the rising edge, then the falling edge of an expiry. -/
theorem processSub_buf (c : Config) (d : Draw) (pos : Nat) (k : Sub) (wrapped : Bool) (wc ph dl sigma : Word)
    (ln : Lane) :
    (processSub c d pos k wrapped wc ph dl sigma ln).buf =
      (if expires ln k wrapped then
        insertAt c (0 :: 1 :: d) pos k.source wc (fmul (c.nan (1 :: 1 :: d)) negTwo ln.syncDir)
          (wsRise c (0 :: d) pos k.source sigma dl ln.subIsSaw ln)
      else wsRise c (0 :: d) pos k.source sigma dl ln.subIsSaw ln).buf := by
  split
  · rename_i expiry
    exact processSub_buf_of_expires expiry
  · rename_i noExpiry
    exact processSub_buf_of_not_expires noExpiry

theorem processSub_cnt (c : Config) (d : Draw) (pos : Nat) (k : Sub) (wrapped : Bool) (wc ph dl sigma : Word)
    (ln : Lane) : (processSub c d pos k wrapped wc ph dl sigma ln).cnt.get k = tickCount ln k wrapped := by
  rw [processSub_eq, Subs.get_set_self]

theorem processSub_subPhase (c : Config) (d : Draw) (pos : Nat) (k : Sub) (wrapped : Bool) (wc ph dl sigma : Word)
    (ln : Lane) :
    (processSub c d pos k wrapped wc ph dl sigma ln).subPhase.get k = subPhaseAfter c d k wrapped ph sigma ln := by
  rw [processSub_eq, Subs.get_set_self]

/-- The draws of a sub's step 5 within its lane's. -/
def subDraw (d : Draw) (k : Sub) : Draw := (if k = .a then 4 else 5) :: d

/-- Step 5 of one sub of a lane, on the lane as it was before the sample. -/
def subStep (c : Config) (d : Draw) (pos : Sources Nat) (t : Word) (k : Sub) (ln : Lane) : Lane :=
  processSub c (subDraw d k) (pos.get k.source) k (crossed (mainCrossing c d t ln)) (mainCrossing c d t ln)
    (phaseAfter c d t ln) (subAdvance c d t k ln).1 (subAdvance c d t k ln).2 ln

theorem subAdvance_eq (c : Config) (d : Draw) (t : Word) (k : Sub) (ln : Lane) :
    subAdvance c d t k ln =
      paAdvance c ((if k = .a then 1 else 2) :: d) (ln.subPhase.get k) (ln.subFreq.get k) t := by
  cases k <;> rfl

/-- Steps 1 to 5 leave a sub's counter, phase and ring as its own step 5 makes them from the lane before the sample. -/
theorem processLane_sub (c : Config) (d : Draw) (pos : Sources Nat) (t : Word) (k : Sub) (ln : Lane) :
    (processLane c d pos t ln).cnt.get k = (subStep c d pos t k ln).cnt.get k ∧
      (processLane c d pos t ln).subPhase.get k = (subStep c d pos t k ln).subPhase.get k ∧
      (processLane c d pos t ln).buf.get k.source = (subStep c d pos t k ln).buf.get k.source := by
  rw [processLane_eq, subStep, processSub_eq]
  cases k <;> exact ⟨rfl, rfl, rfl⟩

/-- Steps 1 to 5 keep what selects and compensates the sub-outputs. -/
theorem processLane_subSettings (c : Config) (d : Draw) (pos : Sources Nat) (t : Word) (ln : Lane) :
    (processLane c d pos t ln).subIsSaw = ln.subIsSaw ∧ (processLane c d pos t ln).pw = ln.pw ∧
      (processLane c d pos t ln).dcSub = ln.dcSub := by
  rw [processLane_eq]
  exact ⟨rfl, rfl, rfl⟩

/-- A sub of an active lane after steps 6 and 7: its counter and phase as moved, its current cell cleared, its output
made of that phase and that cell. -/
theorem sampledLane_sub (c : Config) (d : Draw) (pos : Sources Nat) (t : Word) (k : Sub) (ln : Lane) :
    let moved := processLane c d pos t ln
    let sampled := sampledLane c d true pos t ln
    sampled.cnt.get k = moved.cnt.get k ∧ sampled.subPhase.get k = moved.subPhase.get k ∧
      sampled.buf.get k.source = (moved.buf.get k.source).set (pos.get k.source) posZero ∧
      sampled.outSub.get k =
        wsOut c ((if k = .a then 7 else 8) :: d) ln.subIsSaw (moved.subPhase.get k)
          ((moved.buf.get k.source).getD (pos.get k.source) posZero) ln.pw (ln.dcSub.get k) := by
  obtain ⟨saw, width, compensation⟩ := processLane_subSettings c d pos t ln
  dsimp only
  rw [← saw, ← width, ← compensation]
  cases k <;> exact ⟨rfl, rfl, rfl, rfl⟩

/-- PROCESS moves and samples an active lane. -/
theorem processState_lane_of_active {c : Config} {t : Word} {s : State} {i : Fin 4} (hi : i.val < s.n) :
    (processState c t s).lane i = sampledLane c [i.val, s.draws] true s.pos t (s.lane i) := by
  have isActive : active s.n i = true := decide_eq_true hi
  rw [← isActive]
  exact processState_lane_eq_sampledLane c t s i

theorem sampledLane_phase (c : Config) (d : Draw) (pos : Sources Nat) (t : Word) (ln : Lane) :
    (sampledLane c d true pos t ln).phase = phaseAfter c d t ln := by
  rw [(sampledLane_main ..).1, processLane_eq]

/-! ## A run of ticks (R183, R189) -/

/-- The lane after `m` ticks of one sub with nothing between them. -/
def afterTicks (c : Config) (pos : Nat) (k : Sub) (d : Nat → Draw) (wc ph sigma : Nat → Word) (ln : Lane) (m : Nat) :
    Lane :=
  (List.range m).foldl (fun l i => (sdTick c (d i) pos k (wc i) (ph i) (sigma i) l).1) ln

theorem afterTicks_succ (c : Config) (pos : Nat) (k : Sub) (d : Nat → Draw) (wc ph sigma : Nat → Word) (ln : Lane)
    (m : Nat) :
    afterTicks c pos k d wc ph sigma ln (m + 1) =
      (sdTick c (d m) pos k (wc m) (ph m) (sigma m) (afterTicks c pos k d wc ph sigma ln m)).1 := by
  rw [afterTicks, List.range_succ, List.foldl_append]
  rfl

/-- Fewer ticks than the counter holds take that many off the counter and change nothing else. -/
theorem afterTicks_of_lt_cnt {c : Config} {pos : Nat} {k : Sub} {d : Nat → Draw} {wc ph sigma : Nat → Word} {ln : Lane}
    {m : Nat} (hm : m < ln.cnt.get k) :
    afterTicks c pos k d wc ph sigma ln m = { ln with cnt := ln.cnt.set k (ln.cnt.get k - m) } := by
  induction m with
  | zero => rw [Nat.sub_zero, Subs.set_get]; rfl
  | succ m ih =>
    rw [afterTicks_succ, ih (by omega), sdTick_counting]
    · rw [Subs.get_set_self, Subs.set_set, Nat.sub_sub]
    · rw [Subs.get_set_self]
      omega

/-- As many ticks as the counter holds reload it. -/
theorem afterTicks_cnt {c : Config} {pos : Nat} {k : Sub} {d : Nat → Draw} {wc ph sigma : Nat → Word} {ln : Lane}
    (h : 1 ≤ ln.cnt.get k) : (afterTicks c pos k d wc ph sigma ln (ln.cnt.get k)).cnt.get k = ln.div.get k := by
  obtain ⟨m, hm⟩ := Nat.exists_eq_add_of_le' h
  rw [hm, afterTicks_succ, afterTicks_of_lt_cnt (by omega), sdTick_expired, Subs.get_set_self]
  rw [Subs.get_set_self]
  omega

end Sys2Proof.Machine

/-! # The statements of 43_subharmonic_divider.md -/

namespace Sys2Proof.Proofs.SubharmonicDividerFamily

open Sys2Proof Sys2Proof.Machine

/-- Settles O36: the sampled lane's sub is the moved one's, and only that sub's own step 5 moves it. -/
theorem processSubSourceOfAnActiveLane : Obligations.ProcessSubSourceOfAnActiveLane := by
  intro t y s
  refine ⟨(processState device t s).done, rfl, fun i k hi hcnt => ?_⟩
  have lane : ((processState device t s).done).lane i = sampledLane device [i.val, s.draws] true s.pos t (s.lane i) :=
    processState_lane_of_active hi
  obtain ⟨count, subPhase, ring, output⟩ := sampledLane_sub device [i.val, s.draws] s.pos t k (s.lane i)
  obtain ⟨movedCount, movedSubPhase, movedRing⟩ := processLane_sub device [i.val, s.draws] s.pos t k (s.lane i)
  dsimp only
  rw [lane, output, ring, subPhase, count, sampledLane_phase, movedRing, movedSubPhase, movedCount,
    ← expires_eq_of_pos hcnt, ← subAdvance_eq, subStep, processSub_buf, processSub_subPhase, processSub_cnt]
  exact ⟨rfl, rfl, rfl, rfl⟩

/-- Settles O51: by induction on the ticks, which count a fresh counter down from the divisor to its reload. -/
theorem counterExpiresOnEveryDthTick : Obligations.CounterExpiresOnEveryDthTick := by
  intro c pos k d wc ph sigma ln hdiv fresh
  rw [← fresh] at hdiv ⊢
  refine ⟨fun m hm => ?_, ?_⟩
  · change (afterTicks c pos k d wc ph sigma ln m).cnt.get k = _ ∧ (afterTicks c pos k d wc ph sigma ln m).buf = _
    rw [afterTicks_of_lt_cnt hm]
    exact ⟨Subs.get_set_self .., rfl⟩
  · exact (afterTicks_cnt hdiv).trans fresh.symm

end Sys2Proof.Proofs.SubharmonicDividerFamily

/-! # The waveform synthesizer

The naive saw and the pulse crossing are bounded on order keys, which rounding keeps: each step compares an exact result
with a representable value. A compensation computed twice differs only in which NaNs were drawn, and an operation answers
its drawn NaN or does not depend on it. -/

namespace Sys2Proof.Machine

/-! ## The key of a rounded result (R112) -/

theorem RoundsTo.orderKey_eq_roundKey {v : Int} {den : Nat} {r : Word} (hd : 0 < den) (h : RoundsTo v den r) :
    orderKey r = roundKey v den := by
  rw [orderKey_eq, h.low, roundKey]
  rcases eq_or_ne v 0 with rfl | nonzero
  · simp [packMagnitude_zero den hd]
  · rw [h.sign nonzero]
    simp only [decide_eq_true_eq]

theorem roundKey_nonpos {v : Int} {den : Nat} (hd : 0 < den) (h : v ≤ 0) : roundKey v den ≤ 0 := by
  have bound : roundKey v den ≤ roundKey 0 1 := roundKey_mono hd one_pos (by simpa using h)
  simpa [roundKey] using bound

/-- Twice a phase in [0, 1] is in [0, 2], whatever the rounding. -/
theorem fmul_two_range {q ph : Word} (hlo : fle posZero ph = true) (hhi : fle ph one = true) :
    0 ≤ orderKey (fmul q two ph) ∧ orderKey (fmul q two ph) ≤ orderKey two := by
  have nonneg : 0 ≤ orderKey ph := orderKey_le_of_fle hlo
  have most : orderKey ph ≤ 0x3F800000 := orderKey_le_of_fle hhi
  have finite : isFinite ph = true := (isFinite_iff_orderKey ph).mpr (by omega)
  have value_nonneg : 0 ≤ value ph := (value_nonneg_iff ph).mpr nonneg
  have value_most : value ph ≤ 2 ^ 149 := ((value_le_iff ph one).mpr most).trans_eq (by decide)
  have two_value : value two = 2 * 2 ^ 149 := by decide
  have key : orderKey (fmul q two ph) = roundKey (value two * value ph) (2 ^ 149) :=
    (fmul_roundsTo (by decide) finite).orderKey_eq_roundKey (by positivity)
  rw [key, ← roundKey_value (show isFinite two = true by decide), two_value]
  exact ⟨roundKey_nonneg (by positivity), roundKey_mono (by positivity) one_pos (by push_cast; omega)⟩

/-! ## The naive pulse (R201) -/

/-- The level of a pulse plus a zero correction is the level. -/
theorem fadd_level_posZero (q : Word) (high : Bool) :
    fadd q (if high then one else negOne) posZero = if high then one else negOne := by
  cases high <;> exact (fadd_of_finite (by decide) (by decide)).trans (by decide)

theorem wsPulse_posZero (c : Config) (d : Draw) (ph w : Word) :
    wsPulse c d ph posZero w = if flt w ph then one else negOne :=
  fadd_level_posZero _ _

theorem flt_asymm {a b : Word} (h : flt a b = true) : flt b a = false := by
  obtain ⟨na, nb⟩ := not_nan_of_flt h
  have := orderKey_lt_of_flt h
  rw [← Bool.not_eq_true, flt_iff nb na]
  omega

/-! ## The pulse crossing at width zero (R204, R209) -/

/-- The device's increment is finite and above zero. -/
theorem increment_pos (d : Draw) (f t : Word) :
    isFinite (increment device d f t) = true ∧ 0 < value (increment device d f t) := by
  obtain ⟨least, most⟩ := increment_range d f t
  have least : 0x358637BD ≤ orderKey (increment device d f t) := orderKey_le_of_fle least
  have most : orderKey (increment device d f t) ≤ 0x3EB33333 := orderKey_le_of_fle most
  refine ⟨(isFinite_iff_orderKey _).mpr (by omega), ?_⟩
  exact (value_lt_iff posZero _).mpr (lt_of_lt_of_le (by decide) least)

/-- An unwrapped phase is finite and at least the increment that was added. -/
theorem increment_le_paAdvance {d : Draw} {ph f t : Word} (h : unitPhase ph = true) :
    isFinite (paAdvance device d ph f t).2 = true ∧
      value (increment device d f t) ≤ value (paAdvance device d ph f t).2 := by
  obtain ⟨nonneg, below⟩ := paAdvance_range (d := d) (f := f) (tm := t) h
  refine ⟨(isFinite_iff_orderKey _).mpr (by omega), ?_⟩
  have finite := (increment_pos d f t).1
  have key : orderKey (paAdvance device d ph f t).2 = roundKey (value ph + value (increment device d f t)) 1 :=
    (fadd_finite (isFinite_of_finiteNonneg (finiteNonneg_of_unitPhase h)) finite).2
  have phase : 0 ≤ value ph := (value_nonneg_iff ph).mpr (unitPhase_iff.mp h).1
  rw [value_le_iff, key]
  exact orderKey_le_roundKey finite (by omega)

/-- Adding a value to a zero of either sign gives that value. -/
theorem value_fadd_of_isZero {q z x : Word} (hz : isZero z = true) (hx : isFinite x = true) :
    isFinite (fadd q z x) = true ∧ value (fadd q z x) = value x := by
  have zero : value z = 0 := value_eq_zero_iff.mpr (magnitude_of_isZero hz)
  have key : orderKey (fadd q z x) = orderKey x := by
    rw [(fadd_finite (isFinite_of_isZero hz) hx).2, zero, zero_add, roundKey_value hx]
  exact ⟨by rwa [isFinite_iff_orderKey, key, ← isFinite_iff_orderKey], (value_eq_iff _ _).mpr key⟩

/-- A difference of values that are not negative, the second the larger, is finite and not positive. -/
theorem fsub_nonpos {q a b : Word} (ha : isFinite a = true) (hb : isFinite b = true) (h0 : 0 ≤ value a)
    (h : value a ≤ value b) : isFinite (fsub q a b) = true ∧ value (fsub q a b) ≤ 0 := by
  have key : orderKey (fsub q a b) = roundKey (value a - value b) 1 := (fsub_finite ha hb).2
  have nonpos : orderKey (fsub q a b) ≤ 0 := key.trans_le (roundKey_nonpos one_pos (by omega))
  have least : orderKey (negate b) ≤ orderKey (fsub q a b) := by
    rw [key]
    exact orderKey_le_roundKey ((isFinite_negate b).trans hb) (by rw [value_negate]; omega)
  rw [orderKey_negate] at least
  have range := (isFinite_iff_orderKey b).mp hb
  exact ⟨(isFinite_iff_orderKey _).mpr (by omega), (value_le_iff _ posZero).mpr nonpos⟩

/-- Once the phase has passed the increment, the crossing of a width of zero is not above zero. -/
theorem orderKey_pulseCross_nonpos {c : Config} {d : Draw} {w phi dl : Word} (hw : isZero w = true)
    (hphi : isFinite phi = true) (hdl : isFinite dl = true) (positive : 0 < value dl) (passed : value dl ≤ value phi) :
    orderKey (pulseCross c d w phi dl) ≤ 0 := by
  obtain ⟨sumFinite, sum⟩ := value_fadd_of_isZero (q := c.nan (2 :: d)) hw hdl
  obtain ⟨distanceFinite, distance⟩ :=
    fsub_nonpos (q := c.nan (1 :: d)) sumFinite hphi (by omega) (by omega)
  have rounds := fdiv_roundsTo (q := c.nan (0 :: d)) distanceFinite hdl positive.ne'
  rw [pulseCross, rounds.orderKey_eq_roundKey (by omega), Int.sign_eq_one_of_pos positive]
  exact roundKey_nonpos (by omega) (by omega)

theorem crossed_of_nonpos {x : Word} (h : orderKey x ≤ 0) : crossed x = false := by
  have notAbove : flt posZero x = false := by
    rw [← Bool.not_eq_true]
    exact fun above => not_lt_of_ge h (orderKey_lt_of_flt above)
  rw [crossed, notAbove, Bool.false_and]

/-! ## The same number (R113, R208) -/

theorem sameNumber_refl (x : Word) : sameNumber x x := .inl rfl

theorem fmul_of_isNaN {q a b : Word} (h : isNaN a = true ∨ isNaN b = true) : fmul q a b = q := by
  obtain ⟨-, -, product, -⟩ := operations_of_isNaN (q := q) h
  exact product

theorem fsub_of_isNaN {q a b : Word} (h : isNaN a = true ∨ isNaN b = true) : fsub q a b = q := by
  obtain ⟨-, difference, -⟩ := operations_of_isNaN (q := q) h
  exact difference

theorem fsub_draw {q a b : Word} (q' : Word) (h : isNaN (fsub q a b) = false) (hq : isNaN q = true) :
    fsub q' a b = fsub q a b := by
  cases hb : isNaN b with
  | false =>
    rw [fsub_eq_fadd_negate q a hb] at h
    rw [fsub_eq_fadd_negate q' a hb, fsub_eq_fadd_negate q a hb, fadd_draw q' h hq]
  | true =>
    rw [fsub_of_isNaN (.inr hb), hq] at h
    cases h

/-- The same numbers give the same number under an operation that answers its drawn NaN for a NaN operand and does not
depend on it where it answers a number. -/
theorem sameNumber_of_draw {op : Word → Word → Word}
    (draw : ∀ {q a : Word} (q' : Word), isNaN (op q a) = false → isNaN q = true → op q' a = op q a)
    (absorbs : ∀ {q a : Word}, isNaN a = true → op q a = q) {q q' a a' : Word} (hq : isNaN q = true)
    (hq' : isNaN q' = true) (h : sameNumber a a') : sameNumber (op q a) (op q' a') := by
  rcases h with rfl | ⟨na, na'⟩
  · cases left : isNaN (op q a) with
    | false => exact .inl (draw q' left hq).symm
    | true =>
      cases right : isNaN (op q' a) with
      | false => exact .inl (draw q right hq')
      | true => exact .inr ⟨left, right⟩
  · rw [absorbs na, absorbs na']
    exact .inr ⟨hq, hq'⟩

theorem sameNumber_fmul {q q' a a' : Word} (hq : isNaN q = true) (hq' : isNaN q' = true) (h : sameNumber a a')
    (b : Word) : sameNumber (fmul q a b) (fmul q' a' b) :=
  sameNumber_of_draw (op := fun q a => fmul q a b) fmul_draw (fun na => fmul_of_isNaN (.inl na)) hq hq' h

theorem sameNumber_fsub {q q' a a' : Word} (hq : isNaN q = true) (hq' : isNaN q' = true) (h : sameNumber a a')
    (b : Word) : sameNumber (fsub q a b) (fsub q' a' b) :=
  sameNumber_of_draw (op := fun q a => fsub q a b) fsub_draw (fun na => fsub_of_isNaN (.inl na)) hq hq' h

theorem dcOffset_saw (c : Config) (d : Draw) (t f pw : Word) :
    dcOffset c d true t f pw = fmul (c.nan (0 :: d)) (fmul (c.nan (1 :: d)) c.sawDc t) f := rfl

theorem dcOffset_pulse (c : Config) (d : Draw) (t f pw : Word) :
    dcOffset c d false t f pw = fsub (c.nan (2 :: d)) (fmul (c.nan (3 :: d)) two pw) one := rfl

/-- A compensation is the same number whatever was drawn (R206, R207). -/
theorem sameNumber_dcOffset (c : Config) (d d' : Draw) (isSaw : Bool) (t f pw : Word) :
    sameNumber (dcOffset c d isSaw t f pw) (dcOffset c d' isSaw t f pw) := by
  cases isSaw with
  | true =>
    have gain := sameNumber_fmul (isNaN_nan c (1 :: d)) (isNaN_nan c (1 :: d')) (sameNumber_refl c.sawDc) t
    rw [dcOffset_saw, dcOffset_saw]
    exact sameNumber_fmul (isNaN_nan c _) (isNaN_nan c _) gain f
  | false =>
    have doubled := sameNumber_fmul (isNaN_nan c (3 :: d)) (isNaN_nan c (3 :: d')) (sameNumber_refl two) pw
    rw [dcOffset_pulse, dcOffset_pulse]
    exact sameNumber_fsub (isNaN_nan c _) (isNaN_nan c _) doubled one

/-- Computing a lane's compensations again reads what the first computation read. -/
theorem sameNumber_offsetLane_twice (c : Config) (d d' : Draw) (t : Word) (ln : Lane) :
    let first := offsetLane c d t ln
    let second := offsetLane c d' t first
    sameNumber first.dcMain second.dcMain ∧ ∀ k, sameNumber (first.dcSub.get k) (second.dcSub.get k) := by
  refine ⟨sameNumber_dcOffset .., fun k => ?_⟩
  cases k with
  | a => exact sameNumber_dcOffset ..
  | b => exact sameNumber_dcOffset ..

end Sys2Proof.Machine

/-! # The statements of 44_waveform_synth.md -/

namespace Sys2Proof.Proofs.WaveformSynthFamily

open Sys2Proof Sys2Proof.Machine

/-- Settles O32: a rejected time changes no lane, and a legal one computes each compensation twice from the same
registers. -/
theorem computeOffsetTwiceIsOnce : Obligations.ComputeOffsetTwiceIsOnce := by
  intro tm s t u first second i
  rw [exec_lane second i, exec_lane first i]
  simp only [laneAfter]
  split
  · exact sameNumber_offsetLane_twice ..
  · exact ⟨sameNumber_refl _, fun k => sameNumber_refl _⟩

/-- Settles O53: twice the phase is in [0, 2], and rounding keeps the bounds -1 and 1 of what is left. -/
theorem naiveSawIsBounded : Obligations.NaiveSawIsBounded := by
  intro q q' ph hlo hhi
  obtain ⟨nonneg, most⟩ := fmul_two_range (q := q') hlo hhi
  have two_key : orderKey two = 0x40000000 := by decide
  have finite : isFinite (fmul q' two ph) = true := (isFinite_iff_orderKey _).mpr (by omega)
  have value_nonneg : 0 ≤ value (fmul q' two ph) := (value_nonneg_iff _).mpr nonneg
  have value_most : value (fmul q' two ph) ≤ 2 * value one :=
    ((value_le_iff _ two).mpr most).trans_eq (by decide)
  have least : value negOne = -value one := by decide
  obtain ⟨number, key⟩ := fsub_finite (q := q) finite (show isFinite one = true by decide)
  rw [fle_iff (by decide) number, fle_iff number (by decide), key]
  exact ⟨orderKey_le_roundKey (by decide) (by omega), roundKey_le_orderKey (by decide) (by omega)⟩

/-- Settles O55: the increment has been added to a phase that is not negative, so the crossing is not above zero. -/
theorem zeroPulseWidthNeverRises : Obligations.ZeroPulseWidthNeverRises := by
  intro d d' w ph f t hw hlo hhi
  have unit : unitPhase ph = true := Bool.and_eq_true_iff.mpr ⟨hlo, hhi⟩
  obtain ⟨finite, positive⟩ := increment_pos d f t
  obtain ⟨phaseFinite, passed⟩ := increment_le_paAdvance (d := d) (f := f) (t := t) unit
  exact crossed_of_nonpos (orderKey_pulseCross_nonpos hw phaseFinite finite positive passed)

/-- Settles O54: the level is chosen by the strict comparison, and no phase below 1 is above a width of 1. -/
theorem pulseSwitchesStrictlyAboveItsWidth : Obligations.PulseSwitchesStrictlyAboveItsWidth := by
  intro c d ph w
  simp only [wsPulse_posZero]
  refine ⟨fun above => ?_, fun notAbove => ?_, fun below => ?_⟩
  · rw [above]; rfl
  · rw [notAbove]; rfl
  · rw [flt_asymm below]; rfl

end Sys2Proof.Proofs.WaveformSynthFamily

/-! # The engine commands

Each command's answer is written once as one update of the state: the response, the record of a rejection, and the
equation of each path of a meaning under its value check. The quotients of SETUP_SUB divide a sanitised frequency by a
legal divisor, so nothing is drawn; a lane after PROCESS is the sampled lane, whose settings no step writes. -/

namespace Sys2Proof.Machine

/-! ## Responses and rejections as updates (R86, R261, R266) -/

theorem State.done_eq (s : State) : s.done = { s with rsp := s.rsp ++ [0x00000000#32] } := rfl

/-- The response of an executed command that returns data. -/
theorem State.respond_executed (s : State) {data : List Word} {nd : Nat} (count : data.length = nd) (h : nd < 256) :
    s.respond 0#8 data = { s with rsp := s.rsp ++ BitVec.ofNat 32 (256 * nd) :: data } := by
  rw [State.respond, count, responseWord_eq_ofNat 0#8 h, BitVec.toNat_zero, Nat.zero_add]

/-- The causes of the value checks are of the class ERR_CFG (R261). -/
theorem State.reject_of_cfg {c : Cause} (h : causeIsCfg c = true) (s : State) :
    s.reject c = { s with
      status := { s.status with errCfg := true, lastCause := causeCode c }
      rsp := s.rsp ++ [(causeCode c).setWidth 32] } := by
  have record : s.status.rejected c = { s.status with errCfg := true, lastCause := causeCode c } := by
    simp [Status.rejected, h]
  rw [State.reject, State.respond, record, List.length_nil, responseWord_without_data]

/-! ## The paths of the commands with value checks (R225, R226, R231, R233) -/

theorem exec_setupSub_of_badCount {nn : Nat} (count : countLegal nn = false) (pitch : Lanes Word) (dA dB : Lanes Nat)
    (s : State) : exec (.setupSub nn pitch dA dB) s = .next (s.reject .cfgChannels) := by
  simp [exec, execSetupSub, setupSub, count]

theorem exec_setupSub_of_badDivisor {nn : Nat} {dA dB : Lanes Nat} (count : countLegal nn = true)
    (divisors : divisorsLegal dA dB = false) (pitch : Lanes Word) (s : State) :
    exec (.setupSub nn pitch dA dB) s = .next (s.reject .cfgDivisor) := by
  simp [exec, execSetupSub, setupSub, count, divisors]

theorem exec_setupSub_of_legal {nn : Nat} {dA dB : Lanes Nat} (count : countLegal nn = true)
    (divisors : divisorsLegal dA dB = true) (pitch : Lanes Word) (s : State) :
    exec (.setupSub nn pitch dA dB) s = .next (setupState device nn pitch dA dB s).done := by
  simp [exec, execSetupSub, setupSub, count, divisors]

theorem exec_setPw_of_legal {w : Lanes Word} (widths : pulseWidthsLegal w = true) (s : State) :
    exec (.setPw w) s = .next (setPulseWidths w s).done := if_pos widths

theorem exec_setPw_of_badWidth {w : Lanes Word} (widths : ¬ pulseWidthsLegal w = true) (s : State) :
    exec (.setPw w) s = .next (s.reject .cfgPulseWidth) := if_neg widths

theorem exec_computeOffset_of_legal {t : Word} (time : sampleTimeLegal t = true) (s : State) :
    exec (.computeOffset t) s = .next (offsetState device t s).done :=
  congrArg Host.Outcome.next (if_pos time)

theorem exec_computeOffset_of_badTime {t : Word} (time : ¬ sampleTimeLegal t = true) (s : State) :
    exec (.computeOffset t) s = .next (s.reject .cfgSampleTime) :=
  congrArg Host.Outcome.next (if_neg time)

theorem exec_process (t : Word) (y : Lanes Word) (s : State) :
    exec (.process t y) s = .next (processState device t s).done := rfl

/-! ## Order (R115) -/

theorem not_fle_of_flt {a b : Word} (h : flt a b = true) : fle b a = false := by
  rw [← Bool.not_eq_true]
  exact fun le => not_lt_of_ge (orderKey_le_of_fle le) (orderKey_lt_of_flt h)

theorem flt_trans {a b c : Word} (hab : flt a b = true) (hbc : flt b c = true) : flt a c = true := by
  obtain ⟨na, -⟩ := not_nan_of_flt hab
  obtain ⟨-, nc⟩ := not_nan_of_flt hbc
  exact (flt_iff na nc).mpr ((orderKey_lt_of_flt hab).trans (orderKey_lt_of_flt hbc))

/-- A value above zero has a clear sign bit. -/
theorem signBit_of_pos {x : Word} (h : flt posZero x = true) : signBit x = false := by
  have positive : 0 < orderKey x := orderKey_lt_of_flt h
  rw [orderKey_eq] at positive
  cases sign : signBit x with
  | false => rfl
  | true => rw [sign, if_pos rfl] at positive; omega

theorem not_pos_of_isZero {x : Word} (h : isZero x = true) : flt posZero x = false := by
  have key : orderKey x = 0 := by rw [orderKey_eq, (isZero_iff x).mp h]; simp
  rw [← Bool.not_eq_true]
  exact fun above => (orderKey_lt_of_flt above).ne' key

/-- The four kinds of sample time that are not finite and above zero (R233). -/
theorem sampleTimeLegal_of_bad {t : Word}
    (h : isNaN t = true ∨ isInf t = true ∨ isZero t = true ∨ flt t posZero = true) : ¬ sampleTimeLegal t = true := by
  intro legal
  obtain ⟨finite, above⟩ := Bool.and_eq_true_iff.mp legal
  rcases h with nan | inf | zero | below
  · simp [isNaN_of_finite finite] at nan
  · simp [isInf_of_finite finite] at inf
  · simp [not_pos_of_isZero zero] at above
  · simp [flt_asymm below] at above

/-! ## The sanitiser (R227) -/

theorem fsan_of_not_pos {c : Config} {f : Word} (h : isNaN f = true ∨ fle f posZero = true) : fsan c f = posZero :=
  if_pos (Bool.or_eq_true_iff.mpr h)

theorem fsan_of_pos {c : Config} {f : Word} (h : flt posZero f = true) :
    fsan c f = if flt c.freqMax f then c.freqMax else f := by
  obtain ⟨-, number⟩ := not_nan_of_flt h
  have notZero : ¬ (isNaN f || fle f posZero) = true := by simp [number, not_fle_of_flt h]
  exact if_neg notZero

/-- A sanitised frequency is no negative zero either. -/
theorem signBit_fsan_device (f : Word) : signBit (fsan device f) = false := by
  by_cases notPos : isNaN f = true ∨ fle f posZero = true
  · rw [fsan_of_not_pos notPos]; rfl
  · obtain ⟨number, notLe⟩ := not_or.mp notPos
    have pos : flt posZero f = true := flt_of_not_fge (by decide) (Bool.not_eq_true _ ▸ number) notLe
    rw [fsan_of_pos pos]
    split
    · rfl
    · exact signBit_of_pos pos

/-! ## A lane after SETUP_SUB (R224, R228) -/

/-- A quotient of finite values with a divisor that is no zero does not depend on the NaN that was drawn. -/
theorem fdiv_draw_of_finite {a b : Word} (ha : isFinite a = true) (hb : isFinite b = true) (h0 : isZero b = false)
    (q q' : Word) : fdiv q a b = fdiv q' a b := by
  obtain ⟨-, sign, low⟩ := fdiv_finite (q := q) ha hb h0
  obtain ⟨-, sign', low'⟩ := fdiv_finite (q := q') ha hb h0
  exact word_ext (sign.trans sign'.symm) (low.trans low'.symm)

/-- The frequency of a sub draws nothing: a sanitised frequency over a legal divisor. -/
theorem fdiv_fsan_draw (f : Word) {dv : Nat} (h : 1 ≤ dv ∧ dv ≤ 16) (q q' : Word) :
    fdiv q (fsan device f) (itof dv) = fdiv q' (fsan device f) (itof dv) := by
  obtain ⟨nonneg, -⟩ := fsan_device_range f
  obtain ⟨finite, -, size⟩ := itof_divisor h.1 h.2
  have nonzero : isZero (itof dv) = false := by
    rw [isZero, finite, size, Bool.true_and, beq_eq_false_iff_ne]
    omega
  exact fdiv_draw_of_finite (isFinite_of_finiteNonneg nonneg) finite nonzero q q'

theorem setupLane_of_active (d : Draw) (pitch : Word) {dA dB : Nat} (hA : 1 ≤ dA ∧ dA ≤ 16) (hB : 1 ≤ dB ∧ dB ≤ 16)
    (ln : Lane) (q : Word) :
    setupLane device d true pitch dA dB ln =
      { ln with
        div := ⟨dA, dB⟩
        cnt := ⟨min ln.cnt.a dA, min ln.cnt.b dB⟩
        freq := fsan device (device.p2f pitch)
        subFreq := ⟨fdiv q (fsan device (device.p2f pitch)) (itof dA),
          fdiv q (fsan device (device.p2f pitch)) (itof dB)⟩ } := by
  rw [fdiv_fsan_draw _ hA q (device.nan (0 :: d)), fdiv_fsan_draw _ hB q (device.nan (1 :: d))]
  rfl

theorem setupLane_of_inactive (c : Config) (d : Draw) (pitch : Word) (dA dB : Nat) (ln : Lane) :
    setupLane c d false pitch dA dB ln =
      { ln with
        div := ⟨dA, dB⟩
        cnt := ⟨min ln.cnt.a dA, min ln.cnt.b dB⟩
        freq := posZero
        subFreq := ⟨posZero, posZero⟩
        phase := posZero
        subPhase := ⟨posZero, posZero⟩
        outMain := posZero
        outSub := ⟨posZero, posZero⟩ } := rfl

/-! ## The compensations (R206, R207) -/

theorem dcOffset_of_saw {isSaw : Bool} (h : isSaw = true) (c : Config) (d : Draw) (t f pw : Word) :
    ∃ q q', isNaN q = true ∧ isNaN q' = true ∧ dcOffset c d isSaw t f pw = fmul q (fmul q' c.sawDc t) f :=
  ⟨c.nan (0 :: d), c.nan (1 :: d), isNaN_nan _ _, isNaN_nan _ _, by rw [h, dcOffset_saw]⟩

theorem dcOffset_of_pulse {isSaw : Bool} (h : isSaw = false) (c : Config) (d : Draw) (t f pw : Word) :
    ∃ q q', isNaN q = true ∧ isNaN q' = true ∧ dcOffset c d isSaw t f pw = fsub q (fmul q' two pw) one :=
  ⟨c.nan (2 :: d), c.nan (3 :: d), isNaN_nan _ _, isNaN_nan _ _, by rw [h, dcOffset_pulse]⟩

/-! ## PROCESS (R240, R241) -/

/-- `after` differs from `ln` at most in phases, counters, outputs and ring cells, what PROCESS may write. -/
def Lane.KeepsSettings (ln after : Lane) : Prop :=
  after =
    { ln with
      phase := after.phase
      subPhase := after.subPhase
      cnt := after.cnt
      outMain := after.outMain
      outSub := after.outSub
      buf := after.buf }

theorem Lane.KeepsSettings.syncDir_eq {ln after : Lane} (h : ln.KeepsSettings after) : after.syncDir = ln.syncDir := by
  rw [Lane.KeepsSettings] at h
  rw [h]

theorem keepsSettings_sampledLane (c : Config) (d : Draw) (isActive : Bool) (pos : Sources Nat) (t : Word) (ln : Lane) :
    ln.KeepsSettings (sampledLane c d isActive pos t ln) := by
  cases isActive with
  | false => rfl
  | true =>
    simp only [sampledLane, if_true, processLane_eq]
    rfl

theorem processState_keepsSettings (c : Config) (t : Word) (s : State) (i : Fin 4) :
    (s.lane i).KeepsSettings ((processState c t s).lane i) := by
  rw [processState_lane_eq_sampledLane]
  exact keepsSettings_sampledLane ..

/-- PROCESS drains an inactive lane and does nothing else to it. -/
theorem processState_lane_of_inactive {c : Config} {t : Word} {s : State} {i : Fin 4} (hi : s.n ≤ i.val) :
    (processState c t s).lane i =
      { s.lane i with
        outMain := posZero
        outSub := ⟨posZero, posZero⟩
        buf := ⟨(s.lane i).buf.m.set s.pos.m posZero, (s.lane i).buf.a.set s.pos.a posZero,
          (s.lane i).buf.b.set s.pos.b posZero⟩ } := by
  have isInactive : active s.n i = false := decide_eq_false (by omega)
  rw [processState_lane_eq_sampledLane, isInactive]
  rfl

/-- ERR_SEQ after a command, from ERR_SEQ and STALE before it (R237, R268). -/
def errSeqAfter (i : Instr) (errSeq stale : Bool) : Bool :=
  match i with
  | .process _ _ => errSeq || stale
  | _ => errSeq

theorem exec_errSeq {i : Instr} {s t : State} (h : exec i s = .next t) :
    t.status.errSeq = errSeqAfter i s.status.errSeq s.status.stale := by
  cases exec_effect h with
  | process tm y => rw [State.done_status, processState_eq]; rfl
  | nop | setWaveform | setupSub | setPw | computeOffset | readMain | readSub | readStatus => rfl
  | badCount | badDivisor | badWidth | badTime => rfl

end Sys2Proof.Machine

/-! # The statements of 45_engine_commands.md -/

namespace Sys2Proof.Proofs.EngineCommandsFamily

open Sys2Proof Sys2Proof.Machine

/-- Settles O19: a rejection and every effect but that of PROCESS keep ERR_SEQ. -/
theorem sequenceErrorOnlyFromStaleProcess : Obligations.SequenceErrorOnlyFromStaleProcess := by
  intro i s t h
  rw [exec_errSeq h]
  cases i <;> rfl

/-- Settles O24: an active lane's quotients draw nothing, whatever pattern is offered. -/
theorem setupSubConfiguresTheLanes : Obligations.SetupSubConfiguresTheLanes := by
  intro nn pitch dA dB s hcount hdivisors
  refine ⟨(setupState device nn pitch dA dB s).lanes,
    exec_setupSub_of_legal (countLegal_iff.mpr hcount) (divisorsLegal_iff.mpr hdivisors) pitch s, fun i => ?_⟩
  obtain ⟨hA, hB⟩ := hdivisors i
  rw [setupState_lanes, Lanes.get_ofFn]
  refine ⟨fun hi q => ?_, fun hi => ?_⟩
  · rw [show active nn i = true from decide_eq_true hi]
    exact setupLane_of_active _ _ hA hB _ q
  · rw [show active nn i = false from decide_eq_false (by omega)]
    exact setupLane_of_inactive ..

/-- Settles O27: by the sanitiser's branches; a value above `FREQ_MAX` is above zero. -/
theorem sanitisedFrequencyIsInRange : Obligations.SanitisedFrequencyIsInRange := by
  intro f
  obtain ⟨nonneg, most⟩ := fsan_device_range f
  refine ⟨fsan_of_not_pos, fun above => ?_, fun pos le => ?_, isFinite_of_finiteNonneg nonneg, signBit_fsan_device f,
    (Bool.and_eq_true_iff.mp nonneg).2, most⟩
  · have pos : flt posZero f = true := flt_trans (by decide) above
    rw [fsan_of_pos pos, device_freqMax, if_pos above]
  · have notAbove : ¬ flt 0x47C35000#32 f = true := fun above => by
      rw [not_fle_of_flt above] at le
      cases le
    rw [fsan_of_pos pos, device_freqMax, if_neg notAbove]

/-- Settles O30: the three compensations of a lane are `dcOffset` of its own waveform, frequency and width. -/
theorem computeOffsetWritesTheCompensations : Obligations.ComputeOffsetWritesTheCompensations := by
  intro t s finite above
  refine ⟨(offsetState device t s).lanes,
    exec_computeOffset_of_legal (Bool.and_eq_true_iff.mpr ⟨finite, above⟩) s, fun i => ?_⟩
  rw [offsetState_lanes, Lanes.get_ofFn]
  exact ⟨_, _, _, rfl, fun saw => dcOffset_of_saw saw .., fun pulse => dcOffset_of_pulse pulse ..,
    fun saw => dcOffset_of_saw saw .., fun saw => dcOffset_of_saw saw ..,
    fun pulse => dcOffset_of_pulse pulse .., fun pulse => dcOffset_of_pulse pulse ..⟩

/-- Settles O33: the sampled lanes in the state PROCESS leaves. -/
theorem processCompletesAndFrames : Obligations.ProcessCompletesAndFrames := by
  intro t y s
  refine ⟨(processState device t s).lanes, ?_, processState_keepsSettings device t s⟩
  rw [exec_process, processState_eq, State.done_eq]
  rfl

/-- Settles O34: an inactive lane is sampled without being moved. -/
theorem processOnlyDrainsInactiveLanes : Obligations.ProcessOnlyDrainsInactiveLanes :=
  fun t y s => ⟨(processState device t s).done, exec_process t y s, fun _ hi => processState_lane_of_inactive hi⟩

/-- Settles O22: the empty response is the one thing NOP adds. -/
theorem nopOnlyAnswers : Obligations.NopOnlyAnswers :=
  fun s => congrArg Host.Outcome.next s.done_eq

/-- Settles O23: each lane takes its bit of either mask. -/
theorem setWaveformWritesTheMasks : Obligations.SetWaveformWritesTheMasks := by
  intro mainMask subMask s
  exact ⟨(setWaveform mainMask subMask s).lanes, congrArg Host.Outcome.next (State.done_eq _),
    fun i => Lanes.get_ofFn _ i⟩

/-- Settles O25: the count is checked before the divisors. -/
theorem setupSubRejectsABadCount : Obligations.SetupSubRejectsABadCount := by
  intro nn pitch dA dB s h
  rw [exec_setupSub_of_badCount (decide_eq_false (by omega)), State.reject_of_cfg rfl]
  rfl

/-- Settles O26: one field out of range fails the check of all eight. -/
theorem setupSubRejectsABadDivisor : Obligations.SetupSubRejectsABadDivisor := by
  intro nn pitch dA dB s hcount ⟨i, bad⟩
  have divisors : divisorsLegal dA dB = false := by
    rw [← Bool.not_eq_true, divisorsLegal_iff]
    intro legal
    have := legal i
    omega
  rw [exec_setupSub_of_badDivisor (countLegal_iff.mpr hcount) divisors, State.reject_of_cfg rfl]
  rfl

/-- Settles O28: each lane takes its operand's bits. -/
theorem setPwStoresTheWidths : Obligations.SetPwStoresTheWidths :=
  fun w s h => ⟨(setPulseWidths w s).lanes, exec_setPw_of_legal (pulseWidthsLegal_iff.mpr h) s,
    fun i => Lanes.get_ofFn _ i⟩

/-- Settles O29: one width out of range fails the check of all four. -/
theorem setPwRejectsABadWidth : Obligations.SetPwRejectsABadWidth := by
  intro w s ⟨i, bad⟩
  rw [exec_setPw_of_badWidth fun legal => bad (pulseWidthsLegal_iff.mp legal i), State.reject_of_cfg rfl]
  rfl

/-- Settles O31: none of the four kinds of time passes the check. -/
theorem computeOffsetRejectsABadTime : Obligations.ComputeOffsetRejectsABadTime := by
  intro t s h
  rw [exec_computeOffset_of_badTime (sampleTimeLegal_of_bad h), State.reject_of_cfg rfl]
  rfl

/-- Settles O37: the meaning of PROCESS does not take the sync values, and no step writes the sync direction. -/
theorem processIgnoresTheSyncValues : Obligations.ProcessIgnoresTheSyncValues :=
  fun t y y' s => ⟨(exec_process t y s).trans (exec_process t y' s).symm, (processState device t s).done,
    exec_process t y s, fun i => (processState_keepsSettings device t s i).syncDir_eq⟩

/-- Settles O42: four data words, the main samples. -/
theorem readMainAnswersTheSamples : Obligations.ReadMainAnswersTheSamples :=
  fun s => congrArg Host.Outcome.next (s.respond_executed (nd := 4) rfl (by decide))

/-- Settles O43: four data words, the samples of the sub. -/
theorem readSubAnswersTheSamples : Obligations.ReadSubAnswersTheSamples :=
  fun k s => congrArg Host.Outcome.next (s.respond_executed (nd := 4) rfl (by decide))

/-- Settles O44: one data word, STATUS. -/
theorem readStatusAnswersTheWord : Obligations.ReadStatusAnswersTheWord :=
  fun s => congrArg Host.Outcome.next (s.respond_executed (nd := 1) rfl (by decide))

end Sys2Proof.Proofs.EngineCommandsFamily

/-! # Rejections and the error record

A command is rejected or keeps the error record of R266; so a step changes the record only by a rejection, which sets
bits and stores a nonzero cause. That a response carries the cause of its command tells the two apart (R267). -/

namespace Sys2Proof.Machine

/-! ## The table of causes (R261) -/

def allCauses : List Cause :=
  [.illegalOpcode, .badLength, .reservedNonzero, .cfgChannels, .cfgDivisor, .cfgPulseWidth, .cfgSampleTime]

/-- The row of a cause: its code, and whether its class is ERR_CFG. -/
def causeRow (c : Cause) : Cause × Nat × Bool := (c, (causeCode c).toNat, causeIsCfg c)

theorem eq_of_mem_causeRows {c : Cause} {code : Nat} {cfg : Bool} (h : (c, code, cfg) ∈ allCauses.map causeRow) :
    code = (causeCode c).toNat ∧ cfg = causeIsCfg c := by
  obtain ⟨c', -, row⟩ := List.mem_map.mp h
  cases row
  exact ⟨rfl, rfl⟩

/-- Cause 0 is no rejection. -/
theorem causeCode_ne_zero (c : Cause) : causeCode c ≠ 0#8 := by cases c <;> decide

/-! ## What a response says of its command (R87) -/

/-- Bits 7:0 of a response's status word are the cause. -/
theorem responseWord_cause (cause : BitVec 8) (nd : Nat) : (responseWord cause nd).extractLsb' 0 8 = cause := by
  apply BitVec.eq_of_getLsbD_eq
  intro i hi
  simp only [BitVec.getLsbD_extractLsb', responseWord, BitVec.getLsbD_append]
  simp [hi]

/-- A response whose cause is 0 is not that of a rejection. -/
theorem cause_ne_zero_of_reject {s : State} {c : Cause} {w : Word} {data : List Word}
    (h : (s.reject c).rsp = s.rsp ++ w :: data) : w.extractLsb' 0 8 ≠ 0#8 := by
  rw [State.reject_rsp] at h
  obtain ⟨rfl, -⟩ := List.cons.inj (List.append_cancel_left h)
  rw [responseWord_cause]
  exact causeCode_ne_zero c

/-! ## The error record through a command (R266, R267) -/

/-- The three fields of STATUS that a rejection writes are the same after as before. -/
structure Status.SameRecord (st after : Status) : Prop where
  lastCause : after.lastCause = st.lastCause
  errIllegal : after.errIllegal = st.errIllegal
  errCfg : after.errCfg = st.errCfg

/-- A command is rejected, or it executes and keeps the error record. -/
theorem exec_rejects_or_keepsRecord {i : Instr} {s t : State} (h : exec i s = .next t) :
    (∃ c, t = s.reject c) ∨ s.status.SameRecord t.status := by
  cases exec_effect h with
  | badCount | badDivisor | badWidth | badTime => exact .inl ⟨_, rfl⟩
  | nop | setWaveform | setupSub | setPw | computeOffset | process | readMain | readSub | readStatus =>
    exact .inr ⟨rfl, rfl, rfl⟩

theorem errSeqAfter_of_set (i : Instr) (stale : Bool) : errSeqAfter i true stale = true := by
  cases i <;> rfl

/-! ## Sticky bits (R270) -/

/-- What is set in STATUS stays set. -/
structure Status.KeepsSticky (st after : Status) : Prop where
  errIllegal : st.errIllegal = true → after.errIllegal = true
  errCfg : st.errCfg = true → after.errCfg = true
  errSeq : st.errSeq = true → after.errSeq = true
  lastCause : st.lastCause ≠ 0#8 → after.lastCause ≠ 0#8

theorem Status.KeepsSticky.refl (st : Status) : st.KeepsSticky st := ⟨id, id, id, id⟩

/-- A rejection sets one class bit and overwrites LAST_CAUSE with a nonzero code. -/
theorem Status.KeepsSticky.rejected (st : Status) (c : Cause) : st.KeepsSticky (st.rejected c) where
  errIllegal set := by rw [Status.rejected_errIllegal, set, Bool.true_or]
  errCfg set := by rw [Status.rejected_errCfg, set, Bool.true_or]
  errSeq := id
  lastCause _ := causeCode_ne_zero c

theorem Status.SameRecord.keepsSticky {st after : Status} (same : st.SameRecord after)
    (seq : st.errSeq = true → after.errSeq = true) : st.KeepsSticky after where
  errIllegal set := same.errIllegal.trans set
  errCfg set := same.errCfg.trans set
  errSeq := seq
  lastCause nonzero := same.lastCause ▸ nonzero

theorem exec_keepsSticky {i : Instr} {s t : State} (h : exec i s = .next t) : s.status.KeepsSticky t.status := by
  rcases exec_rejects_or_keepsRecord h with ⟨c, rfl⟩ | same
  · exact .rejected s.status c
  · exact same.keepsSticky fun set => by rw [exec_errSeq h, set, errSeqAfter_of_set]

theorem step_keepsSticky {s t : State} (h : step s = .next t) : s.status.KeepsSticky t.status := by
  rcases step_cases h with ⟨-, rfl⟩ | ⟨c, rest, -, -, rfl⟩ | ⟨i, rest, -, hx⟩
  · exact .refl s.status
  · exact .rejected s.status c
  · rw [← State.consumed_status s rest]
    exact exec_keepsSticky hx

/-! ## Every step answers (R281) -/

theorem step_answers (s : State) : ∃ t, step s = .next t := by
  cases hf : frameCommand s.stream with
  | none => exact ⟨_, step_of_unfinished hf⟩
  | some command =>
    obtain ⟨h, ops, rest⟩ := command
    have hd : decode s.stream = some (decodeCommand h ops, rest) := by rw [decode, hf]
    cases hc : decodeCommand h ops with
    | error c => exact ⟨_, step_of_rejected (hc ▸ hd)⟩
    | ok i =>
      obtain ⟨t, hx⟩ := exec_answers i (s.consumed rest)
      exact ⟨t, (step_of_accepted (hc ▸ hd)).trans hx⟩

end Sys2Proof.Machine

/-! # The statements of 60_exceptions.md -/

namespace Sys2Proof.Proofs.ExceptionsFamily

open Sys2Proof Sys2Proof.Machine

/-- Settles O16: a step waits, rejects or executes, and each of the three keeps what is set. -/
theorem stickyBitsAreClearedOnlyByReset : Obligations.StickyBitsAreClearedOnlyByReset := by
  intro s t h
  obtain ⟨errIllegal, errCfg, errSeq, lastCause⟩ := step_keepsSticky h
  exact ⟨errIllegal, errCfg, errSeq, lastCause⟩

/-- Settles O17: a response with cause 0 excludes the rejection. -/
theorem executedCommandsKeepTheErrorRecord : Obligations.ExecutedCommandsKeepTheErrorRecord := by
  intro i s t w data h rsp executed
  rcases exec_rejects_or_keepsRecord h with ⟨c, rfl⟩ | ⟨lastCause, errIllegal, errCfg⟩
  · exact absurd executed (cause_ne_zero_of_reject rsp)
  · exact ⟨lastCause, errIllegal, errCfg⟩

/-- Settles O5: framing, decoding and every command's meaning are total. -/
theorem nothingStopsTheMachine : Obligations.NothingStopsTheMachine :=
  ⟨step_answers, exec_answers⟩

/-- Settles O15: the listed rows are those of `causeCode` and `causeIsCfg`, and a rejection writes nothing else. -/
theorem rejectionRecordsTheCauseAlone : Obligations.RejectionRecordsTheCauseAlone := by
  intro s c code cfg row
  obtain ⟨rfl, rfl⟩ := eq_of_mem_causeRows row
  rw [BitVec.ofNat_toNat, BitVec.ofNat_toNat, BitVec.setWidth_eq, ← responseWord_without_data]
  rfl

end Sys2Proof.Proofs.ExceptionsFamily

/-! # Runs under the rule of use, and lanes left alone

STALE is what sets ERR_SEQ, so a host that keeps the rule of use never sets it. A block with no active lane stays quiet
because PROCESS writes +0.0 outputs and leaves a clear STATUS clear. PROCESS does to the rings of an inactive lane what
a read-out does; the drain over 32 of them is then that of 41_kernel_buffer.md. -/

namespace Sys2Proof.Machine

/-! ## The rule of use (R300) -/

theorem nextIsProcess_of_decode {s : State} {tm : Word} {y : Lanes Word} {rest : List Word}
    (h : decode s.stream = some (.ok (.process tm y), rest)) : nextIsProcess s = true := by
  rw [nextIsProcess, h]

/-- A step from a state that keeps the rule of use leaves ERR_SEQ clear: the only command that could set it is a PROCESS,
which the rule lets start with STALE clear alone. -/
theorem step_keeps_errSeq_clear {s t : State} (rule : s.RuleOfUse) (h : step s = .next t)
    (clear : s.status.errSeq = false) : t.status.errSeq = false := by
  rcases step_cases h with ⟨-, rfl⟩ | ⟨c, rest, -, -, rfl⟩ | ⟨i, rest, hd, hx⟩
  · exact clear
  · exact clear
  · rw [exec_errSeq hx]
    cases i with
    | process tm y =>
      have fresh : s.status.stale = false := rule (nextIsProcess_of_decode hd)
      exact Bool.or_eq_false_iff.mpr ⟨clear, fresh⟩
    | nop | setWaveform | setupSub | setPw | computeOffset | readMain | readSub | readStatus => exact clear

/-! ## A block with no active lane (R293) -/

/-- No lane is active, STATUS is clear and the outputs are +0.0, as after reset. -/
def State.Quiet (s : State) : Prop :=
  s.n = 0 ∧ s.status = Status.cleared ∧
    ∀ i : Fin 4, (s.lane i).outMain = posZero ∧ ∀ k, (s.lane i).outSub.get k = posZero

@[simp] theorem State.done_lane (s : State) (i : Fin 4) : s.done.lane i = s.lane i := rfl

/-- PROCESS keeps a quiet block quiet, whatever its rings hold. -/
theorem State.Quiet.processed {s : State} (quiet : s.Quiet) (tm : Word) : (processState device tm s).done.Quiet := by
  obtain ⟨noLane, clear, -⟩ := quiet
  refine ⟨noLane, ?_, fun i => ?_⟩
  · rw [State.done_status, processState_eq, clear]
    rfl
  · rw [State.done_lane, processState_lane_of_inactive (by omega)]
    exact ⟨rfl, fun k => Subs.get_all posZero k⟩

theorem State.Quiet.statusWord_eq {s : State} (quiet : s.Quiet) : s.statusWord = 0#32 := by
  obtain ⟨noLane, clear, -⟩ := quiet
  rw [State.statusWord, noLane, clear]
  rfl

/-! ## A lane at or above the channel count (R304) -/

/-- The state after one PROCESS for each of the sample times. -/
def afterSamples (c : Config) (times : List Word) (s : State) : State :=
  times.foldl (fun u tm => processState c tm u) s

theorem afterSamples_append_singleton (c : Config) (times : List Word) (tm : Word) (s : State) :
    afterSamples c (times ++ [tm]) s = processState c tm (afterSamples c times s) :=
  List.foldl_append

theorem afterSamples_n (c : Config) (times : List Word) (s : State) : (afterSamples c times s).n = s.n := by
  induction times using List.reverseRecOn with
  | nil => rfl
  | append_singleton times tm ih => rw [afterSamples_append_singleton, processState_eq, ih]

/-- PROCESS moves each position as the read-out of its source does. -/
theorem processState_pos_eq_kbProcess (c : Config) (tm : Word) (s : State) (src : Source) :
    (processState c tm s).pos.get src = (kbProcess c src s).2.pos.get src := by
  rw [processState_eq, kbProcess_pos, Sources.get_set_self]
  cases src <;> rfl

/-- PROCESS changes each ring of an inactive lane as the read-out of its source does. -/
theorem processState_ring_of_inactive {c : Config} {tm : Word} {s : State} {i : Fin 4} (hi : s.n ≤ i.val)
    (src : Source) :
    ((processState c tm s).lane i).buf.get src = ((kbProcess c src s).2.lane i).buf.get src := by
  rw [processState_lane_of_inactive hi, kbProcess_lane, bufWrite_buf, Sources.get_set_self]
  cases src <;> rfl

/-- A read-out depends on a lane's ring only through that ring and its position. -/
theorem kbProcess_congr {c : Config} {src : Source} {s u : State} {i : Fin 4}
    (pos : s.pos.get src = u.pos.get src) (ring : (s.lane i).buf.get src = (u.lane i).buf.get src) :
    (kbProcess c src s).2.pos.get src = (kbProcess c src u).2.pos.get src ∧
      ((kbProcess c src s).2.lane i).buf.get src = ((kbProcess c src u).2.lane i).buf.get src := by
  simp only [kbProcess_pos, kbProcess_lane, bufWrite_buf, Sources.get_set_self, pos, ring, and_self]

/-- To a ring of an inactive lane, a run of PROCESS commands is a run of read-outs. -/
theorem afterSamples_eq_afterReadOuts {c : Config} {s : State} {i : Fin 4} (hi : s.n ≤ i.val) (src : Source)
    (times : List Word) :
    (afterSamples c times s).pos.get src = (afterReadOuts c src s times.length).pos.get src ∧
      ((afterSamples c times s).lane i).buf.get src =
        ((afterReadOuts c src s times.length).lane i).buf.get src := by
  induction times using List.reverseRecOn with
  | nil => exact ⟨rfl, rfl⟩
  | append_singleton times tm ih =>
    obtain ⟨pos, ring⟩ := ih
    have inactive : (afterSamples c times s).n ≤ i.val := by rwa [afterSamples_n]
    rw [afterSamples_append_singleton, List.length_append, List.length_singleton, afterReadOuts_succ,
      processState_pos_eq_kbProcess, processState_ring_of_inactive inactive]
    exact kbProcess_congr pos ring

/-- As many samples as a ring has cells empty the ring of an inactive lane. -/
theorem ring_afterSamples_ringLen {c : Config} {s : State} {i : Fin 4} {src : Source} {times : List Word}
    (hi : s.n ≤ i.val) (hr : ((s.lane i).buf.get src).length = c.ringLen) (hp : s.pos.get src < c.ringLen)
    (ht : times.length = c.ringLen) :
    ((afterSamples c times s).lane i).buf.get src = List.replicate c.ringLen posZero := by
  rw [(afterSamples_eq_afterReadOuts hi src times).2, ht]
  exact ring_afterReadOuts_ringLen hr hp

theorem Memory.wf.length_ring {s : State} {l : Nat} (h : s.memory.wf l) (i : Fin 4) (src : Source) :
    ((s.lane i).buf.get src).length = l := by
  rw [← ringLengths_get, (Memory.wf_iff s l).mp h i, Sources.get_all]

end Sys2Proof.Machine

/-! # The statements of 70_reset_and_hazards.md -/

namespace Sys2Proof.Proofs.ResetAndHazardsFamily

open Sys2Proof Sys2Proof.Machine Sys2Proof.Proofs.EngineCommandsFamily

/-- Settles O20, by induction on the run. -/
theorem theRuleOfUseKeepsSequenceErrorClear : Obligations.TheRuleOfUseKeepsSequenceErrorClear := by
  intro s t run
  induction run with
  | refl => exact id
  | step rule next _ ih => exact fun clear => ih (step_keeps_errSeq_clear rule next clear)

/-- Settles O40: PROCESS keeps the block quiet, and the reads answer its outputs and its STATUS word. -/
theorem anUnconfiguredBlockIsSilent : Obligations.AnUnconfiguredBlockIsSilent := by
  intro s (quiet : s.Quiet)
  have ⟨_, _, zeros⟩ := quiet
  have main : ∀ i, (s.lane i).outMain = 0#32 := fun i => (zeros i).1
  have sub : ∀ i k, (s.lane i).outSub.get k = 0#32 := fun i => (zeros i).2
  refine ⟨fun tm y => ⟨_, exec_process tm y s, quiet.processed tm, rfl, rfl⟩, ?_, fun k => ?_, ?_⟩
  · rw [readMainAnswersTheSamples s, main, main, main, main]
  · rw [readSubAnswersTheSamples k s, sub, sub, sub, sub]
  · rw [readStatusAnswersTheWord s, quiet.statusWord_eq]

/-- Settles O41: to an inactive lane 32 PROCESS commands are 32 read-outs of each of its rings. -/
theorem anInactiveLaneDrains : Obligations.AnInactiveLaneDrains := by
  intro s i times inactive form mainPos subAPos subBPos count src
  have inRing : s.pos.get src < device.ringLen := by
    cases src with
    | m => exact mainPos
    | a => exact subAPos
    | b => exact subBPos
  exact ring_afterSamples_ringLen inactive (form.length_ring i src) inRing count

end Sys2Proof.Proofs.ResetAndHazardsFamily
